-- ==== Sys2Proof/Word.lean ====
section
/-! DEFINITION. The fixed data widths of the core (00_scope.md R4): bytes of a frame, 32-bit address and value words,
30-bit bus word addresses. -/

namespace Sys2Proof

/-- A header byte, or any byte of a frame (R4: the header is 8 bits). -/
abbrev Byte := BitVec 8

/-- A 32-bit address or value field, and the 32-bit bus data (R4). -/
abbrev Word := BitVec 32

/-- A bus word address: the serial address without its low two bits (R4, `BUS_ADR_W` = 30). -/
abbrev BusAddr := BitVec 30

end Sys2Proof
end

