-- ==== Sys2Proof/Syntax.lean ====
section
/-! DEFINITION. The frame commands (43_commands.md R84 to R87), one constructor for each row of
spec/opcode_table.json. -/

namespace Sys2Proof

/-- The instructions of this hardware: the frames a host sends. An `abort` constructor carries the whole header byte
`h` (R86's operand); the row it belongs to bounds `h` (WellFormed.lean). -/
inductive Instr where
  /-- WR `addr, val`: write one bus word (R84, format W72, header 0x00). -/
  | wr (addr val : Word)
  /-- RD `addr`: read one bus word (R85, format R40, header 0x01). -/
  | rd (addr : Word)
  /-- ABORT, header 0x02..0x03 (R86, format A8, match 0x02 mask 0xFE). -/
  | abort02 (h : Byte)
  /-- ABORT, header 0x04..0x07 (R86, match 0x04 mask 0xFC). -/
  | abort04 (h : Byte)
  /-- ABORT, header 0x08..0x0F (R86, match 0x08 mask 0xF8). -/
  | abort08 (h : Byte)
  /-- ABORT, header 0x10..0x1F (R86, match 0x10 mask 0xF0). -/
  | abort10 (h : Byte)
  /-- ABORT, header 0x20..0x3F (R86, match 0x20 mask 0xE0). -/
  | abort20 (h : Byte)
  /-- ABORT, header 0x40..0x7F (R86, match 0x40 mask 0xC0). -/
  | abort40 (h : Byte)
  /-- ABORT, header 0x80..0xFF (R86, match 0x80 mask 0x80). -/
  | abort80 (h : Byte)
  /-- SYNC: the two-wire preamble 0xAB (R87, format S8). -/
  | sync
deriving DecidableEq, Repr

/-- The header byte of an ABORT frame; none for the other commands. -/
def Instr.abortHeader : Instr → Option Byte
  | .wr _ _ => none
  | .rd _ => none
  | .abort02 h => some h
  | .abort04 h => some h
  | .abort08 h => some h
  | .abort10 h => some h
  | .abort20 h => some h
  | .abort40 h => some h
  | .abort80 h => some h
  | .sync => none

end Sys2Proof
end

