-- ==== Sys2Proof/WellFormed.lean ====
section
/-! DEFINITION. Which terms of Instr stand for frames: an ABORT row's header byte must lie in that row
(opcode_table.json, match and mask). -/

namespace Sys2Proof

/-- A header byte lies in an opcode-table row. -/
def inRow (mask pattern h : Byte) : Bool := h &&& mask == pattern

/-- The static checks of an instruction, one for each ABORT row (30_encoding.md R48, opcode_table.json). WR, RD and
SYNC take every operand (R50). -/
def Instr.wellFormed : Instr → Bool
  | .wr _ _ => true
  | .rd _ => true
  | .abort02 h => inRow 0xFE#8 0x02#8 h
  | .abort04 h => inRow 0xFC#8 0x04#8 h
  | .abort08 h => inRow 0xF8#8 0x08#8 h
  | .abort10 h => inRow 0xF0#8 0x10#8 h
  | .abort20 h => inRow 0xE0#8 0x20#8 h
  | .abort40 h => inRow 0xC0#8 0x40#8 h
  | .abort80 h => inRow 0x80#8 0x80#8 h
  | .sync => true

end Sys2Proof
end

