-- ==== Sys2Proof/Decode.lean ====
section
/-! DEFINITION. The decoder of frames (30_encoding.md), total on any bytes and refusing by name, and after it the
encoder. A frame is a list of bytes, the first on the wire first. -/

namespace Sys2Proof

/-- The reserved synchronization byte, bit pattern 10101011 (30_encoding.md R46). -/
def syncByte : Byte := 0xAB#8

/-- Where in the link's stream the decoder stands: what a byte means depends on it (R46, R48). -/
inductive Position where
  /-- Two-wire IDLE: the sync byte is expected before the frame (R46). -/
  | preamble
  /-- Frame bit 0: the header is expected (R43). -/
  | header
deriving DecidableEq, Repr

/-- Why bytes are not an instruction. -/
inductive Reject where
  /-- No byte at all. -/
  | empty
  /-- A write header with fewer than eight bytes after it (R44). -/
  | shortWrite
  /-- A read header with fewer than four bytes after it (R45). -/
  | shortRead
  /-- A byte other than 0xAB where the sync byte is expected (R46). -/
  | noSync
deriving DecidableEq, Repr

/-- A big-endian 32-bit field from its four bytes (R31, R42). -/
def wordOfBytes (b3 b2 b1 b0 : Byte) : Word := b3 ++ b2 ++ b1 ++ b0

/-- The ABORT row a header of 0x02..0xFF belongs to (opcode_table.json; R48). The rows are tried from the one that
holds the largest headers down. -/
def abortOfHeader (h : Byte) : Instr :=
  if inRow 0x80#8 0x80#8 h then .abort80 h
  else if inRow 0xC0#8 0x40#8 h then .abort40 h
  else if inRow 0xE0#8 0x20#8 h then .abort20 h
  else if inRow 0xF0#8 0x10#8 h then .abort10 h
  else if inRow 0xF8#8 0x08#8 h then .abort08 h
  else if inRow 0xFC#8 0x04#8 h then .abort04 h
  else .abort02 h

/-- Decode at the header position (R43 to R45, R49): the header alone tells the length. The bytes after the
instruction are given back. -/
def decodeHeader : List Byte → Except Reject (Instr × List Byte)
  | [] => .error .empty
  | h :: rest =>
    if h = 0x00#8 then
      match rest with
      | a3 :: a2 :: a1 :: a0 :: v3 :: v2 :: v1 :: v0 :: rest' =>
        .ok (.wr (wordOfBytes a3 a2 a1 a0) (wordOfBytes v3 v2 v1 v0), rest')
      | _ => .error .shortWrite
    else if h = 0x01#8 then
      match rest with
      | a3 :: a2 :: a1 :: a0 :: rest' => .ok (.rd (wordOfBytes a3 a2 a1 a0), rest')
      | _ => .error .shortRead
    else .ok (abortOfHeader h, rest)

/-- Decode where the sync byte is expected (R46). -/
def decodePreamble : List Byte → Except Reject (Instr × List Byte)
  | [] => .error .empty
  | b :: rest => if b = syncByte then .ok (.sync, rest) else .error .noSync

/-- The decoder: one instruction from the front of a byte list, by position. -/
def decode : Position → List Byte → Except Reject (Instr × List Byte)
  | .preamble, bytes => decodePreamble bytes
  | .header, bytes => decodeHeader bytes

/-! ## The encoder -/

/-- The four bytes of a big-endian 32-bit field (R42). -/
def bytesOfWord (w : Word) : List Byte :=
  [w.extractLsb' 24 8, w.extractLsb' 16 8, w.extractLsb' 8 8, w.extractLsb' 0 8]

/-- The bytes of an instruction on the wire (R43 to R46, R51). -/
def encode : Instr → List Byte
  | .wr addr val => 0x00#8 :: (bytesOfWord addr ++ bytesOfWord val)
  | .rd addr => 0x01#8 :: bytesOfWord addr
  | .abort02 h => [h]
  | .abort04 h => [h]
  | .abort08 h => [h]
  | .abort10 h => [h]
  | .abort20 h => [h]
  | .abort40 h => [h]
  | .abort80 h => [h]
  | .sync => [syncByte]

/-- Where an instruction stands in the stream: SYNC before a frame, the others at frame bit 0 (R46). -/
def Instr.position : Instr → Position
  | .wr _ _ => .header
  | .rd _ => .header
  | .abort02 _ => .header
  | .abort04 _ => .header
  | .abort08 _ => .header
  | .abort10 _ => .header
  | .abort20 _ => .header
  | .abort40 _ => .header
  | .abort80 _ => .header
  | .sync => .preamble

/-- The bits of a byte in the order they cross the wire, most significant first (R42). -/
def bitsOfByte (b : Byte) : List Bool :=
  [b.getLsbD 7, b.getLsbD 6, b.getLsbD 5, b.getLsbD 4, b.getLsbD 3, b.getLsbD 2, b.getLsbD 1, b.getLsbD 0]

/-- The bits of a byte sequence in wire order: frame bit `k` is at index `k` (R41). -/
def bitsOfBytes (bytes : List Byte) : List Bool := bytes.flatMap bitsOfByte

/-! ## The opcode table's numbering -/

/-- The bytes of a table word: byte `k` is bits `8k+7..8k` of `w`, for the bits the table gives; every later byte up to
the longest instruction (nine bytes) is 0. -/
def tableBytes (nbits w : Nat) : List Byte :=
  (List.range 9).map fun k => if 8 * k < nbits then BitVec.ofNat 8 (w >>> (8 * k)) else 0#8

/-- The bytes of exactly the instruction a table word begins with: the header alone tells the length (R49). -/
def tableFrame (nbits w : Nat) : List Byte :=
  let bytes := tableBytes nbits w
  match bytes with
  | [] => []
  | h :: _ => bytes.take (if h = 0x00#8 then 9 else if h = 0x01#8 then 5 else 1)

/-- The position a table word is read at: the byte 0xAB is the SYNC row's word, any other word is a header (log
entry 18: 0xAB is also a word of the last ABORT row, which it is at the header position). -/
def tablePosition (bytes : List Byte) : Position :=
  match bytes with
  | b :: _ => if b = syncByte then .preamble else .header
  | [] => .header

/-- The instruction the decoder reads from a table word. -/
def decodeTableWord (nbits w : Nat) : Option Instr :=
  let bytes := tableFrame nbits w
  match decode (tablePosition bytes) bytes with
  | .ok (i, _) => some i
  | .error _ => none

end Sys2Proof
end

