-- ==== Sys2Proof/Config.lean ====
section
/-! DEFINITION. What an instance fixes at construction (00_scope.md R1 to R3) and the free values: the draws the
environment makes where the spec gives no value. A free value is a constant without a body, so no proof can rest on it. -/

namespace Sys2Proof

/-- `WIRES` (00_scope.md R1): the three legal wire modes. -/
inductive WireMode where
  /-- `WIRES` = 4: separate data lines and a frame-select. -/
  | four
  /-- `WIRES` = 3: one shared data line and a frame-select. -/
  | three
  /-- `WIRES` = 2: one shared data line, no frame-select, a sync byte before every frame. -/
  | two
deriving DecidableEq, Repr

/-- The construction parameters `WIRES` and `TRISTATE` (00_scope.md R1, R2), fixed for the lifetime of an instance. -/
structure Config where
  /-- R1. -/
  wires : WireMode
  /-- R2: a tri-state output buffer is present (matters in four-wire mode only, 41_wire_mode.md R67). -/
  tristate : Bool
deriving DecidableEq, Repr

/-- Construction (00_scope.md R3): a `WIRES` value other than 2, 3 or 4 is refused and no instance exists. -/
def Config.ofWires (wires : Nat) (tristate : Bool) : Option Config :=
  match wires with
  | 4 => some ⟨.four, tristate⟩
  | 3 => some ⟨.three, tristate⟩
  | 2 => some ⟨.two, tristate⟩
  | _ => none

/-- The modes that have a frame-select line: `WIRES` in {3, 4} (10_state.md R10). -/
def Config.hasFrameSelect (cfg : Config) : Bool :=
  match cfg.wires with
  | .four => true
  | .three => true
  | .two => false

/-- The modes in which the data line is shared between host and core: `WIRES` in {2, 3} (41_wire_mode.md R59). -/
def Config.sharesDataLine (cfg : Config) : Bool :=
  match cfg.wires with
  | .four => false
  | .three => true
  | .two => true

/-- FREE VALUE (44_bus_adapter.md R91, D16): the word a target presents on `bus_dat_r` with `bus_err`, for the n-th
draw. DESIGN CHOICE (log entry 9), safe: nothing constrains it. -/
opaque Config.errorReadData : Nat → Word

/-- FREE VALUE (60_exceptions.md R117): whether the target performed a write it answered with `bus_err`, for the n-th
draw. DESIGN CHOICE (log entry 10), safe. -/
opaque Config.errorWritePerformed : Nat → Bool

/-- FREE VALUE (20_memory.md R36, D17): whether the target performed a write that a frame reset or `rst` cut short, for
the n-th draw. DESIGN CHOICE (log entry 8), safe. -/
opaque Config.cutShortPerformed : Nat → Bool

/-- FREE VALUE (41_wire_mode.md R59, D4): the level of a floating data line at the n-th tick. DESIGN CHOICE (log
entry 12), safe. -/
opaque Config.floatingLevel : Nat → Bool

/-- FREE VALUE (41_wire_mode.md R59): what a host that looks at its samples at the n-th tick has read for the j-th newest
of them, where that sample was of a floating line. DESIGN CHOICE (log entry 12), safe. -/
opaque Config.floatingSample : Nat → Nat → Bool

end Sys2Proof
end

