-- ==== Sys2Proof/Machine/State.lean ====
section
/-! DEFINITION. The state: the registers of the core (10_state.md R9), the construction parameters, and the two
environment agents (00_scope.md R8) as plain data; the outcomes' reasons; the state after reset. -/

namespace Sys2Proof.Machine

/-- The eleven protocol states (10_state.md R12). `endFrame` is the spec's END. -/
inductive Proto where
  | idle | getHeader | readAddress | readValue | busWrite | busRead
  | waitByteBoundary | writeWrResponse | writeResponse | writeValue | endFrame
deriving DecidableEq, Repr

/-- The registers of one core instance (10_state.md R9, table of section 1). A register whose "exists when" condition
fails keeps its reset value and nothing reads it (log entry 2). -/
structure Regs where
  /-- Serial-clock synchronizer stages (R10). -/
  clkS1 : Bool
  clkS2 : Bool
  /-- Data-in synchronizer stages (R10). -/
  dinS1 : Bool
  dinS2 : Bool
  /-- Frame-select synchronizer stages, `WIRES` in {3, 4} (R10). -/
  csnS1 : Bool
  csnS2 : Bool
  /-- The synchronized serial clock one tick earlier (R11). -/
  clkPrev : Bool
  /-- The protocol state (R12). -/
  proto : Proto
  /-- Header shift register (R13). -/
  command : Byte
  /-- Address shift register (R14). -/
  address : Word
  /-- Value shift register and read-data latch (R15). -/
  value : Word
  /-- Direction of the frame (R16). -/
  isWrite : Bool
  /-- Free-running serial bit counter, modulo 256 (R17). -/
  cnt : BitVec 8
  /-- Index of the value bit being driven (R18). -/
  woff : BitVec 5
  /-- Sync-byte recognition window, `WIRES` = 2 (R19). -/
  window : Byte
  /-- The turnaround has happened in this frame (R20). -/
  turned : Bool
  /-- Data-out level (R21). -/
  dout : Bool
deriving DecidableEq, Repr

/-- The core's inputs of one tick (10_state.md R22). The raw levels are the captured bits (40_signal_recovery.md R53). -/
structure Inputs where
  rawClk : Bool
  rawCsn : Bool
  rawDin : Bool
  rst : Bool
  busAck : Bool
  busErr : Bool
  busDatR : Word
deriving DecidableEq, Repr

/-- The core's bus outputs (10_state.md R23, 44_bus_adapter.md R88). -/
structure BusOut where
  cyc : Bool
  stb : Bool
  we : Bool
  adr : BusAddr
  datW : Word
  sel : BitVec 4
deriving DecidableEq, Repr

/-- The events of 60_exceptions.md R114, bookkeeping only. -/
inductive Event where
  /-- E1, with the header (R115). -/
  | framingAbort (h : Byte)
  /-- E2 (R117). -/
  | busError
  /-- E3, a condition: two-wire IDLE without a match (R118). -/
  | noSync
  /-- E4, a condition without a runtime trace (R116). -/
  | metastability
  /-- E5, a condition: the request stays unanswered (R119). -/
  | busHang
  /-- E6 (R120). -/
  | frameCancel
  /-- E7 (70_reset_and_hazards.md R141). -/
  | coreReset
deriving DecidableEq, Repr

/-- The levels the host puts on the pins (41_wire_mode.md, pin table; the pin of `data` is `mosi` in four-wire mode and
the shared `sio` otherwise). `data` is none while the host does not drive its data line. -/
structure Pins where
  sclk : Bool
  csn : Bool
  data : Option Bool
deriving DecidableEq, Repr

/-- What the host does next (00_scope.md R8, parameter `HOST`). -/
inductive Stimulus where
  /-- One local clock tick with these pins and this level of `rst`. Any host behaviour can be scripted so. -/
  | tick (rst : Bool) (pins : Pins)
  /-- Clock these bits on the data line under the host timing, frame-select left as it is. -/
  | bits (bs : List Bool)
  /-- Clock this many bits with the data line released. -/
  | clocks (n : Nat)
  /-- Send the frame with these bytes (30_encoding.md R51). `pos` is where the host, by what it has sent, takes the stream
  to stand (R46): it says what waveform the host clocks, and the host sees nothing of the core's registers (10_state.md
  R24). -/
  | frame (pos : Position) (bytes : List Byte)
deriving DecidableEq, Repr

/-- The host agent. `rx` holds the data-out pin's levels at the host's rising edges since the frame began, newest
first; none is high-impedance. `fight` records that the core and the host have driven a shared line at once. -/
structure HostAgent where
  script : List Stimulus
  pins : Pins
  rx : List (Option Bool)
  /-- How many bytes the host clocks at most while waiting for the response (70_reset_and_hazards.md R148). -/
  patience : Nat
  fight : Bool
deriving DecidableEq, Repr

/-- The board's data line: the environment input that a data line nobody drives is (41_wire_mode.md R59, D4). -/
structure Board where
  /-- A pull resistor's level; none: the line floats. -/
  pull : Option Bool
  /-- The levels of a floating line at the coming ticks, the next first; past the list they are free values. -/
  levels : List Bool
  /-- How many ticks have passed: the index of the free values. -/
  ticks : Nat
deriving DecidableEq, Repr

/-- The level of an undriven data line at this tick (R59): a level of its own at every tick of a floating line. -/
def Board.level (b : Board) : Bool := b.pull.getD (b.levels.head?.getD (Config.floatingLevel b.ticks))

/-- The board `n` ticks later. -/
def Board.advance (n : Nat) (b : Board) : Board := { b with levels := b.levels.drop n, ticks := b.ticks + n }

/-- Which completion lines a target raises (44_bus_adapter.md R92). -/
inductive AnswerKind where
  | ack | err | both
deriving DecidableEq, Repr

/-- The target's answer to one request (20_memory.md R40, 44_bus_adapter.md R96). -/
structure Answer where
  /-- The tick of the request at which it answers, the first being 0; none: never (R93). -/
  delay : Option Nat
  kind : AnswerKind
  /-- The word presented on `bus_dat_r`; none: the memory's word with `ack` alone, a free value with `err`. -/
  data : Option Word
  /-- Whether a write is performed; none: yes with `ack` alone, a free value with `err` or when cut short. -/
  performed : Option Bool
deriving DecidableEq, Repr

/-- The bus target (parameter `TARGET`): a memory, and a plan of answers, one per request. -/
structure Target where
  /-- (byte address, byte) pairs in canonical form (Machine/Ops.lean, `Memory.wf`). -/
  mem : List Host.Cell
  plan : List Answer
  /-- How many ticks the present request has stood unanswered. -/
  waited : Nat
deriving DecidableEq, Repr

/-- The whole system: the core, its construction parameters, and its environment. -/
structure State where
  cfg : Config
  core : Regs
  target : Target
  host : HostAgent
  board : Board
  /-- Index of the next free value. -/
  draws : Nat
  /-- The events raised so far, newest first (60_exceptions.md R114). -/
  events : List Event
deriving DecidableEq, Repr

/-- Reasons to stop with a fault: none exist. 93_implementation_defined.md: "No behaviour of the core is a `fault`. Every
input sequence has a defined next state". Safe: no step answers a fault. -/
inductive Fault where
deriving DecidableEq, Repr

/-- Reasons to refuse an instruction. -/
inductive Refusal where
  /-- Raised by exec for an instruction that has no meaning in the model; safe, and no arm of exec raises it. -/
  | notModelled (mnemonic : String)
deriving DecidableEq, Repr

/-- The reset value of every register (10_state.md section 1, 70_reset_and_hazards.md R141). -/
def Regs.reset : Regs where
  clkS1 := false
  clkS2 := false
  dinS1 := false
  dinS2 := false
  csnS1 := true
  csnS2 := true
  clkPrev := false
  proto := .idle
  command := 0#8
  address := 0#32
  value := 0#32
  isWrite := false
  cnt := 0#8
  woff := 0#5
  window := 0#8
  turned := false
  dout := true

/-- An instance right after reset, the host at rest with nothing scripted (70_reset_and_hazards.md R144), the target
with nothing written and no plan. -/
def State.resetWith (cfg : Config) : State where
  cfg := cfg
  core := Regs.reset
  target := { mem := [], plan := [], waited := 0 }
  host := { script := [], pins := { sclk := false, csn := true, data := none }, rx := [], patience := 16, fight := false }
  board := { pull := none, levels := [], ticks := 0 }
  draws := 0
  events := []

/-- The machine right after reset (70_reset_and_hazards.md R141). The instance is a four-wire one with a tri-state
buffer: DESIGN CHOICE, log entry 1 (unsafe only for a claim about runs from this one state). -/
def State.reset : State := State.resetWith { wires := .four, tristate := true }

end Sys2Proof.Machine
end

