-- ==== Sys2Proof/Machine/Operands.lean ====
section
/-! DEFINITION. How operands are assembled and used: the MSB-first shift of every field (00_scope.md section 6), the
bus address (20_memory.md R28) and the bytes of a bus word. -/

namespace Sys2Proof.Machine

/-- `shl1(r, b)`: shift left one place, insert `b` as bit 0, lose the old most significant bit (00_scope.md section 6,
Concatenation). -/
def shl1 {n : Nat} (r : BitVec n) (b : Bool) : BitVec n := (r.concat b).setWidth n

/-- The bus word address `address[31:2]` (20_memory.md R28). -/
def wordAddress (address : Word) : BusAddr := address.extractLsb' 2 30

/-- Byte `lane` of a word, lane 0 the least significant. -/
def laneByte (w : Word) (lane : Nat) : Byte := w.extractLsb' (8 * lane) 8

/-- The byte address of a lane of a bus word inside the target (log entry 7: lane 0 at the lowest address; no rule of
the spec depends on it, 20_memory.md R32). -/
def laneAddress (adr : BusAddr) (lane : Nat) : Nat := 4 * adr.toNat + lane

/-- The word whose bytes in lanes 3, 2, 1, 0 are given. -/
def wordOfLanes (l3 l2 l1 l0 : Byte) : Word := l3 ++ l2 ++ l1 ++ l0

/-- Bit `7 - k` of the read-response header 0x01 (45_response_encoder.md R107). -/
def readHeaderBit (k : Nat) : Bool := (0x01#8).getLsbD (7 - k)

end Sys2Proof.Machine
end

