-- ==== Sys2Proof/Machine/Flags.lean ====
section
/-! DEFINITION. The signals of a tick, computed from the registers before it (42_protocol_fsm.md R71 item 3): the
synchronized levels, the serial edges, frame reset, sync match, the byte boundary and the drive request. -/

namespace Sys2Proof.Machine

/-- Synchronized serial clock level (40_signal_recovery.md R54). -/
def sclk (r : Regs) : Bool := r.clkS2

/-- Synchronized data-in level (R54). -/
def din (r : Regs) : Bool := r.dinS2

/-- Synchronized frame-select level (R54; `WIRES` in {3, 4}). -/
def csn (r : Regs) : Bool := r.csnS2

/-- A rising serial-clock edge (40_signal_recovery.md R58). -/
def rise (r : Regs) : Bool := sclk r && !r.clkPrev

/-- A falling serial-clock edge (R58). -/
def fall (r : Regs) : Bool := !sclk r && r.clkPrev

/-- Frame-select at its inactive level (41_wire_mode.md R65, 90_conflicts.md C2). Always false in two-wire mode. -/
def frameReset (cfg : Config) (r : Regs) : Bool := cfg.hasFrameSelect && csn r

/-- The sync byte completes at this tick (41_wire_mode.md R64). -/
def syncMatch (cfg : Config) (r : Regs) : Bool :=
  !cfg.hasFrameSelect && r.proto == .idle && rise r && shl1 r.window (din r) == syncByte

/-- `cnt[2:0] = 0`: a whole number of bytes has been clocked (45_response_encoder.md R105). -/
def atByteBoundary (r : Regs) : Bool := r.cnt.extractLsb' 0 3 == 0#3

/-- The drive request `oe` (45_response_encoder.md R102). -/
def oe (r : Regs) : Bool := r.turned && !(r.proto == .idle || r.proto == .endFrame)

end Sys2Proof.Machine
end

