-- ==== Sys2Proof/Machine/Ops.lean ====
section
/-! DEFINITION. The shared operations: the bytes and words of the target's memory (20_memory.md R25, R26), FrameClear
(42_protocol_fsm.md R72), reset (70_reset_and_hazards.md R141) and the recording of events (60_exceptions.md R114). The
core has no trap entry and no return (R114, R124): every event's effect is a transition of a state rule, and FrameClear is
the one operation behind each return to IDLE. -/

namespace Sys2Proof.Machine

/-! ## The target's memory -/

/-- What a byte nothing has written reads as (DESIGN CHOICE, log entry 6: the spec fixes no contents, R33). -/
def unlistedByte : Byte := 0#8

/-- Canonical form: every listed address is at least `lo` and below 2^32, addresses rise strictly, and no entry equals
what an unlisted address reads as. -/
def Memory.wfFrom : Nat → List Host.Cell → Bool
  | _, [] => true
  | lo, (a, b) :: rest => decide (lo ≤ a) && decide (a < 2 ^ 32) && b != unlistedByte && Memory.wfFrom (a + 1) rest

/-- The canonical form of the target's memory. -/
def Memory.wf (mem : List Host.Cell) : Bool := Memory.wfFrom 0 mem

/-- Read one byte. -/
def readByte (a : Nat) : List Host.Cell → Byte
  | [] => unlistedByte
  | (a', b) :: rest => if a' = a then b else readByte a rest

/-- Put a byte in front of the cells that follow it, unless an unlisted address reads as it. -/
def consCell (a : Nat) (b : Byte) (rest : List Host.Cell) : List Host.Cell :=
  if b = unlistedByte then rest else (a, b) :: rest

/-- Write one byte, keeping the canonical form. -/
def writeByte (a : Nat) (b : Byte) : List Host.Cell → List Host.Cell
  | [] => consCell a b []
  | (a', b') :: rest =>
    if a' < a then (a', b') :: writeByte a b rest
    else if a' = a then consCell a b rest
    else consCell a b ((a', b') :: rest)

/-- `MemRead(adr, 4)` of a memory-like target (20_memory.md R26, R40). -/
def readWord (mem : List Host.Cell) (adr : BusAddr) : Word :=
  wordOfLanes (readByte (laneAddress adr 3) mem) (readByte (laneAddress adr 2) mem)
    (readByte (laneAddress adr 1) mem) (readByte (laneAddress adr 0) mem)

/-- `MemWrite(adr, 4, v)` of a memory-like target (20_memory.md R25, R29: the whole word). -/
def writeWord (mem : List Host.Cell) (adr : BusAddr) (v : Word) : List Host.Cell :=
  writeByte (laneAddress adr 3) (laneByte v 3) (writeByte (laneAddress adr 2) (laneByte v 2)
    (writeByte (laneAddress adr 1) (laneByte v 1) (writeByte (laneAddress adr 0) (laneByte v 0) mem)))

/-! ## FrameClear and reset -/

/-- FrameClear (42_protocol_fsm.md R72): every per-frame register to its fixed value; the synchronizer stages and
`clk_prev` are left as they are. -/
def frameClear (cfg : Config) (w : Regs) : Regs :=
  { w with
    proto := .idle
    command := 0#8
    address := 0#32
    value := 0#32
    isWrite := false
    cnt := 0#8
    woff := 0#5
    turned := false
    dout := true
    window := if cfg.hasFrameSelect then w.window else 0#8 }

/-- A tick with `rst` (70_reset_and_hazards.md R141): every register the instance has takes its reset value. -/
def coreReset (cfg : Config) (r : Regs) : Regs :=
  { Regs.reset with
    csnS1 := if cfg.hasFrameSelect then true else r.csnS1
    csnS2 := if cfg.hasFrameSelect then true else r.csnS2
    window := if cfg.hasFrameSelect then r.window else 0#8 }

/-! ## Events -/

/-- The code E1..E7 of an event (60_exceptions.md R114). -/
def Event.code : Event → Nat
  | .framingAbort _ => 1
  | .busError => 2
  | .noSync => 3
  | .metastability => 4
  | .busHang => 5
  | .frameCancel => 6
  | .coreReset => 7

end Sys2Proof.Machine
end

