-- ==== Sys2Proof/Machine/BusAdapter.lean ====
section
/-! DEFINITION. The bus transaction adapter (44_bus_adapter.md): the bus outputs, BUS_WRITE and BUS_READ; and the bus
target, the environment agent that answers (20_memory.md R40). -/

namespace Sys2Proof.Machine

/-! ## The core's side -/

/-- `bus_cyc` and `bus_stb` (R88). -/
def busCyc (r : Regs) : Bool := r.proto == .busWrite || r.proto == .busRead

/-- `bus_we` (R88). -/
def busWe (r : Regs) : Bool := r.proto == .busWrite

/-- The bus outputs, functions of the registers (R88). -/
def busOut (r : Regs) : BusOut where
  cyc := busCyc r
  stb := busCyc r
  we := busWe r
  adr := wordAddress r.address
  datW := r.value
  sel := 0b1111#4

/-- BUS_WRITE (R89, R92): `ack` or `err` completes the access alike; without an answer the state is kept (R93). -/
def ruleBusWrite (i : Inputs) (w : Regs) : Regs :=
  if i.busAck || i.busErr then { w with proto := .waitByteBoundary } else w

/-- BUS_READ (R90 to R92): completion also latches `bus_dat_r`. -/
def ruleBusRead (i : Inputs) (w : Regs) : Regs :=
  if i.busAck || i.busErr then { w with proto := .waitByteBoundary, value := i.busDatR } else w

/-! ## The target's side -/

/-- The answer of a target whose plan names none: `ack` in the first tick of the request (DESIGN CHOICE, log entry 5). -/
def defaultAnswer : Answer := { delay := some 0, kind := .ack, data := none, performed := none }

/-- The answer planned for the present (or the next) request. -/
def Target.current (t : Target) : Answer := t.plan.head?.getD defaultAnswer

/-- The target answers at this tick: a request stands and has stood for the planned delay (R96). -/
def Target.answers (t : Target) (r : Regs) : Bool :=
  busCyc r && (match t.current.delay with
    | some d => decide (d ≤ t.waited)
    | none => false)

/-- `bus_ack` of this tick. -/
def Target.ack (t : Target) (r : Regs) : Bool := t.answers r && t.current.kind != .err

/-- `bus_err` of this tick. -/
def Target.err (t : Target) (r : Regs) : Bool := t.answers r && t.current.kind != .ack

/-- `bus_dat_r` of this tick: the planned word, else the memory's word with `ack` alone, else a draw (R91). -/
def Target.data (t : Target) (r : Regs) (draw : Nat) : Word :=
  t.current.data.getD
    (if t.current.kind = .ack then readWord t.mem (wordAddress r.address) else Config.errorReadData draw)

/-- The request ends: a performed write changes the word at `bus_adr` (20_memory.md R25), the answer is used up. -/
def Target.retire (t : Target) (r : Regs) (performed : Bool) : Target where
  mem := if performed && busWe r then writeWord t.mem (wordAddress r.address) r.value else t.mem
  plan := t.plan.tail
  waited := 0

/-- The target at one tick. `cut`: a frame reset or `rst` cancels the request at this tick, and whether the write was
performed is a draw (20_memory.md R36, 44_bus_adapter.md R94). The memory changes only at the tick the request ends,
answered or cut: the spec fixes no tick at which a performed write reaches the target (DESIGN CHOICE, log entry 25). -/
def Target.tick (t : Target) (r : Regs) (cut : Bool) (draw : Nat) : Target :=
  if busCyc r then
    if cut then t.retire r (t.current.performed.getD (Config.cutShortPerformed draw))
    else if t.answers r then
      t.retire r (t.current.performed.getD
        (if t.current.kind = .ack then true else Config.errorWritePerformed draw))
    else { t with waited := t.waited + 1 }
  else { t with waited := 0 }

/-- A request ends at this tick, so the next draw has a new index. -/
def Target.ends (t : Target) (r : Regs) (cut : Bool) : Bool := busCyc r && (cut || t.answers r)

end Sys2Proof.Machine
end

