-- ==== Sys2Proof/Machine/Protocol.lean ====
section
/-! DEFINITION. The request states of the protocol state machine (42_protocol_fsm.md R74 to R78) and the bit counter
(R81). Each rule reads the registers before the tick (`r`) and writes the ones after it (`w`). -/

namespace Sys2Proof.Machine

/-- The bit counter (R81): one more at every rise, modulo 256, except in two-wire IDLE. -/
def countBit (cfg : Config) (r w : Regs) : Regs :=
  if rise r && (cfg.hasFrameSelect || r.proto != .idle) then { w with cnt := r.cnt + 1#8 } else w

/-- IDLE, four- and three-wire mode (R74). A rise in the tick in which frame-select is first seen active is frame bit 0
(D7). -/
def ruleIdleSelected (r w : Regs) : Regs :=
  { w with
    proto := .getHeader
    command := if rise r then shl1 r.command (din r) else w.command }

/-- IDLE, two-wire mode (R75): the sync byte starts the frame. -/
def ruleIdleTwoWire (cfg : Config) (r w : Regs) : Regs :=
  if syncMatch cfg r then { w with proto := .getHeader, command := 0#8, cnt := 0#8 } else w

/-- IDLE (R74, R75). -/
def ruleIdle (cfg : Config) (r w : Regs) : Regs :=
  if cfg.hasFrameSelect then ruleIdleSelected r w else ruleIdleTwoWire cfg r w

/-- GET_HEADER (R76): shift a header bit, and decide at the eighth on the shifted value (D6). -/
def ruleGetHeader (r w : Regs) : Regs :=
  if rise r then
    let c := shl1 r.command (din r)
    if r.cnt + 1#8 = 8#8 then
      if c = 0x00#8 then { w with command := c, isWrite := true, proto := .readAddress }
      else if c = 0x01#8 then { w with command := c, isWrite := false, proto := .readAddress }
      else { w with command := c, proto := .endFrame }
    else { w with command := c }
  else w

/-- READ_ADDRESS (R77): shift an address bit; after the last, a write goes on to its value, a read to the bus. -/
def ruleReadAddress (r w : Regs) : Regs :=
  if rise r then
    let a := shl1 r.address (din r)
    if r.cnt + 1#8 = 40#8 then
      if r.isWrite then { w with address := a, proto := .readValue }
      else { w with address := a, proto := .busRead }
    else { w with address := a }
  else w

/-- READ_VALUE (R78): shift a value bit; after the last, the bus write. -/
def ruleReadValue (r w : Regs) : Regs :=
  if rise r then
    let v := shl1 r.value (din r)
    if r.cnt + 1#8 = 72#8 then { w with value := v, proto := .busWrite }
    else { w with value := v }
  else w

end Sys2Proof.Machine
end

