-- ==== Sys2Proof/Machine/Recovery.lean ====
section
/-! DEFINITION. Signal recovery (40_signal_recovery.md): the two-stage synchronizers and the edge memory. -/

namespace Sys2Proof.Machine

/-- Every synchronizer shifts by one stage, and `clk_prev` takes the synchronized clock (R55, R57). No filtering
(R56). The frame-select stages exist only with a frame-select line (R10). -/
def recover (cfg : Config) (r : Regs) (i : Inputs) : Regs :=
  { r with
    clkS1 := i.rawClk
    clkS2 := r.clkS1
    dinS1 := i.rawDin
    dinS2 := r.dinS1
    csnS1 := if cfg.hasFrameSelect then i.rawCsn else r.csnS1
    csnS2 := if cfg.hasFrameSelect then r.csnS1 else r.csnS2
    clkPrev := r.clkS2 }

end Sys2Proof.Machine
end

