-- ==== Sys2Proof/Machine/Response.lean ====
section
/-! DEFINITION. The serial response encoder (45_response_encoder.md): turnaround, the response states and END. Each
rule reads the registers before the tick (`r`) and writes the ones after it (`w`). -/

namespace Sys2Proof.Machine

/-- Turnaround (R103): at a fall of BUS_WRITE, BUS_READ or WAIT_BYTE_BOUNDARY. -/
def turnaround (r w : Regs) : Regs :=
  if fall r && (r.proto == .busWrite || r.proto == .busRead || r.proto == .waitByteBoundary) then
    { w with turned := true }
  else w

/-- WAIT_BYTE_BOUNDARY (R105): at a fall on a byte boundary the response's first bit, a 0, is driven. -/
def ruleWaitByteBoundary (r w : Regs) : Regs :=
  if fall r && atByteBoundary r then
    { w with dout := false, proto := if r.isWrite then .writeWrResponse else .writeResponse }
  else w

/-- WRITE_WR_RESPONSE (R106): zeros until the acknowledgement byte has been sampled. -/
def ruleWriteWrResponse (r w : Regs) : Regs :=
  if fall r then
    if atByteBoundary r then { w with dout := false, proto := .endFrame } else { w with dout := false }
  else w

/-- WRITE_RESPONSE (R107): the rest of the header byte 0x01, then the first value bit. -/
def ruleWriteResponse (r w : Regs) : Regs :=
  if fall r then
    if atByteBoundary r then { w with dout := r.value.getLsbD 31, woff := 31#5, proto := .writeValue }
    else { w with dout := readHeaderBit (r.cnt.extractLsb' 0 3).toNat }
  else w

/-- WRITE_VALUE (R108): the value's bits in falling index order, then END. -/
def ruleWriteValue (r w : Regs) : Regs :=
  if fall r then
    if r.woff = 0#5 then { w with dout := false, proto := .endFrame }
    else { w with dout := r.value.getLsbD (r.woff.toNat - 1), woff := r.woff - 1#5 }
  else w

/-- END: held with a frame-select line (R109); FrameClear at once in two-wire mode (R110). -/
def ruleEnd (cfg : Config) (w : Regs) : Regs :=
  if cfg.hasFrameSelect then w else frameClear cfg w

end Sys2Proof.Machine
end

