-- ==== Sys2Proof/Machine/WireMode.lean ====
section
/-! DEFINITION. The wire-mode adapter (41_wire_mode.md): the data-out pin, the level at the data-in pin, and the
two-wire recognition window. -/

namespace Sys2Proof.Machine

/-- The pure drive decision of the adapter (R60 to R62, R67, R68): the level on the data-out pin, none for
high-impedance. -/
def adapterPin (cfg : Config) (drive level : Bool) : Option Bool :=
  match cfg.wires with
  | .four => if cfg.tristate && !drive then none else some level
  | .three => if drive then some level else none
  | .two => if drive then some level else none

/-- The data-out pin (`miso` or `sio`) of this tick, a function of the registers (00_scope.md R7). -/
def dataOutPin (cfg : Config) (r : Regs) : Option Bool := adapterPin cfg (oe r) r.dout

/-- The level the data-in pin captures (R59): the core's own drive on a shared line it drives, else the host's, else the
level `board` that the board gives the line at this tick. -/
def dataInPin (cfg : Config) (r : Regs) (hostData : Option Bool) (board : Bool) : Bool :=
  if cfg.sharesDataLine then (dataOutPin cfg r).getD (hostData.getD board) else hostData.getD board

/-- Core and host drive the shared line at once (70_reset_and_hazards.md R147 forbids the host this). -/
def lineFight (cfg : Config) (r : Regs) (hostData : Option Bool) : Bool :=
  cfg.sharesDataLine && (dataOutPin cfg r).isSome && hostData.isSome

/-- The recognition window shifts at every rise of two-wire IDLE (R63); at other ticks it is kept. Reads the registers
before the tick (`r`), writes `w`. -/
def shiftWindow (cfg : Config) (r w : Regs) : Regs :=
  if !cfg.hasFrameSelect && r.proto == .idle && rise r then { w with window := shl1 r.window (din r) } else w

end Sys2Proof.Machine
end

