-- ==== Sys2Proof/Machine/Tick.lean ====
section
/-! DEFINITION. One local clock tick: of the core (42_protocol_fsm.md R71, the spec's `step(cfg, s, in)`, 00_scope.md
R6) and of the whole system of core, host pins and target. -/

namespace Sys2Proof.Machine

/-- The rule of the current state (R71 item 6). -/
def stateRule (cfg : Config) (r : Regs) (i : Inputs) (w : Regs) : Regs :=
  match r.proto with
  | .idle => ruleIdle cfg r w
  | .getHeader => ruleGetHeader r w
  | .readAddress => ruleReadAddress r w
  | .readValue => ruleReadValue r w
  | .busWrite => ruleBusWrite i w
  | .busRead => ruleBusRead i w
  | .waitByteBoundary => ruleWaitByteBoundary r w
  | .writeWrResponse => ruleWriteWrResponse r w
  | .writeResponse => ruleWriteResponse r w
  | .writeValue => ruleWriteValue r w
  | .endFrame => ruleEnd cfg w

/-- One tick of the core (R71): `rst` first, then the synchronizers, frame reset, the window and the bit counter, and
the rule of the state with the turnaround. Every signal is read from the registers before the tick (`r`). -/
def coreTick (cfg : Config) (r : Regs) (i : Inputs) : Regs :=
  if i.rst then coreReset cfg r
  else if frameReset cfg r then frameClear cfg (recover cfg r i)
  else stateRule cfg r i (turnaround r (countBit cfg r (shiftWindow cfg r (recover cfg r i))))

/-- The events the rules of a tick raise (60_exceptions.md R115, R117, R120; 70_reset_and_hazards.md R141). E3, E4 and
E5 are conditions that no rule raises (log entry 15). -/
def raisedEvents (cfg : Config) (r : Regs) (i : Inputs) : List Event :=
  if i.rst then [.coreReset]
  else if frameReset cfg r then
    if r.proto == .idle || r.proto == .endFrame then [] else [.frameCancel]
  else match r.proto with
    | .getHeader =>
      let c := shl1 r.command (din r)
      if rise r && r.cnt + 1#8 == 8#8 && c != 0x00#8 && c != 0x01#8 then [.framingAbort c] else []
    | .busWrite => if i.busErr then [.busError] else []
    | .busRead => if i.busErr then [.busError] else []
    | .idle => []
    | .readAddress => []
    | .readValue => []
    | .waitByteBoundary => []
    | .writeWrResponse => []
    | .writeResponse => []
    | .writeValue => []
    | .endFrame => []

/-- The conditions of 60_exceptions.md that hold at a tick without being raised: E3 in two-wire IDLE without a match
(R118), E5 while a request stands without an answer (R119). R119 names E5 for a target that never answers, which is a
property of a whole run: that the condition is reported at EVERY unanswered tick, also of a target that answers later, is the
model's choice (DESIGN CHOICE, log entry 26). -/
def standingConditions (cfg : Config) (r : Regs) (i : Inputs) : List Event :=
  if i.rst then []
  else if !cfg.hasFrameSelect && r.proto == .idle && !syncMatch cfg r then [.noSync]
  else if busCyc r && !frameReset cfg r && !(i.busAck || i.busErr) then [.busHang]
  else []

/-- The core's inputs of a tick (10_state.md R22) from the host's pins and the target. -/
def inputsOf (rst : Bool) (p : Pins) (s : State) : Inputs where
  rawClk := p.sclk
  rawCsn := p.csn
  rawDin := dataInPin s.cfg s.core p.data s.board.level
  rst := rst
  busAck := s.target.ack s.core
  busErr := s.target.err s.core
  busDatR := s.target.data s.core s.draws

/-- A frame reset or `rst` at this tick cancels a request that stands (44_bus_adapter.md R94). -/
def cutsShort (rst : Bool) (s : State) : Bool := rst || frameReset s.cfg s.core

/-- The host at a tick: it holds these pins, and at its own rising edge samples the data-out pin (30_encoding.md R41,
95_test_vectors.md section 0). -/
def hostTick (p : Pins) (s : State) : HostAgent :=
  { s.host with
    pins := p
    rx := if p.sclk && !s.host.pins.sclk then dataOutPin s.cfg s.core :: s.host.rx else s.host.rx
    fight := s.host.fight || lineFight s.cfg s.core p.data }

/-- One tick of the whole system (00_scope.md R6, R8). -/
def sysTick (rst : Bool) (p : Pins) (s : State) : State where
  cfg := s.cfg
  core := coreTick s.cfg s.core (inputsOf rst p s)
  target := s.target.tick s.core (cutsShort rst s) s.draws
  host := hostTick p s
  board := s.board.advance 1
  draws := if s.target.ends s.core (cutsShort rst s) then s.draws + 1 else s.draws
  events := raisedEvents s.cfg s.core (inputsOf rst p s) ++ s.events

end Sys2Proof.Machine
end

