-- ==== Sys2Proof/Machine/HostDriver.lean ====
section
/-! DEFINITION. The host agent's frame driver (parameter `HOST`, D31): how a host that keeps the duties of
70_reset_and_hazards.md R145 to R148 clocks a frame, with the timing of 95_test_vectors.md section 0 (DESIGN CHOICE, log
entry 4). A host that behaves otherwise is scripted tick by tick. -/

namespace Sys2Proof.Machine

/-- Ticks of each low phase and each high phase of the serial clock (section 0; R145 asks for at least 4 and 2). -/
def lowTicks : Nat := 4
def highTicks : Nat := 4

/-- Ticks frame-select is high before a frame, and low before its first bit's low phase (section 0; R145 asks for at
least 2 and 2). -/
def releaseTicks : Nat := 3
def selectTicks : Nat := 3

/-- Hold the pins for `n` ticks. -/
def hold : Nat → Pins → State → State
  | 0, _, s => s
  | n + 1, p, s => hold n p (sysTick false p s)

/-- Clock one bit: the data set at the first tick of the low phase and kept through the high phase (R146); `data` none
is a released line. -/
def clockBit (data : Option Bool) (s : State) : State :=
  hold highTicks { sclk := true, csn := s.host.pins.csn, data := data }
    (hold lowTicks { sclk := false, csn := s.host.pins.csn, data := data } s)

/-- Clock a list of bits on the data line. -/
def clockBits : List Bool → State → State
  | [], s => s
  | b :: bs, s => clockBits bs (clockBit (some b) s)

/-- Clock `n` bits with the data line released (R147). -/
def clockReleased : Nat → State → State
  | 0, s => s
  | n + 1, s => clockReleased n (clockBit none s)

/-- The serial clock goes back to its idle low level, the data line released (R144, R147). -/
def restLow (s : State) : State :=
  hold lowTicks { sclk := false, csn := s.host.pins.csn, data := none } s

/-- The host forgets what it sampled: a new frame begins, response bits are numbered from its frame bit 0 (R41). -/
def clearSamples (s : State) : State := { s with host := { s.host with rx := [] } }

/-- The host releases frame-select, the end of any frame before (R124), the clock low and the data line released. -/
def releaseSelect (s : State) : State := hold releaseTicks { sclk := false, csn := true, data := none } s

/-- Frame start on the host's side: with a frame-select line, release it (the end of any frame before, R124) and assert
it; in two-wire mode there is nothing to do before the first bit. -/
def openFrame (s : State) : State :=
  clearSamples
    (if s.cfg.hasFrameSelect then
      hold selectTicks { sclk := false, csn := false, data := none }
        (releaseSelect s)
    else s)

/-- The level the host has read for its `j`-th newest sample: a pulled line shows the pull's level, and the reading of a
floating line is a free value (R59, log entry 12). -/
def sampleLevel (b : Board) (j : Nat) (sample : Option Bool) : Bool :=
  sample.getD (b.pull.getD (Config.floatingSample b.ticks j))

/-- The last eight samples as a byte, MSB first (R31). -/
def lastByte (s : State) : Byte :=
  (((s.host.rx.take 8).mapIdx fun j sample => sampleLevel s.board j sample).reverse).foldl shl1 0#8

/-- Read the response (R148): clock whole bytes, skip every 0xFF, and take the first other byte: after 0x01 four value
bytes follow. The host gives up after `n` bytes. -/
def awaitResponse : Nat → State → State
  | 0, s => s
  | n + 1, s =>
    let s' := clockReleased 8 s
    if lastByte s' = 0xFF#8 then awaitResponse n s'
    else if lastByte s' = 0x01#8 then clockReleased 32 s'
    else s'

/-- The request of a frame: its start and its bits. -/
def sendRequest (i : Instr) (s : State) : State := clockBits (bitsOfBytes (encode i)) (openFrame s)

/-- A whole frame that is answered: request, response, and the clock back at its idle level. Frame-select stays
asserted (log entry 17: the next frame, or the script, releases it). -/
def answeredFrame (i : Instr) (s : State) : State :=
  let s' := sendRequest i s
  restLow (awaitResponse s'.host.patience s')

/-- A whole frame that is not answered: the request, and the clock back at its idle level. -/
def silentFrame (i : Instr) (s : State) : State := restLow (sendRequest i s)

end Sys2Proof.Machine
end

