-- ==== Sys2Proof/Machine/Frames.lean ====
section
/-! DEFINITION. The meaning of each frame command (43_commands.md R84 to R87). R84 to R87 describe a whole frame as "the
composition of the state rules", which "alone decide every tick": a meaning is what the system does over the ticks of the
command's frame. -/

namespace Sys2Proof.Machine

/-- WR (R84): the 72 request bits, the bus write, the response `F^n 00`. -/
def execWr (addr val : Word) (s : State) : Host.Outcome State Fault Refusal :=
  .next (answeredFrame (.wr addr val) s)

/-- RD (R85): the 40 request bits, the bus read, the response `F^n 01 V3 V2 V1 V0`. -/
def execRd (addr : Word) (s : State) : Host.Outcome State Fault Refusal :=
  .next (answeredFrame (.rd addr) s)

/-- ABORT, header 0x02..0x03 (R86): eight request bits, no bus access, no response. -/
def execAbort02 (h : Byte) (s : State) : Host.Outcome State Fault Refusal :=
  .next (silentFrame (.abort02 h) s)

/-- ABORT, header 0x04..0x07 (R86). -/
def execAbort04 (h : Byte) (s : State) : Host.Outcome State Fault Refusal :=
  .next (silentFrame (.abort04 h) s)

/-- ABORT, header 0x08..0x0F (R86). -/
def execAbort08 (h : Byte) (s : State) : Host.Outcome State Fault Refusal :=
  .next (silentFrame (.abort08 h) s)

/-- ABORT, header 0x10..0x1F (R86). -/
def execAbort10 (h : Byte) (s : State) : Host.Outcome State Fault Refusal :=
  .next (silentFrame (.abort10 h) s)

/-- ABORT, header 0x20..0x3F (R86). -/
def execAbort20 (h : Byte) (s : State) : Host.Outcome State Fault Refusal :=
  .next (silentFrame (.abort20 h) s)

/-- ABORT, header 0x40..0x7F (R86). -/
def execAbort40 (h : Byte) (s : State) : Host.Outcome State Fault Refusal :=
  .next (silentFrame (.abort40 h) s)

/-- ABORT, header 0x80..0xFF (R86). -/
def execAbort80 (h : Byte) (s : State) : Host.Outcome State Fault Refusal :=
  .next (silentFrame (.abort80 h) s)

/-- SYNC (R87): the byte 0xAB, matched by the sync detector in two-wire IDLE. Elsewhere the same byte is a header and an
ABORT (30_encoding.md R46), or bits of the frame in progress (42_protocol_fsm.md R82). -/
def execSync (s : State) : Host.Outcome State Fault Refusal :=
  .next (silentFrame .sync s)

end Sys2Proof.Machine
end

