-- ==== Sys2Proof/Machine/Dispatch.lean ====
section
/-! DEFINITION. The meaning of every instruction, one arm per constructor. -/

namespace Sys2Proof.Machine

def exec (i : Instr) (s : State) : Host.Outcome State Fault Refusal :=
  match i with
  | .wr addr val => Sys2Proof.Machine.execWr addr val s
  | .rd addr => Sys2Proof.Machine.execRd addr s
  | .abort02 h => Sys2Proof.Machine.execAbort02 h s
  | .abort04 h => Sys2Proof.Machine.execAbort04 h s
  | .abort08 h => Sys2Proof.Machine.execAbort08 h s
  | .abort10 h => Sys2Proof.Machine.execAbort10 h s
  | .abort20 h => Sys2Proof.Machine.execAbort20 h s
  | .abort40 h => Sys2Proof.Machine.execAbort40 h s
  | .abort80 h => Sys2Proof.Machine.execAbort80 h s
  | .sync => Sys2Proof.Machine.execSync s

end Sys2Proof.Machine
end

