-- ==== Sys2Proof/Machine/Fetch.lean ====
section
/-! DEFINITION. How the next instruction comes from the host's script: what remains of a frame's bytes, what happens to bytes
that are no whole instruction, and the loading of one frame. Nothing here lets the host see a register (10_state.md R24). -/

namespace Sys2Proof.Machine

/-- Where a two-wire host's stream stands after an instruction it has sent (30_encoding.md R46): at the header after a sync
byte, and where the next sync byte is due after a frame. -/
def positionAfter (i : Instr) : Position :=
  match i.position with
  | .preamble => .header
  | .header => .preamble

/-- The same state with another script. -/
def withScript (script : List Stimulus) (s : State) : State := { s with host := { s.host with script := script } }

/-- What remains of a frame's bytes after its first instruction `i`: with a frame-select line they are further bits of the
same frame (70_reset_and_hazards.md R150), in two-wire mode a new instruction may begin there (log entry 22). -/
def pushRest (cfg : Config) (i : Instr) (rest : List Byte) (script : List Stimulus) : List Stimulus :=
  match rest with
  | [] => script
  | _ :: _ => if cfg.hasFrameSelect then .bits (bitsOfBytes rest) :: script else .frame (positionAfter i) rest :: script

/-- Bytes that are no whole instruction are clocked all the same, frame-select asserted as for any frame: a frame cut
short (95_test_vectors.md P4), or bits the sync detector scans (70_reset_and_hazards.md R149). -/
def rawFrame (bytes : List Byte) (s : State) : State := restLow (clockBits (bitsOfBytes bytes) (openFrame s))

/-- The core ready to take the bytes of a frame at their position: SYNC needs a two-wire instance in IDLE (43_commands.md
R87); any other frame in two-wire mode needs the sync byte just matched (42_protocol_fsm.md R75). With a frame-select line
nothing is needed, since the frame driver asserts it. -/
def readyFor (bytes : List Byte) (s : State) : State :=
  if tablePosition bytes = .preamble then
    { s with cfg := { s.cfg with wires := .two }, core := { s.core with proto := .idle } }
  else if s.cfg.hasFrameSelect then s
  else { s with core := { frameClear s.cfg s.core with proto := .getHeader } }

end Sys2Proof.Machine
end

