-- ==== Sys2Proof/Machine/Step.lean ====
section
/-! DEFINITION. One step: the next item of the host's script. With nothing scripted, one tick of the local clock. -/

namespace Sys2Proof.Machine

/-- One step of the system. A `tick` item is one local clock tick (00_scope.md R6) with the pins and `rst` it gives; a
`frame` item is decoded at the position the host gives and the decoded instruction runs to the end of its frame; `bits` and
`clocks` items clock bits without a frame start. With an empty script the host holds its pins for one tick (log entry 3). -/
def step (s : State) : Host.Outcome State Fault Refusal :=
  match s.host.script with
  | [] => .next (sysTick false s.host.pins s)
  | .tick rst p :: script => .next (sysTick rst p (withScript script s))
  | .bits bs :: script => .next (restLow (clockBits bs (withScript script s)))
  | .clocks n :: script => .next (restLow (clockReleased n (withScript script s)))
  | .frame pos bytes :: script =>
    match decode pos bytes with
    | .ok (i, rest) => exec i (withScript (pushRest s.cfg i rest script) s)
    | .error _ => .next (rawFrame bytes (withScript script s))

/-- The state with one instruction where the next step takes it: at the head of the host's script, the link ready for it
(log entries 3 and 18). -/
def State.withFetchWord (s : State) (nbits w : Nat) : State :=
  readyFor (tableFrame nbits w)
    (withScript (.frame (tablePosition (tableFrame nbits w)) (tableFrame nbits w) :: s.host.script) s)

end Sys2Proof.Machine
end

