-- ==== Sys2Proof/Safety.lean ====
section
/-! DEFINITION. The terms claims are made in: the frame invariant of the registers, when the link is at rest or a frame is
open, and what a whole frame leaves behind (43_commands.md R84 to R87). -/

namespace Sys2Proof.Machine

/-! ## The invariant -/

/-- The header a frame of this direction has (43_commands.md R84, R85). -/
def headerOf (isWrite : Bool) : Byte := if isWrite then 0x00#8 else 0x01#8

/-- What the frame registers hold in each protocol state: nothing of an earlier frame (42_protocol_fsm.md R83), only the
bits assembled so far (R77, R78, R80), and the drive registers of 45_response_encoder.md R99 to R108. -/
def frameInv (r : Regs) : Bool :=
  match r.proto with
  | .idle => r.command == 0#8 && r.address == 0#32 && r.value == 0#32 && !r.isWrite && r.cnt == 0#8 && r.woff == 0#5
      && !r.turned && r.dout
  | .getHeader => decide (r.cnt.toNat < 8) && decide (r.command.toNat < 2 ^ r.cnt.toNat) && r.address == 0#32
      && r.value == 0#32 && !r.isWrite && r.woff == 0#5 && !r.turned && r.dout
  | .readAddress => decide (8 ≤ r.cnt.toNat) && decide (r.cnt.toNat < 40) && r.command == headerOf r.isWrite
      && decide (r.address.toNat < 2 ^ (r.cnt.toNat - 8)) && r.value == 0#32 && r.woff == 0#5 && !r.turned && r.dout
  | .readValue => decide (40 ≤ r.cnt.toNat) && decide (r.cnt.toNat < 72) && r.isWrite && r.command == 0#8
      && decide (r.value.toNat < 2 ^ (r.cnt.toNat - 40)) && r.woff == 0#5 && !r.turned && r.dout
  | .busWrite => r.isWrite && r.command == 0#8 && r.woff == 0#5 && r.dout
  | .busRead => !r.isWrite && r.command == 1#8 && r.value == 0#32 && r.woff == 0#5 && r.dout
  | .waitByteBoundary => r.command == headerOf r.isWrite && r.woff == 0#5 && r.dout
  | .writeWrResponse => r.isWrite && r.command == 0#8 && r.woff == 0#5 && r.turned && !r.dout
  | .writeResponse => !r.isWrite && r.command == 1#8 && r.woff == 0#5 && r.turned
  | .writeValue => !r.isWrite && r.command == 1#8 && r.turned && r.dout == r.value.getLsbD r.woff.toNat
  | .endFrame => r.woff == 0#5 &&
      ((!r.turned && r.dout && decide (2 ≤ r.command.toNat) && r.address == 0#32 && r.value == 0#32 && !r.isWrite)
        || (r.turned && !r.dout && r.command == headerOf r.isWrite))

/-- The registers an instance does not have hold their reset values (10_state.md R9; log entry 2). -/
def absentAtReset (cfg : Config) (r : Regs) : Bool :=
  if cfg.hasFrameSelect then r.window == 0#8 else r.csnS1 && r.csnS2

/-- The model's invariant: the frame registers fit the protocol state, absent registers are untouched, the target's
memory is canonical, and no age is kept for a request that does not stand. -/
def State.inv (s : State) : Bool :=
  frameInv s.core && absentAtReset s.cfg s.core && Memory.wf s.target.mem && (busCyc s.core || s.target.waited == 0)

/-! ## Where a frame may start -/

/-- The synchronized serial clock has settled at its idle low level. -/
def clockLow (r : Regs) : Bool := !r.clkS1 && !r.clkS2 && !r.clkPrev

/-- With a frame-select line: the clock is low and frame-select steady, and the core holds END of the frame before or is
in IDLE with frame-select inactive (70_reset_and_hazards.md R144, R150). -/
def linkAtRest (s : State) : Bool :=
  s.cfg.hasFrameSelect && clockLow s.core && s.core.csnS1 == s.core.csnS2 &&
    (s.core.proto == .endFrame || (s.core.proto == .idle && s.core.csnS2))

/-- Two-wire IDLE with the clock low, the frame registers clear, and a window that the first bit of a sync byte does not
complete to 0xAB (43_commands.md R87: the byte's one-bit border is its only self-overlap). -/
def awaitingSync (s : State) : Bool :=
  !s.cfg.hasFrameSelect && clockLow s.core && s.core.proto == .idle && frameInv s.core
    && s.core.window.extractLsb' 0 7 != 0x55#7

/-- Two-wire, the sync byte just matched: GET_HEADER with no frame bit taken yet (42_protocol_fsm.md R75). -/
def frameOpen (s : State) : Bool :=
  !s.cfg.hasFrameSelect && clockLow s.core && s.core.proto == .getHeader && s.core.cnt == 0#8 && frameInv s.core

/-! ## What a frame leaves behind -/

/-- The number of fill bytes for an answer at the `d`-th tick of the request, under the frame driver's timing
(45_response_encoder.md R111; 95_test_vectors.md section 2.5: the ceiling of (d - 2) / 64). -/
def fillBytes (d : Nat) : Nat := (d + 61) / 64

/-- The sample of a pin while the core requests no drive: high-impedance, but the level 1 on a four-wire output without
a tri-state buffer (41_wire_mode.md R60; 45_response_encoder.md R104). -/
def idleSample (cfg : Config) : Option Bool := adapterPin cfg false true

/-- What the host has sampled, first frame bit first: `quiet` undriven bits of the request, `n` fill bytes of ones, and
the response bytes (30_encoding.md R47). -/
def samples (cfg : Config) (quiet n : Nat) (response : List Byte) : List (Option Bool) :=
  List.replicate quiet (idleSample cfg) ++ List.replicate (8 * n) (some true) ++ (bitsOfBytes response).map some

/-- The word a read latches (44_bus_adapter.md R91). -/
def latchedWord (s : State) (addr : Word) : Word :=
  s.target.current.data.getD
    (if s.target.current.kind = .ack then readWord s.target.mem (wordAddress addr) else Config.errorReadData s.draws)

/-- The target performs the write it answers. -/
def writePerformed (s : State) : Bool :=
  s.target.current.performed.getD
    (if s.target.current.kind = .ack then true else Config.errorWritePerformed s.draws)

/-- The target's memory after a write of `val` that it answers. -/
def memoryAfterWrite (s : State) (addr val : Word) : List Host.Cell :=
  if writePerformed s then writeWord s.target.mem (wordAddress addr) val else s.target.mem

/-- The events of an answered frame: BusError when the target raises `bus_err` (60_exceptions.md R117). -/
def answerEvents (s : State) : List Event := if s.target.current.kind = .ack then [] else [.busError]

/-- The registers at rest after a frame: the clock stages low; with a frame-select line the frame registers as given and
frame-select still asserted, in two-wire mode everything cleared by END (45_response_encoder.md R109, R110). The data
stages hold whatever the line showed last. -/
def coreAfter (s t : State) (held : Regs) : Prop :=
  t.core =
    if s.cfg.hasFrameSelect then
      { held with
        proto := .endFrame, clkS1 := false, clkS2 := false, clkPrev := false, csnS1 := false, csnS2 := false
        window := s.core.window, dinS1 := t.core.dinS1, dinS2 := t.core.dinS2 }
    else { Regs.reset with csnS1 := s.core.csnS1, csnS2 := s.core.csnS2, dinS1 := t.core.dinS1, dinS2 := t.core.dinS2 }

/-- The environment after a frame: the construction parameters, the host's script, its patience, and the record of line
fights (no fight happens) are as before; the board's line has moved on by the frame's ticks and nothing else; the host holds the clock low with its data line released, and
frame-select, where there is one, asserted. -/
def environmentKept (s t : State) : Prop :=
  t.cfg = s.cfg ∧ t.host.script = s.host.script ∧ (∃ n, t.board = s.board.advance n) ∧ t.host.patience = s.host.patience
    ∧ t.host.fight = s.host.fight
    ∧ t.host.pins =
        { sclk := false, csn := if s.cfg.hasFrameSelect then false else s.host.pins.csn, data := none }

/-- A whole answered WR frame took `s` to `t` (43_commands.md R84). Its frame: no byte outside the word at `addr[31:2]`
changes. -/
def WriteFrameDone (s t : State) (addr val : Word) (n : Nat) : Prop :=
  coreAfter s t { Regs.reset with
    isWrite := true, address := addr, value := val, cnt := BitVec.ofNat 8 (80 + 8 * n), turned := true, dout := false }
  ∧ t.target = { mem := memoryAfterWrite s addr val, plan := s.target.plan.tail, waited := 0 }
  ∧ (∀ a, (∀ lane, lane < 4 → a ≠ laneAddress (wordAddress addr) lane) →
      readByte a t.target.mem = readByte a s.target.mem)
  ∧ t.host.rx.reverse = samples s.cfg 72 n [0x00#8]
  ∧ t.draws = s.draws + 1 ∧ t.events = answerEvents s ++ s.events ∧ environmentKept s t

/-- A whole answered RD frame took `s` to `t` (43_commands.md R85). -/
def ReadFrameDone (s t : State) (addr : Word) (n : Nat) : Prop :=
  coreAfter s t { Regs.reset with
    command := 0x01#8, address := addr, value := latchedWord s addr, cnt := BitVec.ofNat 8 (80 + 8 * n)
    turned := true, dout := false }
  ∧ t.target = { mem := s.target.mem, plan := s.target.plan.tail, waited := 0 }
  ∧ t.host.rx.reverse = samples s.cfg 40 n (0x01#8 :: bytesOfWord (latchedWord s addr))
  ∧ t.draws = s.draws + 1 ∧ t.events = answerEvents s ++ s.events ∧ environmentKept s t

/-- A whole ABORT frame with header `h` took `s` to `t` (43_commands.md R86): no bus access, no response. -/
def AbortFrameDone (s t : State) (h : Byte) : Prop :=
  coreAfter s t { Regs.reset with command := h, cnt := 8#8 }
  ∧ t.target = { s.target with waited := 0 }
  ∧ t.host.rx.reverse = samples s.cfg 8 0 []
  ∧ t.draws = s.draws ∧ t.events = .framingAbort h :: s.events ∧ environmentKept s t

/-- A sync byte took `s` to `t` (43_commands.md R87): the frame is open, no frame bit taken. -/
def SyncDone (s t : State) : Prop :=
  t.core =
    { Regs.reset with
      proto := .getHeader, window := syncByte, csnS1 := s.core.csnS1, csnS2 := s.core.csnS2
      dinS1 := t.core.dinS1, dinS2 := t.core.dinS2 }
  ∧ t.target = { s.target with waited := 0 }
  ∧ t.host.rx.reverse = samples s.cfg 8 0 []
  ∧ t.draws = s.draws ∧ t.events = s.events ∧ environmentKept s t

/-- A state from which a WR, RD or ABORT frame can run in its wire mode. -/
def readyForFrame (s : State) : Bool := linkAtRest s || frameOpen s

/-- The present plan answers at tick `d` of the request, and the host's patience reaches past the fill bytes. -/
def answersWithin (s : State) (d : Nat) : Prop :=
  s.target.current.delay = some d ∧ fillBytes d < s.host.patience

/-! ## A frame that the next one's start ends -/

/-- The target performs a write that is cut short: the plan's choice, or else a draw (20_memory.md R36). -/
def cutWritePerformed (s : State) : Bool := s.target.current.performed.getD (Config.cutShortPerformed s.draws)

/-- A request that stands when the host releases frame-select is answered before the core sees the release, two ticks
later (40_signal_recovery.md R55, 42_protocol_fsm.md R73). -/
def answeredBeforeRelease (s : State) : Bool :=
  busCyc s.core && !s.core.csnS2 && (match s.target.current.delay with
    | some d => decide (d ≤ s.target.waited + 1)
    | none => false)

/-- The target's memory after a release: a standing write is answered or cut short, anything else changes nothing. -/
def memoryAfterRelease (s : State) : List Host.Cell :=
  if busWe s.core && (if answeredBeforeRelease s then writePerformed s else cutWritePerformed s) then
    writeWord s.target.mem (wordAddress s.core.address) s.core.value
  else s.target.mem

/-- The release is a FrameCancel (60_exceptions.md R120): the core is in none of IDLE and END when it sees it. IDLE with
frame-select still asserted has become GET_HEADER by then (42_protocol_fsm.md R74). -/
def releaseCancels (s : State) : Bool :=
  s.core.proto != .endFrame && (s.core.proto != .idle || !s.core.csnS2)

/-- The frame registers after FrameClear, in this protocol state and with frame-select seen at this level: the window is
the one from before, the data stages hold what the line showed last (42_protocol_fsm.md R72). -/
def clearedCore (s t : State) (p : Proto) (level : Bool) : Prop :=
  t.core = { Regs.reset with
    proto := p, csnS1 := level, csnS2 := level, window := s.core.window, dinS1 := t.core.dinS1, dinS2 := t.core.dinS2 }

/-- The host has released frame-select, from `s` to `t`: the frame registers are clear, a standing request has been
answered or cut short, the events are raised; nothing else has changed. -/
def ReleaseDone (s t : State) : Prop :=
  clearedCore s t .idle true
  ∧ t.target =
      { mem := memoryAfterRelease s, waited := 0
        plan := if busCyc s.core then s.target.plan.tail else s.target.plan }
  ∧ t.draws = (if busCyc s.core then s.draws + 1 else s.draws)
  ∧ t.events = (if releaseCancels s then [.frameCancel] else []) ++
      (if answeredBeforeRelease s then answerEvents s else []) ++ s.events
  ∧ t.cfg = s.cfg ∧ t.host = { s.host with pins := { sclk := false, csn := true, data := none } }
  ∧ t.board = s.board.advance releaseTicks

end Sys2Proof.Machine
end

