-- ==== Sys2Proof/Certificates/Slice0/Obligations.lean ====
section
/-! DEFINITION. The statements for the provers, one `Obligations.<Name>` each; OBLIGATIONS.json says which rule each
formalises. Statements about one tick of the core hold for every register file, reachable or not, unless a premise names
the invariant. -/

open Sys2Proof Sys2Proof.Machine

/-! ## Encoding -/

/-- 30_encoding.md: decoding an encoded well-formed instruction at its position gives it back, and leaves the bytes after
it. -/
def Obligations.DecodeEncodeRoundTrip : Prop :=
  ∀ (i : Instr) (rest : List Byte), i.wellFormed = true → decode i.position (encode i ++ rest) = .ok (i, rest)

/-- 30_encoding.md: what the decoder accepts is well-formed, stands at the position it was read at, and its encoding is
the bytes it was read from. -/
def Obligations.EncodeDecodeRoundTrip : Prop :=
  ∀ (pos : Position) (bytes : List Byte) (i : Instr) (rest : List Byte), decode pos bytes = .ok (i, rest) →
    i.wellFormed = true ∧ i.position = pos ∧ encode i ++ rest = bytes

/-- 30_encoding.md section 4: every header byte selects WR, RD or ABORT, and an ABORT keeps the header. -/
def Obligations.HeaderSelectsCommand : Prop :=
  ∀ (h a3 a2 a1 a0 v3 v2 v1 v0 : Byte) (rest : List Byte),
    let tail := a3 :: a2 :: a1 :: a0 :: v3 :: v2 :: v1 :: v0 :: rest
    (h = 0x00#8 → decode .header (h :: tail) = .ok (.wr (a3 ++ a2 ++ a1 ++ a0) (v3 ++ v2 ++ v1 ++ v0), rest)) ∧
    (h = 0x01#8 → decode .header (h :: tail) = .ok (.rd (a3 ++ a2 ++ a1 ++ a0), v3 :: v2 :: v1 :: v0 :: rest)) ∧
    (2 ≤ h.toNat → ∃ i, decode .header (h :: tail) = .ok (i, tail) ∧ i.abortHeader = some h ∧ i.wellFormed = true)

/-- R44: the 72 bits of a write request, address and value most significant bit first. -/
def Obligations.WriteRequestLayout : Prop :=
  ∀ (a v : Word),
    (bitsOfBytes (encode (.wr a v))).length = 72 ∧
    (∀ k, k < 8 → (bitsOfBytes (encode (.wr a v)))[k]? = some false) ∧
    (∀ k, k < 32 → (bitsOfBytes (encode (.wr a v)))[8 + k]? = some (a.getLsbD (31 - k))) ∧
    (∀ k, k < 32 → (bitsOfBytes (encode (.wr a v)))[40 + k]? = some (v.getLsbD (31 - k))) ∧
    encode (.wr a v) =
      [0x00#8, a.extractLsb' 24 8, a.extractLsb' 16 8, a.extractLsb' 8 8, a.extractLsb' 0 8,
       v.extractLsb' 24 8, v.extractLsb' 16 8, v.extractLsb' 8 8, v.extractLsb' 0 8]

/-- R45: the 40 bits of a read request. -/
def Obligations.ReadRequestLayout : Prop :=
  ∀ (a : Word),
    (bitsOfBytes (encode (.rd a))).length = 40 ∧
    (∀ k, k < 8 → (bitsOfBytes (encode (.rd a)))[k]? = some (decide (k = 7))) ∧
    (∀ k, k < 32 → (bitsOfBytes (encode (.rd a)))[8 + k]? = some (a.getLsbD (31 - k))) ∧
    encode (.rd a) =
      [0x01#8, a.extractLsb' 24 8, a.extractLsb' 16 8, a.extractLsb' 8 8, a.extractLsb' 0 8]

/-- 95_test_vectors.md X7: a few written-out frames decode to the commands they stand for. -/
def Obligations.SampleFramesDecode : Prop :=
  decode .header [0x00#8, 0x40#8, 0x00#8, 0x00#8, 0x04#8, 0x12#8, 0x34#8, 0x56#8, 0x78#8]
      = .ok (.wr 0x40000004#32 0x12345678#32, []) ∧
  decode .header [0x01#8, 0x40#8, 0x00#8, 0x00#8, 0x04#8] = .ok (.rd 0x40000004#32, []) ∧
  decode .header [0x02#8] = .ok (.abort02 0x02#8, []) ∧
  decode .header [0xAB#8] = .ok (.abort80 0xAB#8, []) ∧
  decode .preamble [0xAB#8] = .ok (.sync, [])

/-! ## Configuration and reset -/

/-- R3: construction accepts the three wire modes and refuses every other value. -/
def Obligations.ConstructionRefusesOtherWires : Prop :=
  ∀ (w : Nat) (tri : Bool), Config.ofWires w tri =
    if w = 4 then some ⟨.four, tri⟩ else if w = 3 then some ⟨.three, tri⟩ else if w = 2 then some ⟨.two, tri⟩ else none

/-- 70_reset_and_hazards.md section 1 (R141): a tick with `rst` gives every register the instance has its reset value,
whatever else holds at the tick, and the outputs their values after reset. The values, the reset input and its priority are
the spec's own decisions D2, D10, D11 and D20. -/
def Obligations.ResetTickGivesResetValues : Prop :=
  ∀ (cfg : Config) (r : Regs) (i : Inputs), i.rst = true →
    let t := coreTick cfg r i
    t.clkS1 = false ∧ t.clkS2 = false ∧ t.dinS1 = false ∧ t.dinS2 = false ∧ t.clkPrev = false ∧
    (cfg.hasFrameSelect = true → t.csnS1 = true ∧ t.csnS2 = true) ∧
    t.proto = .idle ∧ t.command = 0x00#8 ∧ t.address = 0#32 ∧ t.value = 0#32 ∧ t.isWrite = false ∧ t.cnt = 0#8 ∧
    t.woff = 0#5 ∧ t.turned = false ∧ t.dout = true ∧ (cfg.hasFrameSelect = false → t.window = 0x00#8) ∧
    busOut t = { cyc := false, stb := false, we := false, adr := 0#30, datW := 0#32, sel := 0xF#4 } ∧ oe t = false

/-- 10_state.md section 1 and 70_reset_and_hazards.md section 1 at State.reset: the registers' reset values (the spec's own
decisions D2, D10, D11 and D20), and a memory in canonical form. That the window, which the four-wire instance of
State.reset does not have, stands at 0x00 is the model's choice (log entries 1 and 2), and so is the memory's form (log
entry 6); of wire mode, script and plan (log entries 1, 3 and 5) nothing is said. -/
def Obligations.ResetStateRegisters : Prop :=
  State.reset.core =
    { clkS1 := false, clkS2 := false, dinS1 := false, dinS2 := false, csnS1 := true, csnS2 := true, clkPrev := false
      proto := .idle, command := 0x00#8, address := 0#32, value := 0#32, isWrite := false, cnt := 0#8, woff := 0#5
      window := 0x00#8, turned := false, dout := true } ∧ Memory.wf State.reset.target.mem = true

/-! ## Signal recovery -/

/-- 40_signal_recovery.md R55 and R57: every synchronizer shifts by one stage and `clk_prev` takes `clk_s2` at every tick
without `rst`, in every protocol state and through a frame reset; with `rst` they take their reset values (that clause is
the spec's own decision, D2 and D20). -/
def Obligations.SynchronizersShiftEveryTick : Prop :=
  ∀ (cfg : Config) (r : Regs) (i : Inputs),
    let t := coreTick cfg r i
    (i.rst = false →
      t.clkS1 = i.rawClk ∧ t.clkS2 = r.clkS1 ∧ t.dinS1 = i.rawDin ∧ t.dinS2 = r.dinS1 ∧ t.clkPrev = r.clkS2 ∧
      (cfg.hasFrameSelect = true → t.csnS1 = i.rawCsn ∧ t.csnS2 = r.csnS1)) ∧
    (i.rst = true →
      t.clkS1 = false ∧ t.clkS2 = false ∧ t.dinS1 = false ∧ t.dinS2 = false ∧ t.clkPrev = false ∧
      (cfg.hasFrameSelect = true → t.csnS1 = true ∧ t.csnS2 = true))

/-- R58: the serial edges of a tick, never both. -/
def Obligations.EdgesAreExclusive : Prop :=
  ∀ (r : Regs),
    (rise r = true ↔ r.clkS2 = true ∧ r.clkPrev = false) ∧ (fall r = true ↔ r.clkS2 = false ∧ r.clkPrev = true) ∧
    ¬ (rise r = true ∧ fall r = true)

/-- 40_signal_recovery.md (its first rule): the raw serial levels of a tick reach the first synchronizer stages and nothing else: two ticks that differ in
them agree on every other register. -/
def Obligations.RawLevelsReachFirstStagesOnly : Prop :=
  ∀ (cfg : Config) (r : Regs) (i : Inputs) (clk csn' d : Bool),
    let t := coreTick cfg r i
    let t' := coreTick cfg r { i with rawClk := clk, rawCsn := csn', rawDin := d }
    t' = { t with clkS1 := t'.clkS1, csnS1 := t'.csnS1, dinS1 := t'.dinS1 } ∧
    raisedEvents cfg r { i with rawClk := clk, rawCsn := csn', rawDin := d } = raisedEvents cfg r i

/-- 40_signal_recovery.md R56 (no filtering), with R55, R57 and R58: a level captured at one tick is the synchronized level two ticks
later, whatever the core does in between (no `rst`), and shows as an edge exactly when the level captured before it
differs. -/
def Obligations.CapturedLevelSeenTwoTicksLater : Prop :=
  ∀ (cfg : Config) (r : Regs) (i j k : Inputs), i.rst = false → j.rst = false → k.rst = false →
    let t := coreTick cfg (coreTick cfg (coreTick cfg r i) j) k
    let u := coreTick cfg (coreTick cfg r i) j
    sclk u = i.rawClk ∧ din u = i.rawDin ∧ (cfg.hasFrameSelect = true → csn u = i.rawCsn) ∧
    rise t = (j.rawClk && !i.rawClk) ∧ fall t = (!j.rawClk && i.rawClk)

/-! ## Wire-mode adapter -/

/-- 41_wire_mode.md sections 1 and 4 (R59 to R62, R67; the pin-drive table of 95_test_vectors.md 2.2): the data-out pin by
wire mode, tri-state configuration, drive request and level; and the data-in level: on a shared line the core's own drive,
else the host's, else, in every mode, the level the board gives the line at this very tick. What `TRISTATE` means in each
mode (a four-wire output without a buffer always shows `dout`; no effect in the other modes) is the spec's own decision D22,
the undriven line as an environment input D4; what a line shows that core and host drive at once, how the board's levels
stand in State, and a released `mosi` are the model's choices (log entries 12, 13 and 23). -/
def Obligations.PinDriveByWireMode : Prop :=
  (∀ (tri : Bool) (r : Regs),
    (oe r = true → dataOutPin ⟨.four, true⟩ r = some r.dout) ∧ (oe r = false → dataOutPin ⟨.four, true⟩ r = none) ∧
    dataOutPin ⟨.four, false⟩ r = some r.dout ∧
    (oe r = true → dataOutPin ⟨.three, tri⟩ r = some r.dout) ∧ (oe r = false → dataOutPin ⟨.three, tri⟩ r = none) ∧
    dataOutPin ⟨.two, tri⟩ r = dataOutPin ⟨.three, tri⟩ r) ∧
  (∀ (s : State) (rst : Bool) (p : Pins),
    let t := sysTick rst p s
    (rst = false →
      (∀ b, p.data = some b → s.cfg.sharesDataLine = false ∨ oe s.core = false → t.core.dinS1 = b) ∧
      (s.cfg.sharesDataLine = true → oe s.core = true → t.core.dinS1 = s.core.dout) ∧
      (p.data = none → s.cfg.sharesDataLine = false ∨ oe s.core = false → t.core.dinS1 = s.board.level)) ∧
    t.board = s.board.advance 1)

/-- 41_wire_mode.md section 2: the recognition window shifts at a rise of two-wire IDLE and is kept otherwise, but where
FrameClear or `rst` clears it (that it shifts in IDLE only is the spec's own decision D9). -/
def Obligations.WindowShiftsInTwoWireIdleOnly : Prop :=
  ∀ (tri : Bool) (r : Regs) (i : Inputs), i.rst = false →
    let t := coreTick ⟨.two, tri⟩ r i
    (r.proto = .idle → rise r = true → t.window = shl1 r.window (din r)) ∧
    (r.proto = .idle → rise r = false → t.window = r.window) ∧
    (r.proto = .endFrame → t.window = 0x00#8) ∧
    (r.proto ≠ .idle → r.proto ≠ .endFrame → t.window = r.window)

/-- X6 (41_wire_mode.md section 2): in two-wire IDLE with a clear window, clocking bits of which no eight in a row are
0xAB leaves the core in IDLE, with the last bits in the window. Nothing else is touched but the clock and data stages, which
hold the last bit with the clock high, the host's pins, which show it, and its samples, one undriven level a bit; a target
without a request keeps no age, and the board moves on by the eight ticks of each bit. The ticks of a bit, and so the stages,
pins and samples, are those of the model's host driver (log entry 4), and that NoSync (E3) is not recorded as an event is the
model's reading (log entry 15). Other windows and other host timings are covered tick by tick by
WindowShiftsInTwoWireIdleOnly and IdleWaitsForSyncByte. -/
def Obligations.NoFrameWithoutSyncByte : Prop :=
  ∀ (s : State) (bs : List Bool),
    s.cfg.hasFrameSelect = false → clockLow s.core = true → s.core.proto = .idle → frameInv s.core = true →
    s.core.window = 0#8 →
    (∀ pre post, bs ≠ pre ++ bitsOfByte syncByte ++ post) →
    let t := clockBits bs s
    t.core.proto = .idle ∧ frameInv t.core = true ∧ t.core.window = bs.foldl shl1 0#8 ∧
    t = { s with
      core := { s.core with
        window := bs.foldl shl1 0#8, clkS1 := !bs.isEmpty, clkS2 := !bs.isEmpty, clkPrev := !bs.isEmpty
        dinS1 := bs.getLast?.getD s.core.dinS1, dinS2 := bs.getLast?.getD s.core.dinS2 }
      target := { s.target with waited := if bs.isEmpty then s.target.waited else 0 }
      host := { s.host with
        pins := (bs.getLast?.map fun b => { sclk := true, csn := s.host.pins.csn, data := some b }).getD s.host.pins
        rx := List.replicate bs.length none ++ s.host.rx }
      board := s.board.advance (8 * bs.length) }

/-! ## Protocol state machine -/

/-- 42_protocol_fsm.md section 3: a frame reset does FrameClear and nothing else but the synchronizers, in every protocol
state: no bit is sampled, no edge counted, no answer latched (which registers FrameClear clears is the spec's own decision
D10). -/
def Obligations.FrameResetClearsFrame : Prop :=
  ∀ (cfg : Config) (r : Regs) (i : Inputs), cfg.hasFrameSelect = true → r.csnS2 = true → i.rst = false →
    let t := coreTick cfg r i
    t.proto = .idle ∧ t.command = 0x00#8 ∧ t.address = 0#32 ∧ t.value = 0#32 ∧ t.isWrite = false ∧ t.cnt = 0#8 ∧
    t.woff = 0#5 ∧ t.turned = false ∧ t.dout = true ∧ t.window = r.window ∧
    t.clkS1 = i.rawClk ∧ t.clkS2 = r.clkS1 ∧ t.dinS1 = i.rawDin ∧ t.dinS2 = r.dinS1 ∧ t.csnS1 = i.rawCsn ∧
    t.csnS2 = r.csnS1 ∧ t.clkPrev = r.clkS2

/-- 60_exceptions.md section 1 and 70_reset_and_hazards.md section 1: `rst` raises CoreReset alone; a frame-select release raises
FrameCancel in every state but IDLE and END, and hides every other event of the tick. -/
def Obligations.EventsOfResetAndRelease : Prop :=
  ∀ (cfg : Config) (r : Regs) (i : Inputs),
    (i.rst = true → raisedEvents cfg r i = [.coreReset]) ∧
    (i.rst = false → cfg.hasFrameSelect = true → r.csnS2 = true →
      ((r.proto = .idle ∨ r.proto = .endFrame) → raisedEvents cfg r i = []) ∧
      (r.proto ≠ .idle → r.proto ≠ .endFrame → raisedEvents cfg r i = [.frameCancel]))

/-- 42_protocol_fsm.md section 1: the rows of the transition table for a tick without `rst` and without frame reset: in
these circumstances the state becomes the one named, and `is_write` the value given. -/
inductive TableRow (cfg : Config) (r : Regs) (i : Inputs) : Proto → Bool → Prop where
  | start : r.proto = .idle → cfg.hasFrameSelect = true → TableRow cfg r i .getHeader r.isWrite
  | startTwoWire : r.proto = .idle → syncMatch cfg r = true → TableRow cfg r i .getHeader r.isWrite
  | write : r.proto = .getHeader → rise r = true → r.cnt + 1#8 = 8#8 → shl1 r.command (din r) = 0x00#8 →
      TableRow cfg r i .readAddress true
  | read : r.proto = .getHeader → rise r = true → r.cnt + 1#8 = 8#8 → shl1 r.command (din r) = 0x01#8 →
      TableRow cfg r i .readAddress false
  | abort : r.proto = .getHeader → rise r = true → r.cnt + 1#8 = 8#8 → 2 ≤ (shl1 r.command (din r)).toNat →
      TableRow cfg r i .endFrame r.isWrite
  | toValue : r.proto = .readAddress → rise r = true → r.cnt + 1#8 = 40#8 → r.isWrite = true →
      TableRow cfg r i .readValue r.isWrite
  | toBusRead : r.proto = .readAddress → rise r = true → r.cnt + 1#8 = 40#8 → r.isWrite = false →
      TableRow cfg r i .busRead r.isWrite
  | toBusWrite : r.proto = .readValue → rise r = true → r.cnt + 1#8 = 72#8 → TableRow cfg r i .busWrite r.isWrite
  | answered : r.proto = .busWrite ∨ r.proto = .busRead → i.busAck = true ∨ i.busErr = true →
      TableRow cfg r i .waitByteBoundary r.isWrite
  | respondWrite : r.proto = .waitByteBoundary → fall r = true → r.cnt.toNat % 8 = 0 → r.isWrite = true →
      TableRow cfg r i .writeWrResponse r.isWrite
  | respondRead : r.proto = .waitByteBoundary → fall r = true → r.cnt.toNat % 8 = 0 → r.isWrite = false →
      TableRow cfg r i .writeResponse r.isWrite
  | acknowledged : r.proto = .writeWrResponse → fall r = true → r.cnt.toNat % 8 = 0 →
      TableRow cfg r i .endFrame r.isWrite
  | headerSent : r.proto = .writeResponse → fall r = true → r.cnt.toNat % 8 = 0 →
      TableRow cfg r i .writeValue r.isWrite
  | valueSent : r.proto = .writeValue → fall r = true → r.woff = 0#5 → TableRow cfg r i .endFrame r.isWrite
  | rearm : r.proto = .endFrame → cfg.hasFrameSelect = false → TableRow cfg r i .idle false

/-- R70 (42_protocol_fsm.md section 1): "Every transition of the machine is in this table and nowhere else; a state not named in
a row's from column for a condition keeps its state", at every tick; and the initial state is IDLE. -/
def Obligations.TransitionsAreTheTable : Prop :=
  Regs.reset.proto = .idle ∧
  ∀ (cfg : Config) (r : Regs) (i : Inputs),
    let t := coreTick cfg r i
    (i.rst = true → t.proto = .idle ∧ t.isWrite = false) ∧
    (i.rst = false → frameReset cfg r = true → t.proto = .idle ∧ t.isWrite = false) ∧
    (i.rst = false → frameReset cfg r = false →
      (∀ q w, TableRow cfg r i q w → t.proto = q ∧ t.isWrite = w) ∧
      ((∀ q w, ¬ TableRow cfg r i q w) → t.proto = r.proto ∧ t.isWrite = r.isWrite))

/-- 42_protocol_fsm.md section 4: IDLE with frame-select asserted starts the frame, and takes a bit that rises in the same
tick (that clause is the spec's own decision D7). -/
def Obligations.IdleStartsFrameWhenSelected : Prop :=
  ∀ (cfg : Config) (r : Regs) (i : Inputs), cfg.hasFrameSelect = true → i.rst = false → r.csnS2 = false →
    r.proto = .idle →
    coreTick cfg r i = { recover cfg r i with
      proto := .getHeader
      command := if rise r then shl1 r.command (din r) else r.command
      cnt := if rise r then r.cnt + 1#8 else r.cnt } ∧ raisedEvents cfg r i = []

/-- R75, with the window of 41_wire_mode.md section 2: two-wire IDLE watches for the sync byte, and starts a
frame with a zero counter at the rise that completes it. -/
def Obligations.IdleWaitsForSyncByte : Prop :=
  ∀ (tri : Bool) (r : Regs) (i : Inputs), i.rst = false → r.proto = .idle →
    coreTick ⟨.two, tri⟩ r i =
      (if rise r = false then recover ⟨.two, tri⟩ r i
       else if shl1 r.window (din r) = 0xAB#8 then
        { recover ⟨.two, tri⟩ r i with window := 0xAB#8, proto := .getHeader, command := 0x00#8, cnt := 0x00#8 }
       else { recover ⟨.two, tri⟩ r i with window := shl1 r.window (din r) }) ∧
    raisedEvents ⟨.two, tri⟩ r i = []

/-- 42_protocol_fsm.md section 5: GET_HEADER shifts a bit at each rise and decides at the eighth (in the same tick: the
spec's own decision D6); a header above 0x01 goes to END and raises FramingAbort. -/
def Obligations.HeaderBitsAndDecision : Prop :=
  ∀ (cfg : Config) (r : Regs) (i : Inputs), i.rst = false → frameReset cfg r = false → r.proto = .getHeader →
    let c := shl1 r.command (din r)
    (rise r = false → coreTick cfg r i = recover cfg r i ∧ raisedEvents cfg r i = []) ∧
    (rise r = true → r.cnt + 1#8 ≠ 8#8 →
      coreTick cfg r i = { recover cfg r i with command := c, cnt := r.cnt + 1#8 } ∧ raisedEvents cfg r i = []) ∧
    (rise r = true → r.cnt + 1#8 = 8#8 → c = 0x00#8 →
      coreTick cfg r i = { recover cfg r i with command := c, cnt := 8#8, isWrite := true, proto := .readAddress } ∧
      raisedEvents cfg r i = []) ∧
    (rise r = true → r.cnt + 1#8 = 8#8 → c = 0x01#8 →
      coreTick cfg r i = { recover cfg r i with command := c, cnt := 8#8, isWrite := false, proto := .readAddress } ∧
      raisedEvents cfg r i = []) ∧
    (rise r = true → r.cnt + 1#8 = 8#8 → 2 ≤ c.toNat →
      coreTick cfg r i = { recover cfg r i with command := c, cnt := 8#8, proto := .endFrame } ∧
      raisedEvents cfg r i = [.framingAbort c])

/-- 42_protocol_fsm.md section 5: READ_ADDRESS shifts an address bit at each rise; the one that takes the counter to 40
moves a write to READ_VALUE, a read to BUS_READ. -/
def Obligations.AddressBitsAndDirection : Prop :=
  ∀ (cfg : Config) (r : Regs) (i : Inputs), i.rst = false → frameReset cfg r = false → r.proto = .readAddress →
    (coreTick cfg r i =
      if rise r then
        { recover cfg r i with
          address := shl1 r.address (din r), cnt := r.cnt + 1#8
          proto := if r.cnt + 1#8 = 40#8 then (if r.isWrite then .readValue else .busRead) else .readAddress }
      else recover cfg r i) ∧
    raisedEvents cfg r i = []

/-- 42_protocol_fsm.md section 5: READ_VALUE shifts a value bit at each rise; the one that takes the counter to 72 moves to
BUS_WRITE. -/
def Obligations.ValueBitsThenBusWrite : Prop :=
  ∀ (cfg : Config) (r : Regs) (i : Inputs), i.rst = false → frameReset cfg r = false → r.proto = .readValue →
    (coreTick cfg r i =
      if rise r then
        { recover cfg r i with
          value := shl1 r.value (din r), cnt := r.cnt + 1#8
          proto := if r.cnt + 1#8 = 72#8 then .busWrite else .readValue }
      else recover cfg r i) ∧
    raisedEvents cfg r i = []

/-- R81: the bit counter counts every rise, modulo 256, but in two-wire IDLE; only FrameClear, the two-wire frame start and
reset set it otherwise. -/
def Obligations.BitCounterCountsRises : Prop :=
  ∀ (cfg : Config) (r : Regs) (i : Inputs), i.rst = false → frameReset cfg r = false →
    let t := coreTick cfg r i
    (cfg.hasFrameSelect = true ∨ (r.proto ≠ .idle ∧ r.proto ≠ .endFrame) →
      t.cnt = if rise r then BitVec.ofNat 8 (r.cnt.toNat + 1) else r.cnt) ∧
    (cfg.hasFrameSelect = false → r.proto = .idle → t.cnt = if syncMatch cfg r then 0#8 else r.cnt) ∧
    (cfg.hasFrameSelect = false → r.proto = .endFrame → t.cnt = 0#8)

/-- 42_protocol_fsm.md section 5: in the bus, response and END states the data-in level is ignored. -/
def Obligations.DataInIgnoredAfterRequest : Prop :=
  ∀ (cfg : Config) (r : Regs) (i : Inputs) (b : Bool),
    r.proto ≠ .idle → r.proto ≠ .getHeader → r.proto ≠ .readAddress → r.proto ≠ .readValue →
    coreTick cfg { r with dinS2 := b } i = coreTick cfg r i

/-- 42_protocol_fsm.md section 7: in two-wire mode, once the state has left IDLE, nothing but reaching END (or `rst`) returns
it to IDLE; a 0xAB inside a frame does not restart it (the spec's own decision D9). -/
def Obligations.TwoWireFrameEndsOnlyAtEnd : Prop :=
  ∀ (tri : Bool) (r : Regs) (i : Inputs), i.rst = false → r.proto ≠ .idle →
    ((coreTick ⟨.two, tri⟩ r i).proto = .idle ↔ r.proto = .endFrame) ∧
    (r.proto ≠ .endFrame → (coreTick ⟨.two, tri⟩ r i).window = r.window)

/-! ## Bus adapter and memory -/

/-- 44_bus_adapter.md R88: the bus outputs of every register file. That they are driven at every tick, and
`bus_we` is 0 outside BUS_WRITE, is the spec's own decision D15. -/
def Obligations.BusOutputsFromRegisters : Prop :=
  ∀ (r : Regs),
    (busOut r).cyc = decide (r.proto = .busWrite ∨ r.proto = .busRead) ∧ (busOut r).stb = (busOut r).cyc ∧
    (busOut r).we = decide (r.proto = .busWrite) ∧ (busOut r).datW = r.value ∧ (busOut r).sel = 0b1111#4 ∧
    (busOut r).adr.toNat = r.address.toNat / 4

/-- R89: in BUS_WRITE an answer completes the write; without one the request stands unchanged. Rises
are counted and a fall is the turnaround, answered or not. BusError is raised exactly with `bus_err`. -/
def Obligations.BusWriteWaitsForAnswer : Prop :=
  ∀ (cfg : Config) (r : Regs) (i : Inputs), i.rst = false → frameReset cfg r = false → r.proto = .busWrite →
    coreTick cfg r i = { recover cfg r i with
      proto := if i.busAck || i.busErr then .waitByteBoundary else .busWrite
      cnt := if rise r then r.cnt + 1#8 else r.cnt
      turned := r.turned || fall r } ∧
    raisedEvents cfg r i = if i.busErr then [.busError] else []

/-- R90: BUS_READ, as BUS_WRITE, and the completing tick latches `bus_dat_r`. -/
def Obligations.BusReadLatchesData : Prop :=
  ∀ (cfg : Config) (r : Regs) (i : Inputs), i.rst = false → frameReset cfg r = false → r.proto = .busRead →
    coreTick cfg r i = { recover cfg r i with
      proto := if i.busAck || i.busErr then .waitByteBoundary else .busRead
      value := if i.busAck || i.busErr then i.busDatR else r.value
      cnt := if rise r then r.cnt + 1#8 else r.cnt
      turned := r.turned || fall r } ∧
    raisedEvents cfg r i = if i.busErr then [.busError] else []

/-- R92: `ack`, `err` and both at once complete a transaction alike: no register tells them apart. -/
def Obligations.ErrorCompletesLikeAck : Prop :=
  ∀ (cfg : Config) (r : Regs) (i : Inputs) (a e : Bool), (i.busAck || i.busErr) = (a || e) →
    coreTick cfg r { i with busAck := a, busErr := e } = coreTick cfg r i

/-- 44_bus_adapter.md: outside BUS_WRITE and BUS_READ the target's lines are not read (the spec's own decision D15). -/
def Obligations.AnswersIgnoredOutsideBusStates : Prop :=
  ∀ (cfg : Config) (r : Regs) (i : Inputs) (a e : Bool) (d : Word), r.proto ≠ .busWrite → r.proto ≠ .busRead →
    coreTick cfg r { i with busAck := a, busErr := e, busDatR := d } = coreTick cfg r i ∧
    raisedEvents cfg r { i with busAck := a, busErr := e, busDatR := d } = raisedEvents cfg r i

/-- 44_bus_adapter.md R93: a target that never answers holds the core in its bus state, the request asserted, for every
sequence of ticks without `rst`, as long as no frame reset comes (with a frame-select line, while the host keeps it asserted;
in two-wire mode always). That the target's memory is unchanged meanwhile is the model's target (log entries 5, 8 and 25),
and that BusHang (E5) is not recorded as an event is the model's reading (log entry 15). -/
def Obligations.UnansweredRequestNeverTimesOut : Prop :=
  ∀ (s : State) (ps : List Pins),
    busCyc s.core = true → s.target.current.delay = none →
    (s.cfg.hasFrameSelect = true →
      s.core.csnS1 = false ∧ s.core.csnS2 = false ∧ ∀ p ∈ ps, p.csn = false) →
    let t := ps.foldl (fun u p => sysTick false p u) s
    busOut t.core = busOut s.core ∧ t.core.proto = s.core.proto ∧ t.target.mem = s.target.mem ∧
    t.events = s.events

/-- 20_memory.md R36 and 44_bus_adapter.md R94: `rst` or a frame reset in a bus state drops the request at the next tick;
a read's data are not latched; the target's memory is as before or, for a write, has the word written, and it is either one
as the target's plan chooses (the spec's own decision D17). That the choice stands in the plan, or else is the free value of
the counter `draws`, is the model's (log entries 5 and 8); that a read cut short has no side effect is the model's
memory-like target (log entry 24), and that a write takes place at the cutting tick is log entry 25. -/
def Obligations.CutShortAccessIsADraw : Prop :=
  ∀ (s : State) (rst : Bool) (p : Pins), busCyc s.core = true → cutsShort rst s = true →
    let t := sysTick rst p s
    t.core.proto = .idle ∧ busCyc t.core = false ∧ t.core.value = 0#32 ∧ t.draws = s.draws + 1 ∧
    (t.target.mem = s.target.mem ∨
      (s.core.proto = .busWrite ∧ t.target.mem = writeWord s.target.mem (wordAddress s.core.address) s.core.value)) ∧
    (s.target.current.performed = some false → t.target.mem = s.target.mem) ∧
    (s.target.current.performed = some true → s.core.proto = .busWrite →
      t.target.mem = writeWord s.target.mem (wordAddress s.core.address) s.core.value) ∧
    (s.target.current.performed = none → s.core.proto = .busWrite →
      t.target.mem =
        if Config.cutShortPerformed s.draws then writeWord s.target.mem (wordAddress s.core.address) s.core.value
        else s.target.mem) ∧
    (rst = true → t.events = .coreReset :: s.events) ∧ (rst = false → t.events = .frameCancel :: s.events)

/-- 20_memory.md sections 1, 2 and 6, of the model's memory-like target: a bus write changes the four bytes of its word and no
other byte, a bus read of the word gives the value, and a read of any other word what it gave before. R26 gives a read what
the target presents and R33 leaves the contents open; that a target behaves as memory is the condition of R40, and the
target that does is the model's choice (log entries 5 and 24), as are the memory's form and its byte lanes (log entries 6
and 7). -/
def Obligations.WordReadAfterWrite : Prop :=
  ∀ (mem : List Host.Cell) (adr adr' : BusAddr) (v : Word), Memory.wf mem = true →
    readWord (writeWord mem adr v) adr' = (if adr' = adr then v else readWord mem adr') ∧
    (∀ a, (∀ lane, lane < 4 → a ≠ 4 * adr.toNat + lane) → readByte a (writeWord mem adr v) = readByte a mem)

/-- The model's memory form (its own choice, log entry 6): two canonical memories that read alike at every byte are the
same list. -/
def Obligations.MemoryFormIsCanonical : Prop :=
  ∀ (m m' : List Host.Cell), Memory.wf m = true → Memory.wf m' = true → (∀ a, readByte a m = readByte a m') → m = m'

/-! ## Response encoder -/

/-- 45_response_encoder.md section 2: the turnaround is set at a fall of BUS_WRITE, BUS_READ or WAIT_BYTE_BOUNDARY, and only
FrameClear and reset clear it (at which fall it happens is the spec's own decision D12). -/
def Obligations.TurnaroundAtFirstFall : Prop :=
  ∀ (cfg : Config) (r : Regs) (i : Inputs), i.rst = false → frameReset cfg r = false →
    let t := coreTick cfg r i
    (fall r = true → (r.proto = .busWrite ∨ r.proto = .busRead ∨ r.proto = .waitByteBoundary) → t.turned = true) ∧
    (¬ (fall r = true ∧ (r.proto = .busWrite ∨ r.proto = .busRead ∨ r.proto = .waitByteBoundary)) →
      ¬ (r.proto = .endFrame ∧ cfg.hasFrameSelect = false) → t.turned = r.turned)

/-- R105: WAIT_BYTE_BOUNDARY holds until a fall on a byte boundary, and then drives the
response's first bit. -/
def Obligations.ResponseStartsOnByteBoundary : Prop :=
  ∀ (cfg : Config) (r : Regs) (i : Inputs), i.rst = false → frameReset cfg r = false → r.proto = .waitByteBoundary →
    (coreTick cfg r i =
      if fall r then
        (if r.cnt.toNat % 8 = 0 then
          { recover cfg r i with
            turned := true, dout := false, proto := if r.isWrite then .writeWrResponse else .writeResponse }
         else { recover cfg r i with turned := true })
      else { recover cfg r i with cnt := if rise r then r.cnt + 1#8 else r.cnt }) ∧
    raisedEvents cfg r i = []

/-- R106: the acknowledgement byte is all zeros and ends at a byte boundary. -/
def Obligations.WriteAcknowledgementIsZeros : Prop :=
  ∀ (cfg : Config) (r : Regs) (i : Inputs), i.rst = false → frameReset cfg r = false → r.proto = .writeWrResponse →
    (coreTick cfg r i =
      if fall r then
        { recover cfg r i with
          dout := false, proto := if r.cnt.toNat % 8 = 0 then .endFrame else .writeWrResponse }
      else { recover cfg r i with cnt := if rise r then r.cnt + 1#8 else r.cnt }) ∧
    raisedEvents cfg r i = []

/-- R107: WRITE_RESPONSE drives the header bits 0..01 and then `value[31]`. -/
def Obligations.ReadHeaderThenFirstValueBit : Prop :=
  ∀ (cfg : Config) (r : Regs) (i : Inputs), i.rst = false → frameReset cfg r = false → r.proto = .writeResponse →
    (coreTick cfg r i =
      if fall r then
        (if r.cnt.toNat % 8 = 0 then
          { recover cfg r i with dout := r.value.getLsbD 31, woff := 31#5, proto := .writeValue }
         else { recover cfg r i with dout := decide (r.cnt.toNat % 8 = 7) })
      else { recover cfg r i with cnt := if rise r then r.cnt + 1#8 else r.cnt }) ∧
    raisedEvents cfg r i = []

/-- 45_response_encoder.md section 3: WRITE_VALUE drives the value's bits in falling index order and ends after bit 0. -/
def Obligations.ValueBitsInFallingOrder : Prop :=
  ∀ (cfg : Config) (r : Regs) (i : Inputs), i.rst = false → frameReset cfg r = false → r.proto = .writeValue →
    (coreTick cfg r i =
      if fall r then
        (if r.woff = 0#5 then { recover cfg r i with dout := false, proto := .endFrame }
         else { recover cfg r i with dout := r.value.getLsbD (r.woff.toNat - 1), woff := r.woff - 1#5 })
      else { recover cfg r i with cnt := if rise r then r.cnt + 1#8 else r.cnt }) ∧
    raisedEvents cfg r i = []

/-- 45_response_encoder.md section 3: END is held, counting rises, with a frame-select line; in two-wire mode it clears the
frame at once (that END lasts one tick is the spec's own decision D14, that it does not drive D13). -/
def Obligations.EndHeldOrRearmed : Prop :=
  ∀ (cfg : Config) (r : Regs) (i : Inputs), i.rst = false → frameReset cfg r = false → r.proto = .endFrame →
    (cfg.hasFrameSelect = true →
      coreTick cfg r i = { recover cfg r i with cnt := if rise r then r.cnt + 1#8 else r.cnt }) ∧
    (cfg.hasFrameSelect = false →
      coreTick cfg r i = { recover cfg r i with
        proto := .idle, command := 0x00#8, address := 0#32, value := 0#32, isWrite := false, cnt := 0#8, woff := 0#5
        turned := false, dout := true, window := 0x00#8 }) ∧
    oe r = false ∧ raisedEvents cfg r i = []

/-- 45_response_encoder.md section 4 (R112): while the frame is active and `rst` is 0, the data-out level and the drive
request change only at a tick with a fall, or at two-wire END, which changes only an undriven `dout`. Premise: the frame
invariant, which StepKeepsInvariant states every step keeps. -/
def Obligations.DataOutChangesOnlyOnFalls : Prop :=
  ∀ (cfg : Config) (r : Regs) (i : Inputs), frameInv r = true → i.rst = false → frameReset cfg r = false →
    fall r = false →
    let t := coreTick cfg r i
    (oe t = oe r ∧ t.dout = r.dout) ∨
    (cfg.hasFrameSelect = false ∧ r.proto = .endFrame ∧ oe r = false ∧ oe t = false)

/-- 45_response_encoder.md section 1 (R99, R102): under the frame invariant the core drives nothing in IDLE, in the request
states, or in an aborted frame's END, and `dout` is 1 there. -/
def Obligations.NoDriveDuringRequest : Prop :=
  ∀ (r : Regs), frameInv r = true →
    (r.proto = .idle ∨ r.proto = .getHeader ∨ r.proto = .readAddress ∨ r.proto = .readValue →
      oe r = false ∧ r.dout = true) ∧
    (r.proto = .endFrame → oe r = false ∧ (2 ≤ r.command.toNat → r.dout = true ∧ r.turned = false))

/-! ## Whole frames: every instruction completes

The statements that follow begin at a link at rest or at an open two-wire frame. FrameAfterAnyFrame carries them to every
other state with a frame-select line, a frame cut short among them. -/

/-- 43_commands.md (R84), 20_memory.md, 45_response_encoder.md section 4, for every wire mode: a WR frame from a link at
rest (or, in two-wire mode, right after the sync byte) whose request the target answers within the host's patience
completes: `addr`, `val` and the direction are in the registers (with a frame-select line, where END keeps them), the word
at `addr[31:2]` is written where the target performs the write (`writePerformed`: with `ack` alone unless the plan says
otherwise; with `err` the plan's choice or a draw, log entries 5 and 10) and no other byte changed, the host has sampled
`n` fill bytes and then 0x00. That a fill byte is 0xFF is the spec's own decision D11; the fill count is that of the model's
host timing (log entry 4), and the host's patience, the state the frame ends in and the release of the data line are the
model's choices (log entries 14, 17 and 21). -/
def Obligations.WriteFrameCompletes : Prop :=
  ∀ (s : State) (addr val : Word) (d : Nat), readyForFrame s = true → answersWithin s d →
    ∃ t, exec (.wr addr val) s = .next t ∧ WriteFrameDone s t addr val (fillBytes d)

/-- 43_commands.md (R85): an RD frame, as WriteFrameCompletes: the latched word is in `value`, memory is unchanged, and the
host has sampled `n` fill bytes, 0x01 and the word, most significant bit first. With `err` the word is the plan's or a draw
(log entry 9), and a read without side effect is the model's target (log entries 5 and 24). The 0xFF of a fill byte is the
spec's own decision D11; the host's timing, patience and release and the end state are the model's (log entries 4, 14, 17
and 21). -/
def Obligations.ReadFrameCompletes : Prop :=
  ∀ (s : State) (addr : Word) (d : Nat), readyForFrame s = true → answersWithin s d →
    ∃ t, exec (.rd addr) s = .next t ∧ ReadFrameDone s t addr (fillBytes d)

/-- 43_commands.md (R86): every ABORT frame completes: END with the header in `command` (two-wire: re-armed), FramingAbort
raised, no bus access, no drive, memory unchanged. The host's timing and release of the data line, and the end with
frame-select still asserted, are the model's choices (log entries 4, 17 and 21). -/
def Obligations.AbortFrameCompletes : Prop :=
  ∀ (s : State) (h : Byte), readyForFrame s = true → 2 ≤ h.toNat →
    ∀ i ∈ [Instr.abort02 h, Instr.abort04 h, Instr.abort08 h, Instr.abort10 h, Instr.abort20 h, Instr.abort40 h,
        Instr.abort80 h],
      ∃ t, exec i s = .next t ∧ AbortFrameDone s t h

/-- 43_commands.md (R87): in two-wire IDLE the sync byte opens a frame: GET_HEADER, no frame bit taken, nothing driven,
memory unchanged. The host's timing and release of the data line are the model's choices (log entries 4 and 21), and NoSync
is not recorded (log entry 15). -/
def Obligations.SyncByteOpensFrame : Prop :=
  ∀ (s : State), awaitingSync s = true → ∃ t, exec .sync s = .next t ∧ SyncDone s t

/-- 30_encoding.md section 2 (R46): with a frame-select line 0xAB is a header and aborts the frame (the end state and the
host's timing and release as in AbortFrameCompletes, log entries 4, 17 and 21). -/
def Obligations.SyncByteIsAbortWithFrameSelect : Prop :=
  ∀ (s : State), linkAtRest s = true → ∃ t, exec .sync s = .next t ∧ AbortFrameDone s t 0xAB#8

/-- 60_exceptions.md section 1: a frame whose request is never answered leaves the core in its bus state with the request
standing, and the host has read nothing but ones after the request, for as long as it clocked. That the fill is ones is the
spec's own decision D11; that memory is unchanged while the request stands is the model's target (log entries 5, 8 and 25),
that BusHang (E5) is not recorded is the model's reading (log entry 15), and how and how long the host clocks is the model's
host (log entries 4, 14 and 21). -/
def Obligations.UnansweredFrameReadsOnes : Prop :=
  ∀ (s : State) (addr val : Word), readyForFrame s = true → s.target.current.delay = none →
    (∃ t, exec (.wr addr val) s = .next t ∧ t.core.proto = .busWrite ∧
      busOut t.core = ⟨true, true, true, wordAddress addr, val, 0xF#4⟩ ∧ t.target.mem = s.target.mem ∧
      t.host.rx.reverse = samples s.cfg 72 s.host.patience [] ∧ t.events = s.events) ∧
    (∃ t, exec (.rd addr) s = .next t ∧ t.core.proto = .busRead ∧
      busOut t.core = ⟨true, true, false, wordAddress addr, 0#32, 0xF#4⟩ ∧ t.target.mem = s.target.mem ∧
      t.host.rx.reverse = samples s.cfg 40 s.host.patience [] ∧ t.events = s.events)

/-- 20_memory.md section 6 (R40): with a memory-like target that answers both transactions with `ack`, a WR frame and then
an RD frame of the same address (a sync byte between them in two-wire mode) give the host 0x01 and exactly the value
written, in every wire mode. The fill is the spec's own decision D11; the host's timing, patience and release and the end
of a frame are the model's (log entries 4, 14, 17 and 21), and the memory-like target is its choice (log entries 5 and
24). -/
def Obligations.WriteThenReadReturnsValue : Prop :=
  ∀ (s : State) (addr val : Word) (d d' : Nat) (rest : List Answer), readyForFrame s = true →
    s.target.plan = ⟨some d, .ack, none, none⟩ :: ⟨some d', .ack, none, none⟩ :: rest → Memory.wf s.target.mem = true →
    fillBytes d < s.host.patience → fillBytes d' < s.host.patience →
    ∃ t u v, exec (.wr addr val) s = .next t ∧
      (if s.cfg.hasFrameSelect then u = t else exec .sync t = .next u) ∧
      exec (.rd addr) u = .next v ∧
      v.host.rx.reverse = samples s.cfg 40 (fillBytes d') (0x01#8 :: bytesOfWord val)

/-- 45_response_encoder.md section 1 (R100): the response does not tell an error from success: two systems that differ only
in whether the target raises `ack`, `err` or both with the same delay and data give the host the same samples. The target's
plan and the host's timing and patience are the model's (log entries 4, 5 and 14). -/
def Obligations.ResponseHidesBusError : Prop :=
  ∀ (s : State) (addr val w : Word) (d : Nat) (k k' : AnswerKind) (rest : List Answer), readyForFrame s = true →
    fillBytes d < s.host.patience →
    let with_ := fun (kind : AnswerKind) =>
      { s with target := { s.target with plan := ⟨some d, kind, some w, none⟩ :: rest } }
    (∃ t t', exec (.wr addr val) (with_ k) = .next t ∧ exec (.wr addr val) (with_ k') = .next t' ∧
      t.host.rx = t'.host.rx ∧ t.core = t'.core) ∧
    (∃ t t', exec (.rd addr) (with_ k) = .next t ∧ exec (.rd addr) (with_ k') = .next t' ∧
      t.host.rx = t'.host.rx ∧ t.core = t'.core)

/-! ## The step -/

/-- When the host's next script item is a frame whose bytes decode, at the position of the stream the host gives, to an
instruction, the step is exec of it on the state with the item taken off the script, and the bytes after the instruction
left as what comes next. That a frame item is one step and what becomes of the bytes after its instruction are the model's
own choices (log entries 3, 18, 20 and 22). -/
def Obligations.StepRunsDecodedInstruction : Prop :=
  ∀ (s : State) (pos : Position) (bytes rest : List Byte) (script : List Stimulus) (i : Instr),
    s.host.script = .frame pos bytes :: script → decode pos bytes = .ok (i, rest) →
    step s = exec i (withScript (pushRest s.cfg i rest script) s)

/-- Every table word the decoder reads is what the step after State.withFetchWord runs, in every state and wire mode: as it
stands with a frame-select line; in two-wire mode in a frame just opened, its registers clear; and for the SYNC word in
two-wire IDLE. The script is as it was. How a table word is placed is the model's own choice (log entry 18). -/
def Obligations.FetchWordRunsTableInstruction : Prop :=
  ∀ (s : State) (nbits w : Nat), ∃ i u, decodeTableWord nbits w = some i ∧
    step (s.withFetchWord nbits w) = exec i u ∧
    (i ≠ .sync → s.cfg.hasFrameSelect = true → u = s) ∧
    (i ≠ .sync → s.cfg.hasFrameSelect = false → u = { s with core := { frameClear s.cfg s.core with proto := .getHeader } }) ∧
    (i = .sync → u = { s with cfg := { s.cfg with wires := .two }, core := { s.core with proto := .idle } })

/-- 00_scope.md R6: a scripted tick is one tick of the system with the given pins and `rst`; with an empty script the host
holds its pins for one tick (the model's own choice, log entry 3). -/
def Obligations.StepIsOneTick : Prop :=
  (∀ (s : State) (rst : Bool) (p : Pins) (script : List Stimulus), s.host.script = .tick rst p :: script →
    step s = .next (sysTick rst p (withScript script s))) ∧
  (∀ s : State, s.host.script = [] → step s = .next (sysTick false s.host.pins s))

/-- 93_implementation_defined.md section 1: no behaviour is a fault; every step has a next state. -/
def Obligations.EveryStepHasANextState : Prop :=
  ∀ s : State, ∃ t, step s = .next t

/-- Every step keeps the model's invariant: the frame registers fit the protocol state (42_protocol_fsm.md R83, R80;
45_response_encoder.md R99 to R108), absent registers stay at reset and memory stays canonical (the model's own forms, log
entries 2 and 6). -/
def Obligations.StepKeepsInvariant : Prop :=
  ∀ (s t : State), s.inv = true → step s = .next t → t.inv = true

/-- The invariant holds after reset, in every wire mode. -/
def Obligations.InvariantHoldsAtReset : Prop :=
  ∀ cfg : Config, (State.resetWith cfg).inv = true

/-- 60_exceptions.md R134, 00_scope.md R2: no step changes the construction parameters; nor the model's own host patience and
the board's pull, and the board's line only moves on with the ticks (log entries 12 and 14). -/
def Obligations.StepKeepsConfiguration : Prop :=
  ∀ (s t : State), step s = .next t →
    t.cfg = s.cfg ∧ t.host.patience = s.host.patience ∧ ∃ n, t.board = s.board.advance n

/-! ## A frame after one cut short -/

/-- 42_protocol_fsm.md section 3 and section 7 (R73, R83), 60_exceptions.md section 1 (R120, R124), 20_memory.md section 6 (R36),
95_test_vectors.md X5: with a frame-select line, from EVERY protocol state with the clock low and frame-select steady, a
frame cut short or hung on the bus as well as END or IDLE, the host's release clears the frame registers, answers or cuts
short a standing request, raises FrameCancel where it applies, and changes nothing else (ReleaseDone); the next frame then
opens in GET_HEADER with clear registers, whatever stood there before; and every instruction runs as it does from the
released link, which is at rest, so that the statements about whole frames hold of it (the board's line set back there by the
ticks of the release, which the frame's own start repeats). The three ticks of release and of
select are the model's host (log entry 4), the target's plan and draws log entries 5, 8 and 10, the tick a write takes
place at log entry 25. -/
def Obligations.FrameAfterAnyFrame : Prop :=
  ∀ (s : State), s.cfg.hasFrameSelect = true → clockLow s.core = true → s.core.csnS1 = s.core.csnS2 →
    let t := releaseSelect s
    let u := openFrame s
    ReleaseDone s t ∧ linkAtRest t = true ∧
    clearedCore s u .getHeader false ∧ u.target = t.target ∧ u.draws = t.draws ∧ u.events = t.events ∧ u.cfg = s.cfg ∧
    u.host = { s.host with pins := { sclk := false, csn := false, data := none }, rx := [] } ∧
    u.board = s.board.advance (releaseTicks + selectTicks) ∧
    ∀ i : Instr, exec i s = exec i { t with board := s.board }
end

