-- ==== Sys2Proof/Laws/Codec.lean ====
section
/-! SUPPORT. Small lemmas of the decoder and the encoder: a field from its own bytes, the ABORT row of a header, the bits of
bytes. -/

namespace Sys2Proof

/-- A big-endian field from its own four bytes. -/
theorem wordOfBytes_bytesOfWord (w : Word) :
    wordOfBytes (w.extractLsb' 24 8) (w.extractLsb' 16 8) (w.extractLsb' 8 8) (w.extractLsb' 0 8) = w := by
  apply BitVec.eq_of_getLsbD_eq
  intro k hk
  simp only [wordOfBytes, BitVec.getLsbD_append, BitVec.getLsbD_extractLsb']
  interval_cases k <;> simp

/-- The bytes of a field put together from four bytes. -/
theorem bytesOfWord_wordOfBytes (b3 b2 b1 b0 : Byte) : bytesOfWord (wordOfBytes b3 b2 b1 b0) = [b3, b2, b1, b0] := by
  simp only [bytesOfWord, wordOfBytes, List.cons.injEq, and_true]
  refine ⟨?_, ?_, ?_, ?_⟩ <;> apply BitVec.eq_of_getLsbD_eq <;> intro k hk <;>
    simp only [BitVec.getLsbD_append, BitVec.getLsbD_extractLsb'] <;> interval_cases k <;> simp

/-- An ABORT row's instruction carries the header it was made from. -/
theorem abortHeader_abortOfHeader (h : Byte) : (abortOfHeader h).abortHeader = some h := by
  unfold abortOfHeader
  repeat' split
  all_goals rfl

/-- The rows cover every header from 0x02 up (opcode_table.json). -/
theorem wellFormed_abortOfHeader : ∀ h : Byte, 2 ≤ h.toNat → (abortOfHeader h).wellFormed = true := by decide

/-- No ABORT row holds a WR or RD header, and a header in a row is decoded to that row. -/
theorem abortOfHeader_of_wellFormed (i : Instr) (h : Byte) (ha : i.abortHeader = some h) (hw : i.wellFormed = true) :
    2 ≤ h.toNat ∧ abortOfHeader h = i := by
  have key02 : ∀ h : Byte, inRow 0xFE#8 0x02#8 h = true → 2 ≤ h.toNat ∧ abortOfHeader h = .abort02 h := by decide
  have key04 : ∀ h : Byte, inRow 0xFC#8 0x04#8 h = true → 2 ≤ h.toNat ∧ abortOfHeader h = .abort04 h := by decide
  have key08 : ∀ h : Byte, inRow 0xF8#8 0x08#8 h = true → 2 ≤ h.toNat ∧ abortOfHeader h = .abort08 h := by decide
  have key10 : ∀ h : Byte, inRow 0xF0#8 0x10#8 h = true → 2 ≤ h.toNat ∧ abortOfHeader h = .abort10 h := by decide
  have key20 : ∀ h : Byte, inRow 0xE0#8 0x20#8 h = true → 2 ≤ h.toNat ∧ abortOfHeader h = .abort20 h := by decide
  have key40 : ∀ h : Byte, inRow 0xC0#8 0x40#8 h = true → 2 ≤ h.toNat ∧ abortOfHeader h = .abort40 h := by decide
  have key80 : ∀ h : Byte, inRow 0x80#8 0x80#8 h = true → 2 ≤ h.toNat ∧ abortOfHeader h = .abort80 h := by decide
  cases i <;> simp only [Instr.abortHeader, Option.some.injEq, reduceCtorEq] at ha <;> subst ha
  · exact key02 _ hw
  · exact key04 _ hw
  · exact key08 _ hw
  · exact key10 _ hw
  · exact key20 _ hw
  · exact key40 _ hw
  · exact key80 _ hw

@[simp] theorem bitsOfBytes_nil : bitsOfBytes [] = [] := rfl

@[simp] theorem bitsOfBytes_cons (b : Byte) (bs : List Byte) : bitsOfBytes (b :: bs) = bitsOfByte b ++ bitsOfBytes bs :=
  rfl

@[simp] theorem bitsOfBytes_append (as bs : List Byte) : bitsOfBytes (as ++ bs) = bitsOfBytes as ++ bitsOfBytes bs := by
  simp [bitsOfBytes]

@[simp] theorem length_bitsOfByte (b : Byte) : (bitsOfByte b).length = 8 := rfl

end Sys2Proof
end

