-- ==== Sys2Proof/Laws/Operands.lean ====
section
/-! SUPPORT. The MSB-first shift bit by bit and over a list of bits, and the bits of an encoded field. -/

namespace Sys2Proof.Machine

/-- What one shift does to each bit: bit 0 is the inserted bit, every other the one below it. -/
theorem getLsbD_shl1 {n : Nat} (r : BitVec n) (b : Bool) (k : Nat) :
    (shl1 r b).getLsbD k = (decide (k < n) && if k = 0 then b else r.getLsbD (k - 1)) := by
  simp [shl1, BitVec.getLsbD_setWidth, BitVec.getLsbD_concat]

/-- The value of a shift. -/
theorem toNat_shl1 {n : Nat} (r : BitVec n) (b : Bool) : (shl1 r b).toNat = (2 * r.toNat + b.toNat) % 2 ^ n := by
  simp [shl1, BitVec.toNat_concat, Nat.mul_comm]

/-- What shifting in a list of bits does to each bit: the low bits are the list's, its last the lowest, and the old bits
stand above them. -/
theorem getLsbD_foldl_shl1 {n : Nat} (bs : List Bool) (r : BitVec n) (k : Nat) :
    (bs.foldl shl1 r).getLsbD k =
      (decide (k < n) && if k < bs.length then bs.reverse[k]?.getD false else r.getLsbD (k - bs.length)) := by
  induction bs generalizing r with
  | nil => simpa using fun h => BitVec.lt_of_getLsbD h
  | cons b bs ih =>
    rw [List.foldl_cons, ih, getLsbD_shl1]
    rcases Nat.lt_trichotomy k bs.length with h | h | h
    · simp [h, show k < bs.length + 1 by omega]
    · subst h
      by_cases hn : bs.length < n
      · simp [hn, show 0 < n by omega]
      · simp [hn]
    · obtain ⟨m, rfl⟩ : ∃ m, k = bs.length + 1 + m := ⟨k - bs.length - 1, by omega⟩
      have h1 : ¬ bs.length + 1 + m < bs.length := by omega
      have h2 : bs.length + 1 + m - bs.length = m + 1 := by omega
      have h3 : bs.length + 1 + m - (bs.length + 1) = m := by omega
      by_cases hn : bs.length + 1 + m < n
      · simp [h1, h2, h3, hn, show m + 1 < n by omega]
        omega
      · simp [hn]

/-- The bus address drops the low two bits (20_memory.md R28). -/
theorem toNat_wordAddress (a : Word) : (wordAddress a).toNat = a.toNat / 4 := by
  simp [wordAddress, BitVec.extractLsb', Nat.shiftRight_eq_div_pow]
  omega

/-- A word put together from its own lanes. -/
theorem wordOfLanes_laneByte (w : Word) : wordOfLanes (laneByte w 3) (laneByte w 2) (laneByte w 1) (laneByte w 0) = w := by
  apply BitVec.eq_of_getLsbD_eq
  intro k hk
  simp only [wordOfLanes, laneByte, BitVec.getLsbD_append, BitVec.getLsbD_extractLsb']
  interval_cases k <;> simp

end Sys2Proof.Machine
end

