-- ==== Sys2Proof/Laws/State.lean ====
section
/-! SUPPORT. One lemma per field per update, so that no proof unfolds a record update: the synchronizer shift, FrameClear,
reset, a system tick, and the host's bookkeeping updates. -/

namespace Sys2Proof.Machine

/-! ## The synchronizer shift (40_signal_recovery.md R55, R57) -/

section
variable (cfg : Config) (r : Regs) (i : Inputs)

@[simp] theorem recover_clkS1 : (recover cfg r i).clkS1 = i.rawClk := rfl
@[simp] theorem recover_clkS2 : (recover cfg r i).clkS2 = r.clkS1 := rfl
@[simp] theorem recover_dinS1 : (recover cfg r i).dinS1 = i.rawDin := rfl
@[simp] theorem recover_dinS2 : (recover cfg r i).dinS2 = r.dinS1 := rfl
@[simp] theorem recover_csnS1 : (recover cfg r i).csnS1 = (if cfg.hasFrameSelect then i.rawCsn else r.csnS1) := rfl
@[simp] theorem recover_csnS2 : (recover cfg r i).csnS2 = (if cfg.hasFrameSelect then r.csnS1 else r.csnS2) := rfl
@[simp] theorem recover_clkPrev : (recover cfg r i).clkPrev = r.clkS2 := rfl
@[simp] theorem recover_proto : (recover cfg r i).proto = r.proto := rfl
@[simp] theorem recover_command : (recover cfg r i).command = r.command := rfl
@[simp] theorem recover_address : (recover cfg r i).address = r.address := rfl
@[simp] theorem recover_value : (recover cfg r i).value = r.value := rfl
@[simp] theorem recover_isWrite : (recover cfg r i).isWrite = r.isWrite := rfl
@[simp] theorem recover_cnt : (recover cfg r i).cnt = r.cnt := rfl
@[simp] theorem recover_woff : (recover cfg r i).woff = r.woff := rfl
@[simp] theorem recover_window : (recover cfg r i).window = r.window := rfl
@[simp] theorem recover_turned : (recover cfg r i).turned = r.turned := rfl
@[simp] theorem recover_dout : (recover cfg r i).dout = r.dout := rfl

end

/-! ## FrameClear (42_protocol_fsm.md R72) -/

section
variable (cfg : Config) (r : Regs)

@[simp] theorem frameClear_clkS1 : (frameClear cfg r).clkS1 = r.clkS1 := rfl
@[simp] theorem frameClear_clkS2 : (frameClear cfg r).clkS2 = r.clkS2 := rfl
@[simp] theorem frameClear_dinS1 : (frameClear cfg r).dinS1 = r.dinS1 := rfl
@[simp] theorem frameClear_dinS2 : (frameClear cfg r).dinS2 = r.dinS2 := rfl
@[simp] theorem frameClear_csnS1 : (frameClear cfg r).csnS1 = r.csnS1 := rfl
@[simp] theorem frameClear_csnS2 : (frameClear cfg r).csnS2 = r.csnS2 := rfl
@[simp] theorem frameClear_clkPrev : (frameClear cfg r).clkPrev = r.clkPrev := rfl
@[simp] theorem frameClear_proto : (frameClear cfg r).proto = .idle := rfl
@[simp] theorem frameClear_command : (frameClear cfg r).command = 0#8 := rfl
@[simp] theorem frameClear_address : (frameClear cfg r).address = 0#32 := rfl
@[simp] theorem frameClear_value : (frameClear cfg r).value = 0#32 := rfl
@[simp] theorem frameClear_isWrite : (frameClear cfg r).isWrite = false := rfl
@[simp] theorem frameClear_cnt : (frameClear cfg r).cnt = 0#8 := rfl
@[simp] theorem frameClear_woff : (frameClear cfg r).woff = 0#5 := rfl
@[simp] theorem frameClear_window : (frameClear cfg r).window = (if cfg.hasFrameSelect then r.window else 0#8) := rfl
@[simp] theorem frameClear_turned : (frameClear cfg r).turned = false := rfl
@[simp] theorem frameClear_dout : (frameClear cfg r).dout = true := rfl

end

/-! ## Reset (70_reset_and_hazards.md R141) -/

section
variable (cfg : Config) (r : Regs)

@[simp] theorem coreReset_clkS1 : (coreReset cfg r).clkS1 = false := rfl
@[simp] theorem coreReset_clkS2 : (coreReset cfg r).clkS2 = false := rfl
@[simp] theorem coreReset_dinS1 : (coreReset cfg r).dinS1 = false := rfl
@[simp] theorem coreReset_dinS2 : (coreReset cfg r).dinS2 = false := rfl
@[simp] theorem coreReset_csnS1 : (coreReset cfg r).csnS1 = (if cfg.hasFrameSelect then true else r.csnS1) := rfl
@[simp] theorem coreReset_csnS2 : (coreReset cfg r).csnS2 = (if cfg.hasFrameSelect then true else r.csnS2) := rfl
@[simp] theorem coreReset_clkPrev : (coreReset cfg r).clkPrev = false := rfl
@[simp] theorem coreReset_proto : (coreReset cfg r).proto = .idle := rfl
@[simp] theorem coreReset_command : (coreReset cfg r).command = 0#8 := rfl
@[simp] theorem coreReset_address : (coreReset cfg r).address = 0#32 := rfl
@[simp] theorem coreReset_value : (coreReset cfg r).value = 0#32 := rfl
@[simp] theorem coreReset_isWrite : (coreReset cfg r).isWrite = false := rfl
@[simp] theorem coreReset_cnt : (coreReset cfg r).cnt = 0#8 := rfl
@[simp] theorem coreReset_woff : (coreReset cfg r).woff = 0#5 := rfl
@[simp] theorem coreReset_window : (coreReset cfg r).window = (if cfg.hasFrameSelect then r.window else 0#8) := rfl
@[simp] theorem coreReset_turned : (coreReset cfg r).turned = false := rfl
@[simp] theorem coreReset_dout : (coreReset cfg r).dout = true := rfl

end

/-! ## One tick of the system -/

section
variable (rst : Bool) (p : Pins) (s : State)

@[simp] theorem sysTick_cfg : (sysTick rst p s).cfg = s.cfg := rfl
@[simp] theorem sysTick_core : (sysTick rst p s).core = coreTick s.cfg s.core (inputsOf rst p s) := rfl
@[simp] theorem sysTick_target : (sysTick rst p s).target = s.target.tick s.core (cutsShort rst s) s.draws := rfl
@[simp] theorem sysTick_host : (sysTick rst p s).host = hostTick p s := rfl
@[simp] theorem sysTick_board : (sysTick rst p s).board = s.board.advance 1 := rfl
@[simp] theorem sysTick_draws : (sysTick rst p s).draws = (if s.target.ends s.core (cutsShort rst s) then s.draws + 1 else s.draws) := rfl
@[simp] theorem sysTick_events : (sysTick rst p s).events = raisedEvents s.cfg s.core (inputsOf rst p s) ++ s.events := rfl
@[simp] theorem hostTick_script : (hostTick p s).script = s.host.script := rfl
@[simp] theorem hostTick_pins : (hostTick p s).pins = p := rfl
@[simp] theorem hostTick_rx : (hostTick p s).rx = (if p.sclk && !s.host.pins.sclk then dataOutPin s.cfg s.core :: s.host.rx else s.host.rx) := rfl
@[simp] theorem hostTick_patience : (hostTick p s).patience = s.host.patience := rfl
@[simp] theorem hostTick_fight : (hostTick p s).fight = (s.host.fight || lineFight s.cfg s.core p.data) := rfl
@[simp] theorem inputsOf_rst : (inputsOf rst p s).rst = rst := rfl
@[simp] theorem inputsOf_rawClk : (inputsOf rst p s).rawClk = p.sclk := rfl
@[simp] theorem inputsOf_rawCsn : (inputsOf rst p s).rawCsn = p.csn := rfl
@[simp] theorem inputsOf_rawDin : (inputsOf rst p s).rawDin = dataInPin s.cfg s.core p.data s.board.level := rfl
@[simp] theorem inputsOf_busAck : (inputsOf rst p s).busAck = s.target.ack s.core := rfl
@[simp] theorem inputsOf_busErr : (inputsOf rst p s).busErr = s.target.err s.core := rfl
@[simp] theorem inputsOf_busDatR : (inputsOf rst p s).busDatR = s.target.data s.core s.draws := rfl

end

/-! ## The board's line -/

@[simp] theorem Board.advance_zero (b : Board) : b.advance 0 = b := rfl

@[simp] theorem Board.advance_advance (m n : Nat) (b : Board) : (b.advance n).advance m = b.advance (n + m) := by
  simp [Board.advance, Nat.add_assoc]

@[simp] theorem Board.advance_pull (n : Nat) (b : Board) : (b.advance n).pull = b.pull := rfl

/-- The same state with the board's line `n` ticks further on. -/
def passed (n : Nat) (s : State) : State := { s with board := s.board.advance n }

section
variable (n : Nat) (s : State)

@[simp] theorem passed_cfg : (passed n s).cfg = s.cfg := rfl
@[simp] theorem passed_core : (passed n s).core = s.core := rfl
@[simp] theorem passed_target : (passed n s).target = s.target := rfl
@[simp] theorem passed_host : (passed n s).host = s.host := rfl
@[simp] theorem passed_board : (passed n s).board = s.board.advance n := rfl
@[simp] theorem passed_draws : (passed n s).draws = s.draws := rfl
@[simp] theorem passed_events : (passed n s).events = s.events := rfl
@[simp] theorem passed_zero : passed 0 s = s := rfl
@[simp] theorem passed_passed (m : Nat) : passed m (passed n s) = passed (n + m) s := by simp [passed]

end

/-! ## The host's bookkeeping -/

section
variable (script : List Stimulus) (s : State)

@[simp] theorem clearSamples_cfg : (clearSamples s).cfg = s.cfg := rfl
@[simp] theorem clearSamples_core : (clearSamples s).core = s.core := rfl
@[simp] theorem clearSamples_target : (clearSamples s).target = s.target := rfl
@[simp] theorem clearSamples_draws : (clearSamples s).draws = s.draws := rfl
@[simp] theorem clearSamples_events : (clearSamples s).events = s.events := rfl
@[simp] theorem clearSamples_script : (clearSamples s).host.script = s.host.script := rfl
@[simp] theorem clearSamples_pins : (clearSamples s).host.pins = s.host.pins := rfl
@[simp] theorem clearSamples_board : (clearSamples s).board = s.board := rfl
@[simp] theorem clearSamples_patience : (clearSamples s).host.patience = s.host.patience := rfl
@[simp] theorem clearSamples_fight : (clearSamples s).host.fight = s.host.fight := rfl
@[simp] theorem clearSamples_rx : (clearSamples s).host.rx = [] := rfl
@[simp] theorem withScript_cfg : (withScript script s).cfg = s.cfg := rfl
@[simp] theorem withScript_core : (withScript script s).core = s.core := rfl
@[simp] theorem withScript_target : (withScript script s).target = s.target := rfl
@[simp] theorem withScript_draws : (withScript script s).draws = s.draws := rfl
@[simp] theorem withScript_events : (withScript script s).events = s.events := rfl
@[simp] theorem withScript_pins : (withScript script s).host.pins = s.host.pins := rfl
@[simp] theorem withScript_rx : (withScript script s).host.rx = s.host.rx := rfl
@[simp] theorem withScript_board : (withScript script s).board = s.board := rfl
@[simp] theorem withScript_patience : (withScript script s).host.patience = s.host.patience := rfl
@[simp] theorem withScript_fight : (withScript script s).host.fight = s.host.fight := rfl
@[simp] theorem withScript_script : (withScript script s).host.script = script := rfl

end

/-- Putting the script back that a state has changes nothing. -/
@[simp] theorem withScript_self (s : State) : withScript s.host.script s = s := rfl

@[simp] theorem withScript_withScript (a b : List Stimulus) (s : State) :
    withScript a (withScript b s) = withScript a s := rfl

/-! ## The end of a request -/

section
variable (t : Target) (r : Regs) (performed : Bool)

@[simp] theorem retire_plan : (t.retire r performed).plan = t.plan.tail := rfl
@[simp] theorem retire_waited : (t.retire r performed).waited = 0 := rfl
@[simp] theorem retire_mem : (t.retire r performed).mem =
    (if performed && busWe r then writeWord t.mem (wordAddress r.address) r.value else t.mem) := rfl

end

end Sys2Proof.Machine
end

