-- ==== Sys2Proof/Laws/Ticks.lean ====
section
/-! SUPPORT. What one tick of the core and of the target can do, said once: the three branches of the tick's order
(42_protocol_fsm.md R71), the rule that runs in each protocol state, and the four things a tick does to the target. -/

namespace Sys2Proof.Machine

/-! ## The signals -/

/-- Rise and fall never come together (40_signal_recovery.md R58). -/
theorem fall_of_rise {r : Regs} (h : rise r = true) : fall r = false := by
  simp only [rise, fall, Bool.and_eq_true, Bool.not_eq_true'] at h ⊢
  simp [h.1]

theorem rise_of_fall {r : Regs} (h : fall r = true) : rise r = false := by
  cases hr : rise r
  · rfl
  · rw [fall_of_rise hr] at h
    contradiction

/-- The byte-boundary test is divisibility of the counter by 8. -/
theorem atByteBoundary_eq (r : Regs) : atByteBoundary r = decide (r.cnt.toNat % 8 = 0) := by
  rw [Bool.eq_iff_iff]
  simp [atByteBoundary, ← BitVec.toNat_inj]

/-- The read header's bits: zeros, and a one as the last. -/
theorem readHeaderBit_eq (c : BitVec 8) (h : c.toNat % 8 ≠ 0) :
    readHeaderBit (c.extractLsb' 0 3).toNat = decide (c.toNat % 8 = 7) := by
  have key : ∀ c : BitVec 8, c.toNat % 8 ≠ 0 →
      readHeaderBit (c.extractLsb' 0 3).toNat = decide (c.toNat % 8 = 7) := by decide
  exact key c h

/-! ## The order of a tick -/

section
variable {cfg : Config} {r : Regs} {i : Inputs}

theorem coreTick_rst (h : i.rst = true) : coreTick cfg r i = coreReset cfg r := by simp [coreTick, h]

theorem coreTick_release (h : i.rst = false) (hf : frameReset cfg r = true) :
    coreTick cfg r i = frameClear cfg (recover cfg r i) := by simp [coreTick, h, hf]

/-- Without `rst` and frame reset the state's rule decides, over the counted bit and the turnaround. -/
theorem coreTick_active (h : i.rst = false) (hf : frameReset cfg r = false) :
    coreTick cfg r i =
      stateRule cfg r i (turnaround r (countBit cfg r (shiftWindow cfg r (recover cfg r i)))) := by
  simp [coreTick, h, hf]

/-! ## The parts of a tick that do nothing in most states -/

theorem shiftWindow_of_ne_idle (w : Regs) (h : r.proto ≠ .idle) : shiftWindow cfg r w = w := by
  simp [shiftWindow, h]

theorem shiftWindow_of_frameSelect (w : Regs) (h : cfg.hasFrameSelect = true) : shiftWindow cfg r w = w := by
  simp [shiftWindow, h]

theorem countBit_of_not_rise (w : Regs) (h : rise r = false) : countBit cfg r w = w := by simp [countBit, h]

theorem countBit_of_rise (w : Regs) (h : rise r = true) (hc : cfg.hasFrameSelect = true ∨ r.proto ≠ .idle) :
    countBit cfg r w = { w with cnt := r.cnt + 1#8 } := by
  rcases hc with hc | hc <;> simp [countBit, h, hc]

theorem turnaround_of_not_fall (w : Regs) (h : fall r = false) : turnaround r w = w := by simp [turnaround, h]

theorem turnaround_of_proto (w : Regs) (h1 : r.proto ≠ .busWrite) (h2 : r.proto ≠ .busRead)
    (h3 : r.proto ≠ .waitByteBoundary) : turnaround r w = w := by simp [turnaround, h1, h2, h3]

/-- The states in which the core takes request bits (42_protocol_fsm.md section 5). -/
def takesRequestBits (r : Regs) : Bool :=
  r.proto == .getHeader || r.proto == .readAddress || r.proto == .readValue

/-- Without a rise a request state only moves the synchronizers. -/
theorem coreTick_request_noRise (h : i.rst = false) (hf : frameReset cfg r = false)
    (hp : takesRequestBits r = true) (hr : rise r = false) : coreTick cfg r i = recover cfg r i := by
  rw [coreTick_active h hf]
  simp only [takesRequestBits, Bool.or_eq_true, beq_iff_eq] at hp
  rcases hp with (hp | hp) | hp <;>
    rw [shiftWindow_of_ne_idle _ (by simp [hp]), countBit_of_not_rise _ hr,
      turnaround_of_proto _ (by simp [hp]) (by simp [hp]) (by simp [hp])] <;>
    simp [stateRule, hp, ruleGetHeader, ruleReadAddress, ruleReadValue, hr]

/-- Without a rise a request state raises nothing. -/
theorem raisedEvents_request_noRise (h : i.rst = false) (hf : frameReset cfg r = false)
    (hp : takesRequestBits r = true) (hr : rise r = false) : raisedEvents cfg r i = [] := by
  simp only [takesRequestBits, Bool.or_eq_true, beq_iff_eq] at hp
  rcases hp with (hp | hp) | hp <;> simp [raisedEvents, h, hf, hp, hr]

end

/-! ## The target -/

section
variable {t : Target} {r : Regs} {draw : Nat}

/-- No request: the target only forgets an age. -/
theorem target_tick_idle (cut : Bool) (h : busCyc r = false) : t.tick r cut draw = { t with waited := 0 } := by
  simp [Target.tick, h]

/-- A request cut short: a performed write or none, and the plan's next answer. -/
theorem target_tick_cut (h : busCyc r = true) :
    t.tick r true draw = t.retire r (t.current.performed.getD (Config.cutShortPerformed draw)) := by
  simp [Target.tick, h]

/-- A request that stands unanswered grows older. -/
theorem target_tick_wait (h : busCyc r = true) (ha : t.answers r = false) :
    t.tick r false draw = { t with waited := t.waited + 1 } := by
  simp [Target.tick, h, ha]

/-- A request that is answered ends. -/
theorem target_tick_answer (h : busCyc r = true) (ha : t.answers r = true) :
    t.tick r false draw =
      t.retire r (t.current.performed.getD (if t.current.kind = .ack then true else Config.errorWritePerformed draw)) := by
  simp [Target.tick, h, ha]

/-- A target without a request answers nothing. -/
theorem target_answers_idle (h : busCyc r = false) : t.answers r = false := by simp [Target.answers, h]

/-- When a target with a planned delay answers. -/
theorem target_answers_iff {d : Nat} (h : busCyc r = true) (hd : t.current.delay = some d) :
    t.answers r = decide (d ≤ t.waited) := by simp [Target.answers, h, hd]

/-- A target whose plan never answers. -/
theorem target_answers_never (hd : t.current.delay = none) : t.answers r = false := by simp [Target.answers, hd]

/-- An answer raises at least one completion line. -/
theorem target_completes (t : Target) (r : Regs) : (t.ack r || t.err r) = t.answers r := by
  cases h : t.answers r <;> cases hk : t.current.kind <;> simp [Target.ack, Target.err, h, hk]

end

/-! ## What the environment sees of the core (10_state.md R24) -/

/-- The host's part of a tick depends on the core through the data-out pin alone. -/
theorem hostTick_of_dataOutPin {s : State} {r : Regs} (p : Pins) (h : dataOutPin s.cfg r = dataOutPin s.cfg s.core) :
    hostTick p { s with core := r } = hostTick p s := by
  simp [hostTick, lineFight, h]

/-- The target's part of a tick depends on the core through the bus outputs alone. -/
theorem target_tick_of_busOut {t : Target} {r r' : Regs} (cut : Bool) (draw : Nat) (h : busOut r = busOut r') :
    t.tick r cut draw = t.tick r' cut draw := by
  simp only [busOut, BusOut.mk.injEq] at h
  obtain ⟨h1, -, h2, h3, h4, -⟩ := h
  simp [Target.tick, Target.retire, Target.answers, h1, h2, h3, h4]

end Sys2Proof.Machine
end

