-- ==== Sys2Proof/Laws/Driver.lean ====
section
/-! SUPPORT. The host's frame driver: holding pins is iterated ticks, clocking distributes over lists, and every property
that a tick keeps is kept by a whole frame and by a step. -/

namespace Sys2Proof.Machine

@[simp] theorem hold_zero (p : Pins) (s : State) : hold 0 p s = s := rfl

theorem hold_succ (n : Nat) (p : Pins) (s : State) : hold (n + 1) p s = hold n p (sysTick false p s) := rfl

theorem hold_add (m n : Nat) (p : Pins) (s : State) : hold (m + n) p s = hold n p (hold m p s) := by
  induction m generalizing s with
  | zero => simp
  | succ m ih => rw [show m + 1 + n = (m + n) + 1 by omega, hold_succ, hold_succ, ih]

@[simp] theorem clockBits_nil (s : State) : clockBits [] s = s := rfl

@[simp] theorem clockBits_cons (b : Bool) (bs : List Bool) (s : State) :
    clockBits (b :: bs) s = clockBits bs (clockBit (some b) s) := rfl

theorem clockBits_append (as bs : List Bool) (s : State) : clockBits (as ++ bs) s = clockBits bs (clockBits as s) := by
  induction as generalizing s with
  | nil => rfl
  | cons a as ih => exact ih (clockBit (some a) s)

theorem clockReleased_add (m n : Nat) (s : State) : clockReleased (m + n) s = clockReleased n (clockReleased m s) := by
  induction m generalizing s with
  | zero => simp [clockReleased]
  | succ m ih => rw [show m + 1 + n = (m + n) + 1 by omega, clockReleased, clockReleased, ih]

/-! ## Properties kept by every tick are kept by frames -/

section
variable {P : State → Prop} (htick : ∀ rst p s, P s → P (sysTick rst p s)) (hclear : ∀ s, P s → P (clearSamples s))

include htick

theorem hold_keeps (n : Nat) (p : Pins) {s : State} (h : P s) : P (hold n p s) := by
  induction n generalizing s with
  | zero => exact h
  | succ n ih => exact ih (htick false p s h)

theorem clockBit_keeps (d : Option Bool) {s : State} (h : P s) : P (clockBit d s) :=
  hold_keeps htick _ _ (hold_keeps htick _ _ h)

theorem clockBits_keeps (bs : List Bool) {s : State} (h : P s) : P (clockBits bs s) := by
  induction bs generalizing s with
  | nil => exact h
  | cons b bs ih => exact ih (clockBit_keeps htick (some b) h)

theorem clockReleased_keeps (n : Nat) {s : State} (h : P s) : P (clockReleased n s) := by
  induction n generalizing s with
  | zero => exact h
  | succ n ih => exact ih (clockBit_keeps htick none h)

theorem restLow_keeps {s : State} (h : P s) : P (restLow s) := hold_keeps htick _ _ h

theorem awaitResponse_keeps (n : Nat) {s : State} (h : P s) : P (awaitResponse n s) := by
  induction n generalizing s with
  | zero => exact h
  | succ n ih =>
    have h8 : P (clockReleased 8 s) := clockReleased_keeps htick 8 h
    simp only [awaitResponse]
    split
    · exact ih h8
    · split
      · exact clockReleased_keeps htick 32 h8
      · exact h8

include hclear

theorem openFrame_keeps {s : State} (h : P s) : P (openFrame s) := by
  unfold openFrame
  split
  · exact hclear _ (hold_keeps htick _ _ (hold_keeps htick _ _ h))
  · exact hclear _ h

theorem sendRequest_keeps (i : Instr) {s : State} (h : P s) : P (sendRequest i s) :=
  clockBits_keeps htick _ (openFrame_keeps htick hclear h)

theorem answeredFrame_keeps (i : Instr) {s : State} (h : P s) : P (answeredFrame i s) :=
  restLow_keeps htick (awaitResponse_keeps htick _ (sendRequest_keeps htick hclear i h))

theorem silentFrame_keeps (i : Instr) {s : State} (h : P s) : P (silentFrame i s) :=
  restLow_keeps htick (sendRequest_keeps htick hclear i h)

/-- exec of every instruction keeps what every tick keeps. -/
theorem exec_keeps (i : Instr) {s t : State} (h : P s) (he : exec i s = .next t) : P t := by
  cases i <;> (injection he with he; subst he)
  · exact answeredFrame_keeps htick hclear _ h
  · exact answeredFrame_keeps htick hclear _ h
  all_goals exact silentFrame_keeps htick hclear _ h

/-- A step keeps what every tick keeps and what does not depend on the host's script or samples. -/
theorem step_keeps (hscript : ∀ sc s, P s → P (withScript sc s)) {s t : State} (h : P s) (he : step s = .next t) :
    P t := by
  unfold step at he
  split at he
  · injection he with he; subst he; exact htick _ _ _ h
  · injection he with he; subst he; exact htick _ _ _ (hscript _ _ h)
  · injection he with he; subst he; exact restLow_keeps htick (clockBits_keeps htick _ (hscript _ _ h))
  · injection he with he; subst he; exact restLow_keeps htick (clockReleased_keeps htick _ (hscript _ _ h))
  · split at he
    · exact exec_keeps htick hclear _ (hscript _ _ h) he
    · injection he with he
      subst he
      exact restLow_keeps htick (clockBits_keeps htick _ (openFrame_keeps htick hclear (hscript _ _ h)))

end

end Sys2Proof.Machine
end

