-- ==== Sys2Proof/Laws/Request.lean ====
section
/-! SUPPORT. The request phase of a frame: what clocking one request bit does, and from it what the bits of a header, an
address and a value leave in the registers (42_protocol_fsm.md section 5). -/

namespace Sys2Proof.Machine

/-- The three clock stages are at one level: no edge is on its way. -/
def clockSettled (r : Regs) : Bool := r.clkS1 == r.clkS2 && r.clkS2 == r.clkPrev

/-- Frame-select, where there is one, is asserted at the pin and through the synchronizer. -/
def selectSteady (s : State) : Bool :=
  !s.cfg.hasFrameSelect || (!s.host.pins.csn && !s.core.csnS1 && !s.core.csnS2)

/-- The state in the tick whose rise samples a request bit: six ticks of the bit have moved nothing but the synchronizers
(the data stages hold the bit, the clock stages show the edge), and the host has taken its sample. -/
def beforeRise (b : Bool) (s : State) : State :=
  { s with
    core := { s.core with clkS1 := true, clkS2 := true, clkPrev := false, dinS1 := b, dinS2 := b }
    target := { s.target with waited := 0 }
    host := { s.host with
      pins := { sclk := true, csn := s.host.pins.csn, data := some b }
      rx := dataOutPin s.cfg s.core :: s.host.rx }
    board := s.board.advance 6 }

/-- The pins of a bit's high phase. -/
def highPins (b : Bool) (s : State) : Pins := { sclk := true, csn := s.host.pins.csn, data := some b }

theorem frameReset_of_selectSteady {s : State} (h : selectSteady s = true) : frameReset s.cfg s.core = false := by
  cases hc : s.cfg.hasFrameSelect <;> simp_all [frameReset, csn, selectSteady]

theorem busCyc_of_request {r : Regs} (h : takesRequestBits r = true) : busCyc r = false := by
  simp only [takesRequestBits, Bool.or_eq_true, beq_iff_eq] at h
  rcases h with (h | h) | h <;> simp [busCyc, h]

/-- One tick of a request state without a rise: the synchronizers move, the target stays idle, the host holds its pins. -/
theorem sysTick_request_noRise {s : State} (p : Pins) (hp : takesRequestBits s.core = true)
    (hf : frameReset s.cfg s.core = false) (hr : rise s.core = false) :
    sysTick false p s =
      { s with
        core := recover s.cfg s.core (inputsOf false p s)
        target := { s.target with waited := 0 }
        host := hostTick p s
        board := s.board.advance 1 } := by
  have hb := busCyc_of_request hp
  have hc : cutsShort false s = false := by simp [cutsShort, hf]
  simp [sysTick, coreTick_request_noRise (inputsOf_rst false p s) hf hp hr,
    raisedEvents_request_noRise (inputsOf_rst false p s) hf hp hr, hc, target_tick_idle false hb, Target.ends, hb]


/-- Before the turnaround the core requests no drive (45_response_encoder.md R102). -/
theorem dataOutPin_of_not_turned {cfg : Config} {r : Regs} (h : r.turned = false) :
    dataOutPin cfg r = adapterPin cfg false r.dout := by simp [dataOutPin, oe, h]

theorem adapterPin_shared (cfg : Config) (h : cfg.sharesDataLine = true) (l : Bool) : adapterPin cfg false l = none := by
  cases hw : cfg.wires <;> simp_all [Config.sharesDataLine, adapterPin]

/-- One tick of a request state without a rise, the core not turned around: everything spelled out. -/
theorem sysTick_request_quiet {s : State} (p : Pins) (b : Bool) (hd : p.data = some b)
    (hp : takesRequestBits s.core = true) (hq : selectSteady s = true) (hc : p.csn = s.host.pins.csn)
    (ht : s.core.turned = false) (hr : rise s.core = false) :
    sysTick false p s =
      { s with
        core := { s.core with
          clkS1 := p.sclk, clkS2 := s.core.clkS1, clkPrev := s.core.clkS2, dinS1 := b, dinS2 := s.core.dinS1 }
        target := { s.target with waited := 0 }
        host := { s.host with
          pins := p
          rx := if p.sclk && !s.host.pins.sclk then dataOutPin s.cfg s.core :: s.host.rx else s.host.rx }
        board := s.board.advance 1 } := by
  have hf : frameReset s.cfg s.core = false := by
    cases h : s.cfg.hasFrameSelect <;> simp_all [frameReset, csn, selectSteady]
  have hdin : dataInPin s.cfg s.core p.data s.board.level = b := by
    rw [dataInPin, dataOutPin_of_not_turned ht, hd]
    cases h : s.cfg.sharesDataLine
    · simp
    · simp [adapterPin_shared _ h]
  have hfight : lineFight s.cfg s.core p.data = false := by
    rw [lineFight, dataOutPin_of_not_turned ht]
    cases h : s.cfg.sharesDataLine
    · simp
    · simp [adapterPin_shared _ h]
  rw [sysTick_request_noRise p hp hf hr]
  congr 1
  · simp only [recover, inputsOf_rawClk, inputsOf_rawCsn, inputsOf_rawDin, hdin]
    cases h : s.cfg.hasFrameSelect <;> simp_all [selectSteady]
  · simp [hostTick, hfight]

/-- `s` with the synchronizer stages of clock and data, the host's pins and its samples as given, and an idle target. -/
def staged (s : State) (c1 c2 c3 d1 d2 : Bool) (p : Pins) (rx : List (Option Bool)) : State :=
  { s with
    core := { s.core with clkS1 := c1, clkS2 := c2, clkPrev := c3, dinS1 := d1, dinS2 := d2 }
    target := { s.target with waited := 0 }
    host := { s.host with pins := p, rx := rx } }

/-- Ticks without a rise move the stages along. -/
theorem sysTick_staged {s : State} (hp : takesRequestBits s.core = true) (hq : selectSteady s = true)
    (ht : s.core.turned = false) (n : Nat) (c1 c2 c3 d1 d2 b : Bool) (p p' : Pins) (rx : List (Option Bool))
    (hpin : p.csn = s.host.pins.csn) (hpin' : p'.csn = s.host.pins.csn) (hd : p'.data = some b) (hr : (c2 && !c3) = false) :
    sysTick false p' (staged (passed n s) c1 c2 c3 d1 d2 p rx) =
      staged (passed (n + 1) s) p'.sclk c1 c2 b d1 p' (if p'.sclk && !p.sclk then dataOutPin s.cfg s.core :: rx else rx) := by
  rw [sysTick_request_quiet (s := staged (passed n s) c1 c2 c3 d1 d2 p rx) p' b hd hp
    (by simpa [staged, selectSteady, hpin] using hq) (hpin'.trans hpin.symm) ht hr]
  simp [staged, passed]
  rfl

/-- One request bit is six synchronizer ticks, the tick of the rise, and one tick after it. -/
theorem clockBit_request {s : State} (b : Bool) (hp : takesRequestBits s.core = true)
    (hs : clockSettled s.core = true) (hq : selectSteady s = true) (ht : s.core.turned = false) :
    clockBit (some b) s = sysTick false (highPins b s) (sysTick false (highPins b s) (beforeRise b s)) := by
  simp only [clockSettled, Bool.and_eq_true, beq_iff_eq] at hs
  simp only [clockBit, lowTicks, highTicks, hold_succ, hold_zero, highPins]
  congr 2
  have step1 : sysTick false ⟨false, s.host.pins.csn, some b⟩ s =
      staged (passed 1 s) false s.core.clkS1 s.core.clkS2 b s.core.dinS1 ⟨false, s.host.pins.csn, some b⟩ s.host.rx :=
    sysTick_request_quiet ⟨false, s.host.pins.csn, some b⟩ b rfl hp hq rfl ht (by simp [rise, sclk, hs.2])
  have next := fun n c1 c2 c3 d1 d2 (l l' : Bool) rx =>
    sysTick_staged hp hq ht n c1 c2 c3 d1 d2 b ⟨l, s.host.pins.csn, some b⟩ ⟨l', s.host.pins.csn, some b⟩ rx rfl rfl rfl
  rw [step1, next _ _ _ _ _ _ _ _ _ (by simp [hs.1, hs.2]), next _ _ _ _ _ _ _ _ _ (by simp),
    next _ _ _ _ _ _ _ _ _ (by simp), next _ _ _ _ _ _ _ _ _ (by simp), next _ _ _ _ _ _ _ _ _ (by simp)]
  rfl

/-! ## One bit in each request state -/

/-- `s` at the end of a request bit: the stages high, the bit in the data stages, the host's sample taken. -/
def settledHigh (b : Bool) (s : State) : State :=
  staged (passed 8 s) true true true b b (highPins b s) (dataOutPin s.cfg s.core :: s.host.rx)

/-- The same state with other core registers. -/
def withCore (r : Regs) (s : State) : State := { s with core := r }

/-- The tick of the rise in a request state: the rule's registers, the moved stages, the host's pins and samples. -/
theorem riseTick_request {s : State} (b : Bool) (r' : Regs) (ev : List Event) (hp : takesRequestBits s.core = true)
    (hq : selectSteady s = true) (ht : s.core.turned = false)
    (hev : ∀ i, i.rst = false → raisedEvents s.cfg (beforeRise b s).core i = ev)
    (hrise : ∀ i : Inputs, i.rst = false → i.rawClk = true → i.rawDin = b →
      (s.cfg.hasFrameSelect = true → i.rawCsn = false) →
      coreTick s.cfg (beforeRise b s).core i =
        { r' with clkS1 := true, clkS2 := true, clkPrev := true, dinS1 := b, dinS2 := b }) :
    sysTick false (highPins b s) (beforeRise b s) =
      { staged (passed 7 (withCore r' s)) true true true b b (highPins b s) (dataOutPin s.cfg s.core :: s.host.rx) with
        events := ev ++ s.events } := by
  have hpin : dataInPin s.cfg (beforeRise b s).core (some b) (s.board.advance 6).level = b := by
    rw [dataInPin, dataOutPin_of_not_turned (by exact ht)]
    cases h : s.cfg.sharesDataLine
    · simp
    · simp [adapterPin_shared _ h]
  have hfight : lineFight s.cfg (beforeRise b s).core (some b) = false := by
    rw [lineFight, dataOutPin_of_not_turned (by exact ht)]
    cases h : s.cfg.sharesDataLine
    · simp
    · simp [adapterPin_shared _ h]
  have hf : frameReset s.cfg (beforeRise b s).core = false := frameReset_of_selectSteady hq
  have hb : busCyc (beforeRise b s).core = false := busCyc_of_request hp
  have hsel : s.cfg.hasFrameSelect = true → s.host.pins.csn = false := by
    intro h; simp_all [selectSteady]
  have hcore := hrise (inputsOf false (highPins b s) (beforeRise b s)) rfl rfl hpin hsel
  have hcut : cutsShort false (beforeRise b s) = false := by
    rw [cutsShort, show (beforeRise b s).cfg = s.cfg from rfl, hf]; rfl
  have hends : (beforeRise b s).target.ends (beforeRise b s).core false = false := by simp [Target.ends, hb]
  have hhost : hostTick (highPins b s) (beforeRise b s) =
      { s.host with pins := highPins b s, rx := dataOutPin s.cfg s.core :: s.host.rx } := by
    unfold hostTick
    rw [show (beforeRise b s).cfg = s.cfg from rfl, show (highPins b s).data = some b from rfl, hfight]
    simp [beforeRise]
  unfold sysTick
  rw [hcut, hends, hhost, target_tick_idle false hb, show (beforeRise b s).cfg = s.cfg from rfl, hcore,
    hev _ (inputsOf_rst false (highPins b s) (beforeRise b s)),
    show (beforeRise b s).board = s.board.advance 6 from rfl, Board.advance_advance]
  rfl

/-- The tick of the rise in a request state that stays one, and the tick after it. -/
theorem twoTicks_request {s : State} (b : Bool) (r' : Regs) (hp : takesRequestBits s.core = true)
    (hq : selectSteady s = true) (ht : s.core.turned = false)
    (hev : ∀ i, i.rst = false → raisedEvents s.cfg (beforeRise b s).core i = [])
    (hrise : ∀ i : Inputs, i.rst = false → i.rawClk = true → i.rawDin = b →
      (s.cfg.hasFrameSelect = true → i.rawCsn = false) →
      coreTick s.cfg (beforeRise b s).core i =
        { r' with clkS1 := true, clkS2 := true, clkPrev := true, dinS1 := b, dinS2 := b })
    (hp' : takesRequestBits r' = true) (ht' : r'.turned = false) (hc : r'.csnS1 = s.core.csnS1 ∧ r'.csnS2 = s.core.csnS2)
    (hd : r'.dout = s.core.dout) :
    sysTick false (highPins b s) (sysTick false (highPins b s) (beforeRise b s)) = settledHigh b (withCore r' s) := by
  have first : sysTick false (highPins b s) (beforeRise b s) =
      staged (passed 7 (withCore r' s)) true true true b b (highPins b s) (dataOutPin s.cfg s.core :: s.host.rx) :=
    riseTick_request b r' [] hp hq ht hev hrise
  rw [first]
  have hq' : selectSteady (withCore r' s) = true := by simpa [selectSteady, withCore, hc.1, hc.2] using hq
  rw [sysTick_staged (s := withCore r' s) hp' hq' ht' 7 true true true b b b (highPins b s) (highPins b s) _ rfl rfl rfl rfl]
  simp [settledHigh, highPins, withCore, staged, dataOutPin_of_not_turned ht, dataOutPin_of_not_turned ht', hd]

/-- The conditions under which a request bit is clocked: a request state, the clock settled, frame-select steady, the core
not turned around. -/
def requestReady (s : State) : Bool :=
  takesRequestBits s.core && clockSettled s.core && selectSteady s && !s.core.turned

theorem requestReady_iff {s : State} : requestReady s = true ↔
    takesRequestBits s.core = true ∧ clockSettled s.core = true ∧ selectSteady s = true ∧ s.core.turned = false := by
  simp [requestReady, and_assoc]

section
variable {s : State} {b : Bool} {i : Inputs}

/-- The frame-select stages keep their level over a tick of a steadily selected link. -/
theorem recover_steady (hq : selectSteady s = true) (hi : s.cfg.hasFrameSelect = true → i.rawCsn = false)
    (hclk : i.rawClk = true) (hdin : i.rawDin = b) :
    recover s.cfg (beforeRise b s).core i =
      { s.core with clkS1 := true, clkS2 := true, clkPrev := true, dinS1 := b, dinS2 := b } := by
  cases h : s.cfg.hasFrameSelect
  · simp [recover, beforeRise, h, hclk, hdin]
  · have hi' := hi h
    simp only [selectSteady, h, Bool.not_true, Bool.false_or, Bool.and_eq_true, Bool.not_eq_true'] at hq
    simp [recover, beforeRise, h, hclk, hdin, hi', hq.1.2, hq.2]

/-- The core's tick at the rise of a request bit: the state's rule over the moved synchronizers and the counted bit. -/
theorem coreTick_rise (hp : takesRequestBits s.core = true) (hq : selectSteady s = true) (hrst : i.rst = false)
    (hclk : i.rawClk = true) (hdin : i.rawDin = b) (hi : s.cfg.hasFrameSelect = true → i.rawCsn = false) :
    coreTick s.cfg (beforeRise b s).core i =
      stateRule s.cfg (beforeRise b s).core i
        { s.core with
          clkS1 := true, clkS2 := true, clkPrev := true, dinS1 := b, dinS2 := b, cnt := s.core.cnt + 1#8 } := by
  have hf : frameReset s.cfg (beforeRise b s).core = false := by
    cases h : s.cfg.hasFrameSelect <;> simp_all [frameReset, csn, selectSteady, beforeRise]
  have hr : rise (beforeRise b s).core = true := rfl
  have hp2 := hp
  simp only [takesRequestBits, Bool.or_eq_true, beq_iff_eq] at hp2
  rw [coreTick_active hrst hf, recover_steady hq hi hclk hdin]
  rcases hp2 with (h | h) | h <;>
    rw [shiftWindow_of_ne_idle _ (by simp [beforeRise, h]), countBit_of_rise _ hr (.inr (by simp [beforeRise, h])),
      turnaround_of_not_fall _ (fall_of_rise hr)] <;> simp [beforeRise]

/-- A header bit that is not the eighth. -/
theorem clockBit_header (hr : requestReady s = true) (hp : s.core.proto = .getHeader) (hc : s.core.cnt + 1#8 ≠ 8#8) :
    clockBit (some b) s =
      settledHigh b (withCore { s.core with command := shl1 s.core.command b, cnt := s.core.cnt + 1#8 } s) := by
  obtain ⟨h1, h2, h3, h4⟩ := requestReady_iff.mp hr
  rw [clockBit_request b h1 h2 h3 h4]
  refine twoTicks_request b _ h1 h3 h4 ?_ ?_ (by simp [takesRequestBits, hp]) h4 ⟨rfl, rfl⟩ rfl
  · intro i hi
    have hf : frameReset s.cfg (beforeRise b s).core = false := frameReset_of_selectSteady h3
    simp only [raisedEvents, hi, hf]
    simp [beforeRise, hp, hc]
  · intro i hrst hclk hdin hi
    rw [coreTick_rise h1 h3 hrst hclk hdin hi]
    simp [stateRule, beforeRise, hp, ruleGetHeader, rise, sclk, din, hc]

/-- The eighth header bit of a write or a read. -/
theorem clockBit_headerDecides (w : Bool) (hr : requestReady s = true) (hp : s.core.proto = .getHeader)
    (hc : s.core.cnt + 1#8 = 8#8) (hh : shl1 s.core.command b = if w then 0x00#8 else 0x01#8) :
    clockBit (some b) s =
      settledHigh b (withCore { s.core with
        command := if w then 0x00#8 else 0x01#8, cnt := 8#8, isWrite := w, proto := .readAddress } s) := by
  obtain ⟨h1, h2, h3, h4⟩ := requestReady_iff.mp hr
  rw [clockBit_request b h1 h2 h3 h4]
  refine twoTicks_request b _ h1 h3 h4 ?_ ?_ (by simp [takesRequestBits]) h4 ⟨rfl, rfl⟩ rfl
  · intro i hi
    have hf : frameReset s.cfg (beforeRise b s).core = false := frameReset_of_selectSteady h3
    simp only [raisedEvents, hi, hf]
    cases w <;> simp [beforeRise, hp, hc, hh, din]
  · intro i hrst hclk hdin hi
    rw [coreTick_rise h1 h3 hrst hclk hdin hi]
    cases w <;> simp [stateRule, beforeRise, hp, ruleGetHeader, rise, sclk, din, hc, hh]

/-- An address bit that is not the last. -/
theorem clockBit_address (hr : requestReady s = true) (hp : s.core.proto = .readAddress) (hc : s.core.cnt + 1#8 ≠ 40#8) :
    clockBit (some b) s =
      settledHigh b (withCore { s.core with address := shl1 s.core.address b, cnt := s.core.cnt + 1#8 } s) := by
  obtain ⟨h1, h2, h3, h4⟩ := requestReady_iff.mp hr
  rw [clockBit_request b h1 h2 h3 h4]
  refine twoTicks_request b _ h1 h3 h4 ?_ ?_ (by simp [takesRequestBits, hp]) h4 ⟨rfl, rfl⟩ rfl
  · intro i hi
    have hf : frameReset s.cfg (beforeRise b s).core = false := frameReset_of_selectSteady h3
    simp only [raisedEvents, hi, hf]
    simp [beforeRise, hp]
  · intro i hrst hclk hdin hi
    rw [coreTick_rise h1 h3 hrst hclk hdin hi]
    simp [stateRule, beforeRise, hp, ruleReadAddress, rise, sclk, din, hc]

/-- The last address bit of a write. -/
theorem clockBit_addressDone (hr : requestReady s = true) (hp : s.core.proto = .readAddress)
    (hc : s.core.cnt + 1#8 = 40#8) (hw : s.core.isWrite = true) :
    clockBit (some b) s =
      settledHigh b (withCore { s.core with address := shl1 s.core.address b, cnt := 40#8, proto := .readValue } s) := by
  obtain ⟨h1, h2, h3, h4⟩ := requestReady_iff.mp hr
  rw [clockBit_request b h1 h2 h3 h4]
  refine twoTicks_request b _ h1 h3 h4 ?_ ?_ (by simp [takesRequestBits]) h4 ⟨rfl, rfl⟩ rfl
  · intro i hi
    have hf : frameReset s.cfg (beforeRise b s).core = false := frameReset_of_selectSteady h3
    simp only [raisedEvents, hi, hf]
    simp [beforeRise, hp]
  · intro i hrst hclk hdin hi
    rw [coreTick_rise h1 h3 hrst hclk hdin hi]
    simp [stateRule, beforeRise, hp, ruleReadAddress, rise, sclk, din, hc, hw]

/-- A value bit that is not the last. -/
theorem clockBit_value (hr : requestReady s = true) (hp : s.core.proto = .readValue) (hc : s.core.cnt + 1#8 ≠ 72#8) :
    clockBit (some b) s =
      settledHigh b (withCore { s.core with value := shl1 s.core.value b, cnt := s.core.cnt + 1#8 } s) := by
  obtain ⟨h1, h2, h3, h4⟩ := requestReady_iff.mp hr
  rw [clockBit_request b h1 h2 h3 h4]
  refine twoTicks_request b _ h1 h3 h4 ?_ ?_ (by simp [takesRequestBits, hp]) h4 ⟨rfl, rfl⟩ rfl
  · intro i hi
    have hf : frameReset s.cfg (beforeRise b s).core = false := frameReset_of_selectSteady h3
    simp only [raisedEvents, hi, hf]
    simp [beforeRise, hp]
  · intro i hrst hclk hdin hi
    rw [coreTick_rise h1 h3 hrst hclk hdin hi]
    simp [stateRule, beforeRise, hp, ruleReadValue, rise, sclk, din, hc]

end

end Sys2Proof.Machine
end

