-- ==== Sys2Proof/Laws/RequestBits.lean ====
section
/-! SUPPORT. The bits of a request in a row: what the header, the address and the value leave in the registers
(42_protocol_fsm.md section 5), by induction over the bits. -/

namespace Sys2Proof.Machine

/-! ## The bits of a request in a row -/

/-- `t` is `s` after `n` request bits that left the frame registers as in `r`: the clock stages settled, the data stages
and the pins as the last bit left them, `n` samples of an undriven line, the board some ticks further, nothing else
changed. -/
def AfterBits (s : State) (r : Regs) (n : Nat) (t : State) : Prop :=
  ∃ m c d1 d2 w p, p.csn = s.host.pins.csn ∧ (0 < n → c = true ∧ w = 0) ∧
    t = { s with
      core := { r with clkS1 := c, clkS2 := c, clkPrev := c, dinS1 := d1, dinS2 := d2 }
      target := { s.target with waited := w }
      host := { s.host with pins := p, rx := List.replicate n (idleSample s.cfg) ++ s.host.rx }
      board := s.board.advance m }

/-- The registers of a request under way: frame-select steady, no turnaround, the idle level on `dout`. -/
def requestRegs (s : State) (r : Regs) : Bool :=
  takesRequestBits r && !r.turned && r.dout &&
    (!s.cfg.hasFrameSelect || (!s.host.pins.csn && !r.csnS1 && !r.csnS2))

theorem requestRegs_turned {s : State} {r : Regs} (h : requestRegs s r = true) : r.turned = false := by
  simp only [requestRegs, Bool.and_eq_true, Bool.not_eq_true'] at h
  exact h.1.1.2

theorem requestRegs_dout {s : State} {r : Regs} (h : requestRegs s r = true) : r.dout = true := by
  simp only [requestRegs, Bool.and_eq_true, Bool.not_eq_true'] at h
  exact h.1.2

/-- A state settled on its own is zero bits after itself. -/
theorem afterBits_refl {s : State} (h : clockSettled s.core = true) : AfterBits s s.core 0 s := by
  simp only [clockSettled, Bool.and_eq_true, beq_iff_eq] at h
  refine ⟨0, s.core.clkPrev, s.core.dinS1, s.core.dinS2, s.target.waited, s.host.pins, rfl, by simp, ?_⟩
  obtain ⟨cfg, ⟨⟩, target, host, board, draws, events⟩ := s
  simp_all

/-- One bit that a state's rule takes into the registers `r'`. -/
theorem afterBits_step {s t : State} {r r' : Regs} {n : Nat} {b : Bool} (h : AfterBits s r n t)
    (hr : requestRegs s r = true) (ht' : r'.turned = false) (hd' : r'.dout = true)
    (hstep : ∀ u : State, requestReady u = true → u.cfg = s.cfg →
      (∃ c d1 d2, u.core = { r with clkS1 := c, clkS2 := c, clkPrev := c, dinS1 := d1, dinS2 := d2 }) →
      clockBit (some b) u = settledHigh b (withCore { r' with
        clkS1 := u.core.clkS1, clkS2 := u.core.clkS2, clkPrev := u.core.clkPrev
        dinS1 := u.core.dinS1, dinS2 := u.core.dinS2 } u)) :
    AfterBits s r' (n + 1) (clockBit (some b) t) := by
  obtain ⟨m, c, d1, d2, w, p, hp, -, rfl⟩ := h
  simp only [requestRegs, Bool.and_eq_true, Bool.not_eq_true'] at hr
  obtain ⟨⟨⟨h1, h2⟩, h3⟩, h4⟩ := hr
  have hready : requestReady
      { s with
        core := { r with clkS1 := c, clkS2 := c, clkPrev := c, dinS1 := d1, dinS2 := d2 }
        target := { s.target with waited := w }
        host := { s.host with pins := p, rx := List.replicate n (idleSample s.cfg) ++ s.host.rx }
        board := s.board.advance m } = true :=
    requestReady_iff.mpr ⟨h1, by simp [clockSettled], by simpa [selectSteady, hp] using h4, h2⟩
  rw [hstep _ hready rfl ⟨c, d1, d2, rfl⟩]
  refine ⟨m + 8, true, b, b, 0, ⟨true, p.csn, some b⟩, hp, by simp, ?_⟩
  simp [settledHigh, passed, staged, withCore, highPins, List.replicate_succ, dataOutPin, oe, ht', hd', idleSample]

/-- Header bits before the eighth. -/
theorem afterBits_header {s : State} (bs : List Bool) : ∀ {t : State} {r : Regs} {n : Nat}, AfterBits s r n t →
    requestRegs s r = true → r.proto = .getHeader → r.cnt.toNat + bs.length < 8 →
    AfterBits s { r with command := bs.foldl shl1 r.command, cnt := r.cnt + BitVec.ofNat 8 bs.length } (n + bs.length)
      (clockBits bs t) := by
  induction bs with
  | nil => intro t r n h _ _ _; simpa using h
  | cons b bs ih =>
    intro t r n h hr hp hc
    simp only [List.length_cons] at hc
    have step := afterBits_step (b := b) (r' := { r with command := shl1 r.command b, cnt := r.cnt + 1#8 }) h hr (requestRegs_turned hr) (requestRegs_dout hr) (by
      rintro u hu - ⟨c, d1, d2, hcore⟩
      rw [clockBit_header hu (by simp [hcore, hp]) (by simp only [hcore]; bv_omega)]
      simp [hcore])
    have := ih step (by simpa [requestRegs, takesRequestBits] using hr) hp (by simp only; bv_omega)
    rw [clockBits_cons]
    have hn : n + (b :: bs).length = n + 1 + bs.length := by simp only [List.length_cons]; omega
    have hcnt : r.cnt + BitVec.ofNat 8 (b :: bs).length = r.cnt + 1#8 + BitVec.ofNat 8 bs.length := by
      simp only [List.length_cons]; bv_omega
    rw [hn, hcnt]
    exact this

/-- Address bits before the last. -/
theorem afterBits_address {s : State} (bs : List Bool) : ∀ {t : State} {r : Regs} {n : Nat}, AfterBits s r n t →
    requestRegs s r = true → r.proto = .readAddress → r.cnt.toNat + bs.length < 40 →
    AfterBits s { r with address := bs.foldl shl1 r.address, cnt := r.cnt + BitVec.ofNat 8 bs.length } (n + bs.length)
      (clockBits bs t) := by
  induction bs with
  | nil => intro t r n h _ _ _; simpa using h
  | cons b bs ih =>
    intro t r n h hr hp hc
    simp only [List.length_cons] at hc
    have step := afterBits_step (b := b) (r' := { r with address := shl1 r.address b, cnt := r.cnt + 1#8 }) h hr (requestRegs_turned hr) (requestRegs_dout hr) (by
      rintro u hu - ⟨c, d1, d2, hcore⟩
      rw [clockBit_address hu (by simp [hcore, hp]) (by simp only [hcore]; bv_omega)]
      simp [hcore])
    have := ih step (by simpa [requestRegs, takesRequestBits] using hr) hp (by simp only; bv_omega)
    rw [clockBits_cons]
    have hn : n + (b :: bs).length = n + 1 + bs.length := by simp only [List.length_cons]; omega
    have hcnt : r.cnt + BitVec.ofNat 8 (b :: bs).length = r.cnt + 1#8 + BitVec.ofNat 8 bs.length := by
      simp only [List.length_cons]; bv_omega
    rw [hn, hcnt]
    exact this

/-- Value bits before the last. -/
theorem afterBits_value {s : State} (bs : List Bool) : ∀ {t : State} {r : Regs} {n : Nat}, AfterBits s r n t →
    requestRegs s r = true → r.proto = .readValue → r.cnt.toNat + bs.length < 72 →
    AfterBits s { r with value := bs.foldl shl1 r.value, cnt := r.cnt + BitVec.ofNat 8 bs.length } (n + bs.length)
      (clockBits bs t) := by
  induction bs with
  | nil => intro t r n h _ _ _; simpa using h
  | cons b bs ih =>
    intro t r n h hr hp hc
    simp only [List.length_cons] at hc
    have step := afterBits_step (b := b) (r' := { r with value := shl1 r.value b, cnt := r.cnt + 1#8 }) h hr (requestRegs_turned hr) (requestRegs_dout hr) (by
      rintro u hu - ⟨c, d1, d2, hcore⟩
      rw [clockBit_value hu (by simp [hcore, hp]) (by simp only [hcore]; bv_omega)]
      simp [hcore])
    have := ih step (by simpa [requestRegs, takesRequestBits] using hr) hp (by simp only; bv_omega)
    rw [clockBits_cons]
    have hn : n + (b :: bs).length = n + 1 + bs.length := by simp only [List.length_cons]; omega
    have hcnt : r.cnt + BitVec.ofNat 8 (b :: bs).length = r.cnt + 1#8 + BitVec.ofNat 8 bs.length := by
      simp only [List.length_cons]; bv_omega
    rw [hn, hcnt]
    exact this

/-- The eighth header bit of a write or a read. -/
theorem afterBits_headerDecides {s t : State} {r : Regs} {n : Nat} {b : Bool} (w : Bool) (h : AfterBits s r n t)
    (hr : requestRegs s r = true) (hp : r.proto = .getHeader) (hc : r.cnt = 7#8)
    (hh : shl1 r.command b = if w then 0x00#8 else 0x01#8) :
    AfterBits s { r with command := if w then 0x00#8 else 0x01#8, cnt := 8#8, isWrite := w, proto := .readAddress } (n + 1)
      (clockBit (some b) t) := by
  have ht := requestRegs_turned hr
  have hd := requestRegs_dout hr
  refine afterBits_step h hr ht hd ?_
  rintro u hu - ⟨c, d1, d2, hcore⟩
  rw [clockBit_headerDecides w hu (by simp [hcore, hp]) (by simp [hcore, hc]) (by simpa [hcore] using hh)]
  simp [hcore]

/-- The last address bit of a write. -/
theorem afterBits_addressDone {s t : State} {r : Regs} {n : Nat} {b : Bool} (h : AfterBits s r n t)
    (hr : requestRegs s r = true) (hp : r.proto = .readAddress) (hc : r.cnt = 39#8) (hw : r.isWrite = true) :
    AfterBits s { r with address := shl1 r.address b, cnt := 40#8, proto := .readValue } (n + 1)
      (clockBit (some b) t) := by
  have ht := requestRegs_turned hr
  have hd := requestRegs_dout hr
  refine afterBits_step h hr ht hd ?_
  rintro u hu - ⟨c, d1, d2, hcore⟩
  rw [clockBit_addressDone hu (by simp [hcore, hp]) (by simp [hcore, hc]) (by simp [hcore, hw])]
  simp [hcore]

end Sys2Proof.Machine
end

