-- ==== Sys2Proof/Laws/Response.lean ====
section
/-! SUPPORT. A frame after its request: the ticks and bits of a bus access that stands, is answered, or waits for its byte
boundary (44_bus_adapter.md, 45_response_encoder.md section 3), and the bits of a response. -/

namespace Sys2Proof.Machine

/-! ## The core in the bus states and WAIT_BYTE_BOUNDARY -/

/-- The states between the last request bit and the first response bit. -/
def stalls (r : Regs) : Bool := r.proto == .busWrite || r.proto == .busRead || r.proto == .waitByteBoundary

/-- A tick of a stalled core that does not start the response: it counts and turns around, and a completion moves a bus
state on. -/
theorem coreTick_stall {cfg : Config} {r : Regs} {i : Inputs} (hrst : i.rst = false) (hf : frameReset cfg r = false)
    (hs : stalls r = true) (hw : r.proto = .waitByteBoundary → fall r = true → atByteBoundary r = false) :
    coreTick cfg r i =
      { recover cfg r i with
        proto := if busCyc r && (i.busAck || i.busErr) then .waitByteBoundary else r.proto
        value := if r.proto == .busRead && (i.busAck || i.busErr) then i.busDatR else r.value
        cnt := if rise r then r.cnt + 1#8 else r.cnt
        turned := r.turned || fall r } := by
  rw [coreTick_active hrst hf]
  simp only [stalls, Bool.or_eq_true, beq_iff_eq] at hs
  have hedge : rise r = true → fall r = false := fall_of_rise
  rcases hs with (h | h) | h
  all_goals
    rw [shiftWindow_of_ne_idle _ (by simp [h])]
    cases hr : rise r <;> cases hfl : fall r <;> simp [hr, hfl] at hedge <;>
      cases ha : i.busAck <;> cases he : i.busErr <;>
      simp_all [stateRule, turnaround, countBit, ruleBusWrite, ruleBusRead, ruleWaitByteBoundary, busCyc, recover]

/-- The events of a stalled tick: BusError with `bus_err` in a bus state. -/
theorem raisedEvents_stall {cfg : Config} {r : Regs} {i : Inputs} (hrst : i.rst = false) (hf : frameReset cfg r = false)
    (hs : stalls r = true) : raisedEvents cfg r i = if busCyc r && i.busErr then [.busError] else [] := by
  simp only [stalls, Bool.or_eq_true, beq_iff_eq] at hs
  rcases hs with (h | h) | h <;> simp [raisedEvents, hrst, hf, h, busCyc]

/-! ## The system while a request stands -/

/-- The target answers before the request has stood `n` ticks. -/
def answeredBefore (s : State) (n : Nat) : Bool :=
  match s.target.current.delay with
  | some d => decide (d < n)
  | none => false

theorem answeredBefore_succ {s : State} {n : Nat} (h : answeredBefore s n = true) : answeredBefore s (n + 1) = true := by
  unfold answeredBefore at *
  split <;> simp_all
  omega

/-- The registers `n` ticks after the request `r` came up, edges and turnaround apart. -/
def busRegs (s : State) (r : Regs) (n : Nat) : Regs :=
  if answeredBefore s n then
    { r with
      proto := .waitByteBoundary
      value := if r.proto == .busRead then latchedWord s r.address else r.value }
  else r

/-- The target then. -/
def busTarget (s : State) (r : Regs) (n : Nat) : Target :=
  if answeredBefore s n then
    { mem := if r.proto == .busWrite then memoryAfterWrite s r.address r.value else s.target.mem
      plan := s.target.plan.tail, waited := 0 }
  else { s.target with waited := n }

/-- The system `n` ticks after the request `r` came up in system `s`, with these synchronizer stages, pins and samples. -/
def busStage (s : State) (r : Regs) (n : Nat) (c1 c2 c3 d1 d2 : Bool) (p : Pins) (rx : List (Option Bool)) : State where
  cfg := s.cfg
  core := { busRegs s r n with clkS1 := c1, clkS2 := c2, clkPrev := c3, dinS1 := d1, dinS2 := d2 }
  target := busTarget s r n
  host := { s.host with pins := p, rx := rx }
  board := s.board.advance n
  draws := if answeredBefore s n then s.draws + 1 else s.draws
  events := (if answeredBefore s n then answerEvents s else []) ++ s.events

/-- Frame-select steady at the pin and in the stages. -/
def steady (cfg : Config) (r : Regs) (p : Pins) : Bool := !cfg.hasFrameSelect || (!p.csn && !r.csnS1 && !r.csnS2)

theorem recover_of_steady {cfg : Config} {r : Regs} {p : Pins} {i : Inputs} (h : steady cfg r p = true) (hi : i.rawCsn = p.csn) :
    recover cfg r i =
      { r with clkS1 := i.rawClk, clkS2 := r.clkS1, dinS1 := i.rawDin, dinS2 := r.dinS1, clkPrev := r.clkS2 } := by
  cases hc : cfg.hasFrameSelect <;> simp_all [recover, steady]

theorem frameReset_of_steady {cfg : Config} {r : Regs} {p : Pins} (h : steady cfg r p = true) : frameReset cfg r = false := by
  cases hc : cfg.hasFrameSelect <;> simp_all [frameReset, csn, steady]

theorem stalls_of_busCyc {r : Regs} (h : busCyc r = true) : stalls r = true := by
  simp only [busCyc, Bool.or_eq_true] at h
  rcases h with h | h <;> simp [stalls, h]

/-- In the stalled states the drive request is the turnaround. -/
theorem oe_of_stalls {r : Regs} (h : stalls r = true) : oe r = r.turned := by
  simp only [stalls, Bool.or_eq_true, beq_iff_eq] at h
  rcases h with (h | h) | h <;> simp [oe, h]

/-- No fight: the host does not drive, or the core does not. -/
theorem lineFight_none {cfg : Config} {r : Regs} {d : Option Bool} (h : d = none ∨ r.turned = false) :
    lineFight cfg r d = false := by
  rcases h with h | h
  · simp [lineFight, h]
  · rw [lineFight, dataOutPin_of_not_turned h]
    cases hc : cfg.sharesDataLine
    · simp
    · simp [adapterPin_shared _ hc]

/-- No fight either when the core requests no drive. -/
theorem lineFight_undriven {cfg : Config} {r : Regs} {d : Option Bool} (h : d = none ∨ oe r = false) :
    lineFight cfg r d = false := by
  rcases h with h | h
  · simp [lineFight, h]
  · rw [lineFight, dataOutPin, h]
    cases hc : cfg.sharesDataLine
    · simp
    · simp [adapterPin_shared _ hc]

theorem busRegs_turned (s : State) (r : Regs) (n : Nat) : (busRegs s r n).turned = r.turned := by
  unfold busRegs; split <;> rfl

theorem busRegs_dout (s : State) (r : Regs) (n : Nat) : (busRegs s r n).dout = r.dout := by
  unfold busRegs; split <;> rfl

theorem busRegs_cnt (s : State) (r : Regs) (n : Nat) : (busRegs s r n).cnt = r.cnt := by
  unfold busRegs; split <;> rfl

theorem steady_busRegs {s : State} {r : Regs} {p : Pins} (n : Nat) (h : steady s.cfg r p = true) :
    steady s.cfg (busRegs s r n) p = true := by
  unfold busRegs; split <;> simpa [steady] using h

/-- The core of a `busStage` is stalled. -/
theorem stalls_busRegs {s : State} {r : Regs} (n : Nat) (hb : busCyc r = true) : stalls (busRegs s r n) = true := by
  unfold busRegs
  split
  · simp [stalls]
  · exact stalls_of_busCyc hb

/-- What the core's tick of a `busStage` is, whatever the target does. -/
theorem coreTick_busStage {s : State} {r : Regs} {n : Nat} {c1 c2 c3 d1 d2 : Bool} {p p' : Pins} {rx : List (Option Bool)}
    (hb : busCyc r = true) (hq : steady s.cfg r p' = true)
    (hw : answeredBefore s n = true → (!c2 && c3) = true → r.cnt.toNat % 8 ≠ 0) :
    let u := busStage s r n c1 c2 c3 d1 d2 p rx
    let i := inputsOf false p' u
    coreTick s.cfg u.core i =
      { busRegs s r n with
        clkS1 := p'.sclk, clkS2 := c1, clkPrev := c2, dinS1 := i.rawDin, dinS2 := d1
        proto := if busCyc (busRegs s r n) && (i.busAck || i.busErr) then .waitByteBoundary else (busRegs s r n).proto
        value := if (busRegs s r n).proto == .busRead && (i.busAck || i.busErr) then i.busDatR else (busRegs s r n).value
        cnt := if c2 && !c3 then r.cnt + 1#8 else r.cnt
        turned := r.turned || (!c2 && c3) } := by
  intro u i
  have hst : stalls u.core = true := stalls_busRegs (s := s) n hb
  have hsteady : steady s.cfg u.core p' = true := steady_busRegs n hq
  rw [coreTick_stall rfl (frameReset_of_steady hsteady) hst, recover_of_steady hsteady rfl]
  · simp only [u, busStage, rise, fall, sclk, busRegs_cnt, busRegs_turned]
    rfl
  · intro hpr hfl
    rw [atByteBoundary_eq]
    have ha : answeredBefore s n = true := by
      by_contra hn
      have : (busRegs s r n).proto = .waitByteBoundary := hpr
      simp only [busRegs, if_neg hn] at this
      simp [busCyc, this] at hb
    have hc : u.core.cnt = r.cnt := busRegs_cnt s r n
    simpa [hc] using hw ha (by simpa [fall, sclk, u, busStage] using hfl)

/-- When a request that has stood `n` ticks is answered. -/
theorem answers_waiting {s : State} {r : Regs} {n : Nat} (hb : busCyc r = true) :
    ({ s.target with waited := n } : Target).answers r = answeredBefore s (n + 1) := by
  have hcur : ({ s.target with waited := n } : Target).current = s.target.current := rfl
  simp only [Target.answers, hb, Bool.true_and, hcur]
  unfold answeredBefore
  split <;> simp_all

/-- One tick of a standing or just answered request. -/
theorem sysTick_busStage {s : State} {r : Regs} {n : Nat} {c1 c2 c3 d1 d2 : Bool} {p p' : Pins} {rx : List (Option Bool)}
    (hb : busCyc r = true) (hq : steady s.cfg r p' = true) (hp : p'.data = none ∨ r.turned = false)
    (hw : answeredBefore s n = true → (!c2 && c3) = true → r.cnt.toNat % 8 ≠ 0) :
    ∃ x, sysTick false p' (busStage s r n c1 c2 c3 d1 d2 p rx) =
      busStage s { r with cnt := if c2 && !c3 then r.cnt + 1#8 else r.cnt, turned := r.turned || (!c2 && c3) } (n + 1)
        p'.sclk c1 c2 x d1 p' (if p'.sclk && !p.sclk then dataOutPin s.cfg r :: rx else rx) := by
  have hcore := coreTick_busStage (d1 := d1) (d2 := d2) (c1 := c1) (p := p) (rx := rx) hb hq hw
  refine ⟨(inputsOf false p' (busStage s r n c1 c2 c3 d1 d2 p rx)).rawDin, ?_⟩
  have hst := stalls_busRegs (s := s) n hb
  have hsteady := steady_busRegs n hq
  have hevents := raisedEvents_stall (i := inputsOf false p' (busStage s r n c1 c2 c3 d1 d2 p rx)) rfl
    (frameReset_of_steady (r := (busStage s r n c1 c2 c3 d1 d2 p rx).core) hsteady) hst
  have hcut : cutsShort false (busStage s r n c1 c2 c3 d1 d2 p rx) = false := by
    rw [cutsShort, Bool.false_or]
    exact frameReset_of_steady (r := (busStage s r n c1 c2 c3 d1 d2 p rx).core) hsteady
  have hpin : dataOutPin s.cfg (busStage s r n c1 c2 c3 d1 d2 p rx).core = dataOutPin s.cfg r := by
    rw [dataOutPin, dataOutPin, oe_of_stalls (r := (busStage s r n c1 c2 c3 d1 d2 p rx).core) hst,
      oe_of_stalls (stalls_of_busCyc hb)]
    exact congrArg₂ _ (busRegs_turned s r n) (busRegs_dout s r n)
  have hhost : hostTick p' (busStage s r n c1 c2 c3 d1 d2 p rx) =
      { s.host with pins := p', rx := if p'.sclk && !p.sclk then dataOutPin s.cfg r :: rx else rx } := by
    have hfight : lineFight s.cfg (busStage s r n c1 c2 c3 d1 d2 p rx).core p'.data = false :=
      lineFight_none (hp.imp id fun h => (busRegs_turned s r n).trans h)
    simp only [hostTick, show (busStage s r n c1 c2 c3 d1 d2 p rx).cfg = s.cfg from rfl, hfight, hpin]
    simp [busStage]
  unfold sysTick
  rw [show (busStage s r n c1 c2 c3 d1 d2 p rx).cfg = s.cfg from rfl, hcore, hhost, hcut, hevents,
    show (busStage s r n c1 c2 c3 d1 d2 p rx).board = s.board.advance n from rfl, Board.advance_advance]
  cases ha : answeredBefore s n
  · have hbu : busCyc (busStage s r n c1 c2 c3 d1 d2 p rx).core = true := by
      simpa [busStage, busRegs, ha, busCyc] using hb
    have hansu : (busStage s r n c1 c2 c3 d1 d2 p rx).target.answers (busStage s r n c1 c2 c3 d1 d2 p rx).core =
        answeredBefore s (n + 1) := by
      rw [← answers_waiting hbu]
      simp [busStage, busTarget, ha]
    have hcur : (busStage s r n c1 c2 c3 d1 d2 p rx).target.current = s.target.current := by
      simp [busStage, busTarget, ha, Target.current]
    have hack : (inputsOf false p' (busStage s r n c1 c2 c3 d1 d2 p rx)).busAck =
        (answeredBefore s (n + 1) && s.target.current.kind != .err) := by
      simp only [inputsOf, Target.ack, hansu, hcur]
    have herr : (inputsOf false p' (busStage s r n c1 c2 c3 d1 d2 p rx)).busErr =
        (answeredBefore s (n + 1) && s.target.current.kind != .ack) := by
      simp only [inputsOf, Target.err, hansu, hcur]
    have hdat : (inputsOf false p' (busStage s r n c1 c2 c3 d1 d2 p rx)).busDatR = latchedWord s r.address := by
      simp only [inputsOf, Target.data, hcur, latchedWord]
      simp [busStage, busTarget, busRegs, ha]
    have hregs : busRegs s r n = r := by simp [busRegs, ha]
    have hends : (busStage s r n c1 c2 c3 d1 d2 p rx).target.ends (busStage s r n c1 c2 c3 d1 d2 p rx).core false =
        answeredBefore s (n + 1) := by simp [Target.ends, hbu, hansu]
    rw [hack, herr, hdat, hregs, hb, hends]
    cases hn : answeredBefore s (n + 1)
    · rw [target_tick_wait hbu (hansu.trans hn)]
      simp [busStage, busRegs, busTarget, ha, hn]
    · rw [target_tick_answer hbu (hansu.trans hn), hcur]
      simp only [busCyc, Bool.or_eq_true, beq_iff_eq] at hb
      rcases hb with hb | hb <;> cases hk : s.target.current.kind <;>
        simp [busStage, busRegs, busTarget, ha, hn, hb, hk, Target.retire, busWe, memoryAfterWrite, writePerformed,
          answerEvents, busCyc]
  · have hn := answeredBefore_succ ha
    have hbu : busCyc (busStage s r n c1 c2 c3 d1 d2 p rx).core = false := by simp [busStage, busRegs, ha, busCyc]
    have hbr : busCyc (busRegs s r n) = false := by simp [busRegs, ha, busCyc]
    rw [target_tick_idle false hbu]
    simp only [Target.ends, hbu, hbr, Bool.false_and]
    simp [busStage, busRegs, busTarget, ha, hn]

/-- The system is settled with the clock high, `n` ticks after the request `r` came up in `s` (the board some ticks further);
`rx` are the host's samples. -/
def StalledAt (s : State) (r : Regs) (n : Nat) (rx : List (Option Bool)) (t : State) : Prop :=
  ∃ m d1 d2 p, p.csn = s.host.pins.csn ∧ t = busStage (passed m s) r n true true true d1 d2 p rx

/-- The pins of a released bit. -/
def releasedPins (level : Bool) (s : State) : Pins := { sclk := level, csn := s.host.pins.csn, data := none }

/-- A released bit while a request stands or waits for its byte boundary: the turnaround, a sample of the driven line, a
count. -/
theorem clockBit_busStage {s : State} {r : Regs} {n : Nat} {d1 d2 : Bool} {p : Pins} {rx : List (Option Bool)}
    (hp : p.csn = s.host.pins.csn) (hb : busCyc r = true) (hq : steady s.cfg r s.host.pins = true)
    (hw : answeredBefore s (n + 2) = true → r.cnt.toNat % 8 ≠ 0) :
    ∃ d1' d2' p', p'.csn = s.host.pins.csn ∧
      clockBit none (busStage s r n true true true d1 d2 p rx) =
        busStage s { r with cnt := r.cnt + 1#8, turned := true } (n + 8) true true true d1' d2' p'
          (dataOutPin s.cfg { r with turned := true } :: rx) := by
  have hlow : ({ sclk := false, csn := p.csn, data := none } : Pins) = releasedPins false s := by simp [releasedPins, hp]
  have hhigh : ({ sclk := true, csn := p.csn, data := none } : Pins) = releasedPins true s := by simp [releasedPins, hp]
  have quietTick : ∀ (r' : Regs) (m : Nat) (c1 c2 d1 d2 l : Bool) (p0 : Pins) (rx' : List (Option Bool)),
      busCyc r' = true → steady s.cfg r' s.host.pins = true →
      ∃ x, sysTick false (releasedPins l s) (busStage s r' m c1 c2 c2 d1 d2 p0 rx') =
        busStage s r' (m + 1) l c1 c2 x d1 (releasedPins l s)
          (if l && !p0.sclk then dataOutPin s.cfg r' :: rx' else rx') := by
    intro r' m c1 c2 d1 d2 l p0 rx' hb' hq'
    obtain ⟨x, hx⟩ := sysTick_busStage (s := s) (n := m) (c1 := c1) (c2 := c2) (c3 := c2) (d1 := d1) (d2 := d2) (p := p0)
      (p' := releasedPins l s) (rx := rx') hb' hq' (.inl rfl) (by simp)
    exact ⟨x, by rw [hx]; simp [releasedPins]⟩
  obtain ⟨x1, h1⟩ := quietTick r n true true d1 d2 false p rx hb hq
  obtain ⟨x2, h2⟩ := quietTick r (n + 1) false true x1 d1 false (releasedPins false s) rx hb hq
  obtain ⟨x3, h3⟩ := sysTick_busStage (s := s) (r := r) (n := n + 2) (c1 := false) (c2 := false) (c3 := true) (d1 := x2)
    (d2 := x1) (p := releasedPins false s) (p' := releasedPins false s) (rx := rx) hb hq (.inl rfl) (fun h _ => hw h)
  have hb' : busCyc { r with turned := true } = true := hb
  have hq' : steady s.cfg { r with turned := true } s.host.pins = true := hq
  obtain ⟨x4, h4⟩ := quietTick { r with turned := true } (n + 3) false false x3 x2 false (releasedPins false s) rx hb' hq'
  obtain ⟨x5, h5⟩ := quietTick { r with turned := true } (n + 4) false false x4 x3 true (releasedPins false s) rx hb' hq'
  obtain ⟨x6, h6⟩ := quietTick { r with turned := true } (n + 5) true false x5 x4 true (releasedPins true s)
    (dataOutPin s.cfg { r with turned := true } :: rx) hb' hq'
  obtain ⟨x7, h7⟩ := sysTick_busStage (s := s) (r := { r with turned := true }) (n := n + 6) (c1 := true) (c2 := true)
    (c3 := false) (d1 := x6) (d2 := x5) (p := releasedPins true s) (p' := releasedPins true s)
    (rx := dataOutPin s.cfg { r with turned := true } :: rx) hb' hq' (.inl rfl) (by simp)
  obtain ⟨x8, h8⟩ := quietTick { r with cnt := r.cnt + 1#8, turned := true } (n + 7) true true x7 x6 true
    (releasedPins true s) (dataOutPin s.cfg { r with turned := true } :: rx) hb hq
  refine ⟨x8, x7, releasedPins true s, rfl, ?_⟩
  simp only [clockBit, lowTicks, highTicks, hold_succ, hold_zero]
  rw [show (busStage s r n true true true d1 d2 p rx).host.pins.csn = p.csn from rfl, hlow, hhigh, h1]
  simp only [releasedPins, Bool.false_and, Bool.and_false, Bool.not_true, Bool.not_false, Bool.and_true, Bool.or_true,
    Bool.or_false, if_false, if_true, Bool.false_eq_true] at *
  rw [h2, h3, h4, h5, h6, h7, h8]

/-- The same of a settled system. -/
theorem stalled_bit {s t : State} {r : Regs} {n : Nat} {rx : List (Option Bool)} (h : StalledAt s r n rx t)
    (hb : busCyc r = true) (hq : steady s.cfg r s.host.pins = true)
    (hw : answeredBefore s (n + 2) = true → r.cnt.toNat % 8 ≠ 0) :
    StalledAt s { r with cnt := r.cnt + 1#8, turned := true } (n + 8)
      (dataOutPin s.cfg { r with turned := true } :: rx) (clockBit none t) := by
  obtain ⟨m, d1, d2, p, hp, rfl⟩ := h
  obtain ⟨d1', d2', p', hp', h⟩ := clockBit_busStage (s := passed m s) (d1 := d1) (d2 := d2) (rx := rx) hp hb hq hw
  exact ⟨m, d1', d2', p', hp', h⟩

/-- A driven pin shows the level, in every wire mode. -/
theorem adapterPin_driven (cfg : Config) (l : Bool) : adapterPin cfg true l = some l := by
  cases hw : cfg.wires <;> simp [adapterPin, hw]

theorem dataOutPin_stalled {cfg : Config} {r : Regs} (hb : busCyc r = true) (hd : r.dout = true) :
    dataOutPin cfg { r with turned := true } = some true := by
  rw [dataOutPin, oe_of_stalls (stalls_of_busCyc (r := { r with turned := true }) hb), adapterPin_driven]
  exact congrArg some hd

/-- `k` released bits of a stalled core that start off a byte boundary and reach at most the next. -/
theorem stalled_bits {s : State} (k : Nat) : ∀ {t : State} {r : Regs} {n : Nat} {rx : List (Option Bool)},
    StalledAt s r n rx t → busCyc r = true → steady s.cfg r s.host.pins = true → r.dout = true → r.turned = true →
    r.cnt.toNat % 8 + k ≤ 8 → 0 < r.cnt.toNat % 8 →
    StalledAt s { r with cnt := r.cnt + BitVec.ofNat 8 k } (n + 8 * k) (List.replicate k (some true) ++ rx)
      (clockReleased k t) := by
  induction k with
  | zero => intro t r n rx h _ _ _ _ _ _; simpa [clockReleased] using h
  | succ k ih =>
    intro t r n rx h hb hq hd ht hk hc
    have step := stalled_bit h hb hq (fun _ => by omega)
    rw [dataOutPin_stalled hb hd] at step
    have hr : ({ r with cnt := r.cnt + 1#8, turned := true } : Regs) = { r with cnt := r.cnt + 1#8 } := by rw [← ht]
    rw [hr] at step
    cases k with
    | zero => simpa [clockReleased] using step
    | succ k =>
      have := ih step hb hq hd ht (by simp only; bv_omega) (by simp only; bv_omega)
      have e1 : n + 8 + 8 * (k + 1) = n + 8 * (k + 1 + 1) := by omega
      have e2 : r.cnt + 1#8 + BitVec.ofNat 8 (k + 1) = r.cnt + BitVec.ofNat 8 (k + 1 + 1) := by bv_omega
      have e3 : List.replicate (k + 1) (some true) ++ some true :: rx = List.replicate (k + 1 + 1) (some true) ++ rx := by
        rw [List.replicate_succ' (n := k + 1)]; simp
      simp only [e1, e2, e3] at this
      exact this

/-- A whole fill byte. -/
theorem stalled_byte {s t : State} {r : Regs} {n : Nat} {rx : List (Option Bool)} (h : StalledAt s r n rx t)
    (hb : busCyc r = true) (hq : steady s.cfg r s.host.pins = true) (hd : r.dout = true) (hc : r.cnt.toNat % 8 = 0)
    (ha : answeredBefore s (n + 2) = false) :
    StalledAt s { r with cnt := r.cnt + 8#8, turned := true } (n + 64) (List.replicate 8 (some true) ++ rx)
      (clockReleased 8 t) := by
  have first := stalled_bit h hb hq (by simp [ha])
  rw [dataOutPin_stalled hb hd] at first
  have rest := stalled_bits (s := s) 7 first hb hq hd rfl (by simp only; bv_omega) (by simp only; bv_omega)
  have e : r.cnt + 1#8 + BitVec.ofNat 8 7 = r.cnt + 8#8 := by bv_omega
  simp only [e] at rest
  simpa [clockReleased] using rest

/-- The byte the host has read from its last eight samples. -/
theorem lastByte_samples (s : State) (b : Byte) (rx : List (Option Bool))
    (hrx : s.host.rx = ((bitsOfByte b).map some).reverse ++ rx) : lastByte s = b := by
  have key : ∀ b : Byte, (bitsOfByte b).foldl shl1 0#8 = b := by decide
  have htake : (((bitsOfByte b).map some).reverse ++ rx).take 8 = ((bitsOfByte b).map some).reverse := by
    rw [List.take_append_of_le_length (by simp [length_bitsOfByte])]
    exact List.take_of_length_le (by simp [length_bitsOfByte])
  have hread : ∀ l : List Bool, (l.map some).mapIdx (fun j sample => sampleLevel s.board j sample) = l := by
    intro l
    apply List.ext_getElem <;> simp [sampleLevel]
  rw [lastByte, hrx, htake, ← List.map_reverse, hread, List.reverse_reverse]
  exact key b

/-- Eight ones are the fill byte 0xFF. -/
theorem lastByte_ones (s : State) (rx : List (Option Bool)) (hrx : s.host.rx = List.replicate 8 (some true) ++ rx) :
    lastByte s = 0xFF#8 := lastByte_samples s 0xFF#8 rx hrx

theorem stalledAt_rx {s t : State} {r : Regs} {n : Nat} {rx : List (Option Bool)} (h : StalledAt s r n rx t) :
    t.host.rx = rx := by
  obtain ⟨e, d1, d2, p, -, rfl⟩ := h
  rfl

/-- `m` fill bytes are skipped by a host whose patience reaches past them. -/
theorem awaitResponse_fill {s : State} (k m : Nat) : ∀ {t : State} {r : Regs} {n : Nat} {rx : List (Option Bool)},
    StalledAt s r n rx t → busCyc r = true → steady s.cfg r s.host.pins = true → r.dout = true → r.cnt.toNat % 8 = 0 →
    (∀ j, j < m → answeredBefore s (n + 64 * j + 2) = false) →
    ∃ u, awaitResponse (m + k) t = awaitResponse k u ∧
      StalledAt s { r with cnt := r.cnt + BitVec.ofNat 8 (8 * m), turned := r.turned || decide (0 < m) } (n + 64 * m)
        (List.replicate (8 * m) (some true) ++ rx) u := by
  induction m with
  | zero => intro t r n rx h _ _ _ _ _; exact ⟨t, by simp, by simpa using h⟩
  | succ m ih =>
    intro t r n rx h hb hq hd hc ha
    have byte := stalled_byte h hb hq hd hc (by simpa using ha 0 (by omega))
    have hff : lastByte (clockReleased 8 t) = 0xFF#8 := lastByte_ones _ _ (stalledAt_rx byte)
    obtain ⟨u, hu, hs⟩ := ih byte hb hq hd (by simp only; bv_omega) (fun j hj => by
      have := ha (j + 1) (by omega)
      rwa [show n + 64 * (j + 1) + 2 = n + 64 + 64 * j + 2 by omega] at this)
    refine ⟨u, ?_, ?_⟩
    · rw [show m + 1 + k = (m + k) + 1 by omega, awaitResponse]
      simp only [hff, if_true]
      exact hu
    · have e1 : n + 64 + 64 * m = n + 64 * (m + 1) := by omega
      have e2 : r.cnt + 8#8 + BitVec.ofNat 8 (8 * m) = r.cnt + BitVec.ofNat 8 (8 * (m + 1)) := by
        rw [show 8 * (m + 1) = 8 * m + 8 by omega]; bv_omega
      have e3 : List.replicate (8 * m) (some true) ++ (List.replicate 8 (some true) ++ rx) =
          List.replicate (8 * (m + 1)) (some true) ++ rx := by
        rw [← List.append_assoc, List.replicate_append_replicate, show 8 * m + 8 = 8 * (m + 1) by omega]
      have e4 : (r.turned || decide (0 < m + 1)) = true := by simp
      simp only [e1, e2, e3, Bool.true_or] at hs
      rw [e4]
      exact hs

/-! ## The response -/

/-- The states that a response passes through, from WAIT_BYTE_BOUNDARY on; END only where it is held. -/
def responds (cfg : Config) (r : Regs) : Bool :=
  r.proto == .waitByteBoundary || r.proto == .writeWrResponse || r.proto == .writeResponse || r.proto == .writeValue ||
    (r.proto == .endFrame && cfg.hasFrameSelect)

/-- The registers after a fall in a responding state, by the model's rules. -/
def afterFall (r : Regs) : Regs :=
  let f := { r with clkS2 := false, clkPrev := true }
  match r.proto with
  | .waitByteBoundary => ruleWaitByteBoundary f { r with turned := true }
  | .writeWrResponse => ruleWriteWrResponse f r
  | .writeResponse => ruleWriteResponse f r
  | .writeValue => ruleWriteValue f r
  | _ => r

/-- The system in a responding state, the target idle, with these stages, pins and samples. -/
def responseStage (s : State) (r : Regs) (c1 c2 c3 d1 d2 : Bool) (p : Pins) (rx : List (Option Bool)) : State :=
  { s with
    core := { r with clkS1 := c1, clkS2 := c2, clkPrev := c3, dinS1 := d1, dinS2 := d2 }
    target := { s.target with waited := 0 }
    host := { s.host with pins := p, rx := rx } }

/-- What an edge makes of the registers. -/
def afterEdge (r : Regs) (c2 c3 : Bool) : Regs :=
  if !c2 && c3 then afterFall r else if c2 && !c3 then { r with cnt := r.cnt + 1#8 } else r

theorem coreTick_response {cfg : Config} {r : Regs} {i : Inputs} {c1 c2 c3 d1 d2 : Bool} (hrst : i.rst = false)
    (hq : cfg.hasFrameSelect = true → i.rawCsn = false ∧ r.csnS1 = false ∧ r.csnS2 = false)
    (hr : responds cfg r = true) :
    coreTick cfg { r with clkS1 := c1, clkS2 := c2, clkPrev := c3, dinS1 := d1, dinS2 := d2 } i =
      { afterEdge r c2 c3 with clkS1 := i.rawClk, clkS2 := c1, clkPrev := c2, dinS1 := i.rawDin, dinS2 := d1 } := by
  have hf : frameReset cfg { r with clkS1 := c1, clkS2 := c2, clkPrev := c3, dinS1 := d1, dinS2 := d2 } = false := by
    cases h : cfg.hasFrameSelect
    · simp [frameReset, h]
    · simp [frameReset, csn, (hq h).2.2]
  have hrec : recover cfg { r with clkS1 := c1, clkS2 := c2, clkPrev := c3, dinS1 := d1, dinS2 := d2 } i =
      { r with clkS1 := i.rawClk, clkS2 := c1, clkPrev := c2, dinS1 := i.rawDin, dinS2 := d1 } := by
    obtain ⟨⟩ := r
    cases h : cfg.hasFrameSelect <;> simp_all [recover]
  rw [coreTick_active hrst hf, hrec]
  simp only [responds, Bool.or_eq_true, Bool.and_eq_true, beq_iff_eq] at hr
  rcases hr with (((h | h) | h) | h) | ⟨h, hs⟩ <;> rw [shiftWindow_of_ne_idle _ (by simp [h])] <;>
    cases c2 <;> cases c3 <;>
    simp [stateRule, turnaround, countBit, afterEdge, afterFall, rise, fall, sclk, ruleWaitByteBoundary,
      ruleWriteWrResponse, ruleWriteResponse, ruleWriteValue, ruleEnd, atByteBoundary, *] <;>
    (try split) <;> (try split) <;> simp_all

theorem busCyc_of_responds {cfg : Config} {r : Regs} (h : responds cfg r = true) : busCyc r = false := by
  simp only [responds, Bool.or_eq_true, Bool.and_eq_true, beq_iff_eq] at h
  rcases h with (((h | h) | h) | h) | ⟨h, -⟩ <;> simp [busCyc, h]

/-- One tick in a responding state, the host or the core not driving. -/
theorem sysTick_response {s : State} {r : Regs} {c1 c2 c3 d1 d2 : Bool} {p p' : Pins} {rx : List (Option Bool)}
    (hr : responds s.cfg r = true) (hq : steady s.cfg r p' = true) (hp : p'.data = none ∨ oe r = false) :
    ∃ x, sysTick false p' (responseStage s r c1 c2 c3 d1 d2 p rx) =
      responseStage (passed 1 s) (afterEdge r c2 c3) p'.sclk c1 c2 x d1 p'
        (if p'.sclk && !p.sclk then dataOutPin s.cfg r :: rx else rx) := by
  have hq' : s.cfg.hasFrameSelect = true → p'.csn = false ∧ r.csnS1 = false ∧ r.csnS2 = false := by
    intro h; simp_all [steady]
  have hb : busCyc { r with clkS1 := c1, clkS2 := c2, clkPrev := c3, dinS1 := d1, dinS2 := d2 } = false :=
    busCyc_of_responds (cfg := s.cfg) (r := { r with clkS1 := c1, clkS2 := c2, clkPrev := c3, dinS1 := d1, dinS2 := d2 }) hr
  have hf : frameReset s.cfg { r with clkS1 := c1, clkS2 := c2, clkPrev := c3, dinS1 := d1, dinS2 := d2 } = false := by
    cases h : s.cfg.hasFrameSelect
    · simp [frameReset, h]
    · simp [frameReset, csn, (hq' h).2.2]
  have hev : ∀ i : Inputs, i.rst = false →
      raisedEvents s.cfg { r with clkS1 := c1, clkS2 := c2, clkPrev := c3, dinS1 := d1, dinS2 := d2 } i = [] := by
    intro i hi
    simp only [responds, Bool.or_eq_true, Bool.and_eq_true, beq_iff_eq] at hr
    rcases hr with (((h | h) | h) | h) | ⟨h, -⟩ <;> simp only [raisedEvents, hi, hf] <;> simp [h]
  refine ⟨(inputsOf false p' (responseStage s r c1 c2 c3 d1 d2 p rx)).rawDin, ?_⟩
  have hcore := coreTick_response (c1 := c1) (c2 := c2) (c3 := c3) (d1 := d1) (d2 := d2)
    (i := inputsOf false p' (responseStage s r c1 c2 c3 d1 d2 p rx)) rfl hq' hr
  have hhost : hostTick p' (responseStage s r c1 c2 c3 d1 d2 p rx) =
      { s.host with pins := p', rx := if p'.sclk && !p.sclk then dataOutPin s.cfg r :: rx else rx } := by
    have hfight : lineFight s.cfg (responseStage s r c1 c2 c3 d1 d2 p rx).core p'.data = false := lineFight_undriven hp
    simp only [hostTick, show (responseStage s r c1 c2 c3 d1 d2 p rx).cfg = s.cfg from rfl, hfight]
    simp [responseStage, dataOutPin, oe]
  have hcut : cutsShort false (responseStage s r c1 c2 c3 d1 d2 p rx) = false := by
    rw [cutsShort, Bool.false_or]; exact hf
  have hends : (responseStage s r c1 c2 c3 d1 d2 p rx).target.ends (responseStage s r c1 c2 c3 d1 d2 p rx).core false =
      false := by
    rw [Target.ends, show busCyc (responseStage s r c1 c2 c3 d1 d2 p rx).core = false from hb, Bool.false_and]
  unfold sysTick
  rw [hhost, hcut, hends, target_tick_idle false (r := (responseStage s r c1 c2 c3 d1 d2 p rx).core) hb,
    show raisedEvents (responseStage s r c1 c2 c3 d1 d2 p rx).cfg (responseStage s r c1 c2 c3 d1 d2 p rx).core
      (inputsOf false p' (responseStage s r c1 c2 c3 d1 d2 p rx)) = [] from hev _ rfl]
  exact State.mk.injEq .. |>.mpr ⟨rfl, hcore, rfl, rfl, rfl, rfl, rfl⟩

/-- The system is settled with the clock high in a responding state. -/
def RespondsAt (s : State) (r : Regs) (rx : List (Option Bool)) (t : State) : Prop :=
  ∃ m d1 d2 p, p.csn = s.host.pins.csn ∧ t = responseStage (passed m s) r true true true d1 d2 p rx

/-- A fall leaves frame-select and the counter alone. -/
theorem afterFall_frame (r : Regs) :
    (afterFall r).csnS1 = r.csnS1 ∧ (afterFall r).csnS2 = r.csnS2 ∧ (afterFall r).cnt = r.cnt ∧
      (afterFall r).isWrite = r.isWrite ∧ (afterFall r).value = r.value ∧ (afterFall r).command = r.command ∧
      (afterFall r).address = r.address ∧ (afterFall r).window = r.window := by
  unfold afterFall
  cases r.proto <;>
    simp only [ruleWaitByteBoundary, ruleWriteWrResponse, ruleWriteResponse, ruleWriteValue] <;>
    (try split) <;> (try split) <;> simp

theorem steady_afterFall {cfg : Config} {r : Regs} {p : Pins} (h : steady cfg r p = true) :
    steady cfg (afterFall r) p = true := by
  have hf := afterFall_frame r
  simpa [steady, hf.1, hf.2.1] using h

/-- Ticks of a released line in a responding state. -/
theorem response_tick {s : State} (m : Nat) (l : Bool) (r : Regs) (c1 c2 c3 d1 d2 : Bool) (p : Pins) (rx : List (Option Bool))
    (hr : responds s.cfg r = true) (hq : steady s.cfg r s.host.pins = true) :
    ∃ x, sysTick false (releasedPins l s) (responseStage (passed m s) r c1 c2 c3 d1 d2 p rx) =
      responseStage (passed (m + 1) s) (afterEdge r c2 c3) l c1 c2 x d1 (releasedPins l s)
        (if l && !p.sclk then dataOutPin s.cfg r :: rx else rx) :=
by
  have h := sysTick_response (s := passed m s) (r := r) (c1 := c1) (c2 := c2) (c3 := c3) (d1 := d1) (d2 := d2) (p := p)
    (p' := releasedPins l s) (rx := rx) hr hq (.inl rfl)
  rw [passed_passed] at h
  exact h

/-- The two low ticks up to a fall. -/
theorem response_toFall {s : State} (m : Nat) {r : Regs} {d1 d2 : Bool} {p : Pins} {rx : List (Option Bool)}
    (hr : responds s.cfg r = true) (hq : steady s.cfg r s.host.pins = true) :
    ∃ d1' d2', hold 2 (releasedPins false s) (responseStage (passed m s) r true true true d1 d2 p rx) =
      responseStage (passed (m + 2) s) r false false true d1' d2' (releasedPins false s) rx := by
  obtain ⟨x1, h1⟩ := response_tick m false r true true true d1 d2 p rx hr hq
  obtain ⟨x2, h2⟩ := response_tick (m + 1) false r false true true x1 d1 (releasedPins false s) rx hr hq
  refine ⟨x2, x1, ?_⟩
  simp only [hold_succ, hold_zero]
  simp only [afterEdge, Bool.false_and, Bool.and_false, Bool.not_true, if_false, Bool.false_eq_true] at *
  rw [h1, h2]

/-- The fall and the low tick after it. -/
theorem response_fall {s : State} (m : Nat) {r : Regs} {d1 d2 : Bool} {p : Pins} {rx : List (Option Bool)}
    (hr : responds s.cfg r = true) (hq : steady s.cfg r s.host.pins = true) (hr' : responds s.cfg (afterFall r) = true) :
    ∃ d1' d2', hold 2 (releasedPins false s) (responseStage (passed m s) r false false true d1 d2 p rx) =
      responseStage (passed (m + 2) s) (afterFall r) false false false d1' d2' (releasedPins false s) rx := by
  obtain ⟨x3, h3⟩ := response_tick m false r false false true d1 d2 p rx hr hq
  obtain ⟨x4, h4⟩ := response_tick (m + 1) false (afterFall r) false false false x3 d1 (releasedPins false s) rx hr'
    (steady_afterFall hq)
  refine ⟨x4, x3, ?_⟩
  simp only [hold_succ, hold_zero]
  simp only [afterEdge, Bool.false_and, Bool.and_false, Bool.not_false, Bool.and_true,
    if_false, if_true, Bool.false_eq_true] at *
  rw [h3, h4]

/-- The high phase: the host's sample and the count. -/
theorem response_high {s : State} (m : Nat) {r : Regs} {d1 d2 : Bool} {rx : List (Option Bool)}
    (hr : responds s.cfg r = true) (hq : steady s.cfg r s.host.pins = true) :
    ∃ d1' d2', hold highTicks (releasedPins true s)
        (responseStage (passed m s) r false false false d1 d2 (releasedPins false s) rx) =
      responseStage (passed (m + 4) s) { r with cnt := r.cnt + 1#8 } true true true d1' d2' (releasedPins true s)
        (dataOutPin s.cfg r :: rx) := by
  obtain ⟨x5, h5⟩ := response_tick m true r false false false d1 d2 (releasedPins false s) rx hr hq
  obtain ⟨x6, h6⟩ := response_tick (m + 1) true r true false false x5 d1 (releasedPins true s) (dataOutPin s.cfg r :: rx) hr hq
  obtain ⟨x7, h7⟩ := response_tick (m + 2) true r true true false x6 x5 (releasedPins true s) (dataOutPin s.cfg r :: rx) hr hq
  obtain ⟨x8, h8⟩ := response_tick (m + 3) true { r with cnt := r.cnt + 1#8 } true true true x7 x6 (releasedPins true s)
    (dataOutPin s.cfg r :: rx) hr hq
  refine ⟨x8, x7, ?_⟩
  simp only [highTicks, hold_succ, hold_zero]
  simp only [afterEdge, releasedPins, Bool.and_false, Bool.not_true, Bool.not_false, Bool.and_true,
    if_false, if_true, Bool.false_eq_true] at *
  rw [h5, h6, h7, h8]

/-- A released bit of a response: the fall drives, the host samples, the rise counts. -/
theorem response_bit {s t : State} {r : Regs} {rx : List (Option Bool)} (h : RespondsAt s r rx t)
    (hr : responds s.cfg r = true) (hq : steady s.cfg r s.host.pins = true)
    (hr' : responds s.cfg (afterFall r) = true) :
    RespondsAt s { afterFall r with cnt := r.cnt + 1#8 } (dataOutPin s.cfg (afterFall r) :: rx) (clockBit none t) := by
  obtain ⟨m, d1, d2, p, hp, rfl⟩ := h
  obtain ⟨a1, a2, h1⟩ := response_toFall m (d1 := d1) (d2 := d2) (p := p) (rx := rx) hr hq
  obtain ⟨b1, b2, h2⟩ := response_fall (m + 2) (d1 := a1) (d2 := a2) (p := releasedPins false s) (rx := rx) hr hq hr'
  obtain ⟨e1, e2, h3⟩ := response_high (m + 4) (d1 := b1) (d2 := b2) (rx := rx) hr' (steady_afterFall hq)
  refine ⟨m + 8, e1, e2, releasedPins true s, rfl, ?_⟩
  have hpins : ∀ l, ({ sclk := l, csn := (responseStage (passed m s) r true true true d1 d2 p rx).host.pins.csn, data := none } : Pins) =
      releasedPins l s := fun l => by simp [responseStage, releasedPins, hp]
  rw [clockBit, hpins, hpins, show lowTicks = 2 + 2 from rfl, hold_add, h1, h2, h3, (afterFall_frame r).2.2.1]

/-! ## From the access to the response -/

/-- The system after the access that the request `r` made in `s`. -/
def accessed (s : State) (r : Regs) : State :=
  { s with
    target :=
      { mem := if r.proto == .busWrite then memoryAfterWrite s r.address r.value else s.target.mem
        plan := s.target.plan.tail, waited := 0 }
    draws := s.draws + 1
    events := answerEvents s ++ s.events }

/-- The registers of the answered request. -/
def waiting (s : State) (r : Regs) : Regs :=
  { r with proto := .waitByteBoundary, value := if r.proto == .busRead then latchedWord s r.address else r.value }

/-- An answered request is a responding system. -/
theorem busStage_answered {s : State} {r : Regs} {n : Nat} (ha : answeredBefore s n = true) (c1 c2 c3 d1 d2 : Bool)
    (p : Pins) (rx : List (Option Bool)) :
    busStage s r n c1 c2 c3 d1 d2 p rx = responseStage (passed n (accessed s r)) (waiting s r) c1 c2 c3 d1 d2 p rx := by
  simp [busStage, busRegs, busTarget, ha, responseStage, accessed, waiting]

/-- The bit in which the response starts: a fall on a byte boundary with the answer in by then. -/
theorem stalled_start {s t : State} {r : Regs} {n : Nat} {rx : List (Option Bool)} (h : StalledAt s r n rx t)
    (hb : busCyc r = true) (hq : steady s.cfg r s.host.pins = true) (ha : answeredBefore s (n + 2) = true)
    (hr' : responds s.cfg (afterFall (waiting s r)) = true) :
    RespondsAt (accessed s r) { afterFall (waiting s r) with cnt := r.cnt + 1#8 }
      (dataOutPin s.cfg (afterFall (waiting s r)) :: rx) (clockBit none t) := by
  obtain ⟨m, d1, d2, p, hp, rfl⟩ := h
  obtain ⟨x1, h1⟩ := sysTick_busStage (s := passed m s) (n := n) (c1 := true) (c2 := true) (c3 := true) (d1 := d1) (d2 := d2) (p := p)
    (p' := releasedPins false s) (rx := rx) hb hq (.inl rfl) (by simp)
  obtain ⟨x2, h2⟩ := sysTick_busStage (s := passed m s) (r := r) (n := n + 1) (c1 := false) (c2 := true) (c3 := true) (d1 := x1) (d2 := d1)
    (p := releasedPins false s) (p' := releasedPins false s) (rx := rx) hb hq (.inl rfl) (by simp)
  have hw : responds (accessed s r).cfg (waiting s r) = true := by simp [responds, waiting]
  have hqw : steady (accessed s r).cfg (waiting s r) (accessed s r).host.pins = true := hq
  obtain ⟨b1, b2, h3⟩ := response_fall (s := accessed s r) (m + (n + 2)) (d1 := x2) (d2 := x1) (p := releasedPins false (accessed s r))
    (rx := rx) hw hqw hr'
  obtain ⟨e1, e2, h4⟩ := response_high (s := accessed s r) (m + (n + 2) + 2) (d1 := b1) (d2 := b2) (rx := rx) hr' (steady_afterFall hqw)
  refine ⟨m + (n + 2) + 2 + 4, e1, e2, releasedPins true s, rfl, ?_⟩
  have hpins : ∀ l, ({ sclk := l, csn := (busStage (passed m s) r n true true true d1 d2 p rx).host.pins.csn, data := none } : Pins) =
      releasedPins l s := fun l => by simp [busStage, releasedPins, hp]
  have h12 : hold 2 (releasedPins false s) (busStage (passed m s) r n true true true d1 d2 p rx) =
      responseStage (passed (m + (n + 2)) (accessed s r)) (waiting s r) false false true x2 x1 (releasedPins false s) rx := by
    rw [← passed_passed, show passed m (accessed s r) = accessed (passed m s) r from rfl,
      show waiting s r = waiting (passed m s) r from rfl,
      ← busStage_answered (s := passed m s) (r := r) ha]
    simp only [hold_succ, hold_zero]
    simp only [releasedPins, Bool.false_and, Bool.and_false, Bool.not_true, Bool.or_false, if_false,
      Bool.false_eq_true] at *
    rw [h1, h2]
  rw [clockBit, hpins, hpins, show lowTicks = 2 + 2 from rfl, hold_add, h12]
  have hrel : ∀ l, releasedPins l s = releasedPins l (accessed s r) := fun l => rfl
  rw [hrel, hrel, h3, h4, (afterFall_frame _).2.2.1]
  rfl

/-! ## The bits of a response -/

/-- A response drives what `dout` holds. -/
theorem dataOutPin_responding {cfg : Config} {r : Regs} (h : r.proto = .writeWrResponse ∨ r.proto = .writeResponse ∨ r.proto = .writeValue)
    (ht : r.turned = true) : dataOutPin cfg r = some r.dout := by
  have : oe r = true := by rcases h with h | h | h <;> simp [oe, h, ht]
  rw [dataOutPin, this, adapterPin_driven]

/-- The fall that starts a response. -/
theorem afterFall_wait {r : Regs} (hp : r.proto = .waitByteBoundary) (hc : r.cnt.toNat % 8 = 0) :
    afterFall r =
      { r with turned := true, dout := false, proto := if r.isWrite then .writeWrResponse else .writeResponse } := by
  simp only [afterFall, hp, ruleWaitByteBoundary, atByteBoundary_eq, hc, fall, sclk]
  rfl

/-- A fall in the write acknowledgement. -/
theorem afterFall_ack {r : Regs} (hp : r.proto = .writeWrResponse) :
    afterFall r =
      { r with dout := false, proto := if r.cnt.toNat % 8 = 0 then .endFrame else .writeWrResponse } := by
  by_cases hc : r.cnt.toNat % 8 = 0 <;>
    simp only [afterFall, hp, ruleWriteWrResponse, atByteBoundary_eq, hc, fall, sclk] <;> simp

/-- A fall in the middle of the read header. -/
theorem afterFall_header {r : Regs} (hp : r.proto = .writeResponse) (hc : r.cnt.toNat % 8 ≠ 0) :
    afterFall r = { r with dout := decide (r.cnt.toNat % 8 = 7) } := by
  simp only [afterFall, hp, ruleWriteResponse, atByteBoundary_eq, readHeaderBit_eq _ hc, fall, sclk]
  simp [hc]

/-- The fall after the read header. -/
theorem afterFall_headerDone {r : Regs} (hp : r.proto = .writeResponse) (hc : r.cnt.toNat % 8 = 0) :
    afterFall r = { r with proto := .writeValue, dout := r.value.getLsbD 31, woff := 31#5 } := by
  simp only [afterFall, hp, ruleWriteResponse, atByteBoundary_eq, hc, fall, sclk]
  simp

/-- A fall in the value. -/
theorem afterFall_value {r : Regs} (hp : r.proto = .writeValue) (hw : r.woff ≠ 0#5) :
    afterFall r = { r with dout := r.value.getLsbD (r.woff.toNat - 1), woff := r.woff - 1#5 } := by
  simp [afterFall, hp, ruleWriteValue, fall, sclk, hw]

/-- The fall after the value. -/
theorem afterFall_valueDone {r : Regs} (hp : r.proto = .writeValue) (hw : r.woff = 0#5) :
    afterFall r = { r with dout := false, proto := .endFrame } := by
  simp [afterFall, hp, ruleWriteValue, fall, sclk, hw]

/-- Bits of the write acknowledgement after the first. -/
theorem ack_bits {s : State} (k : Nat) : ∀ {t : State} {r : Regs} {rx : List (Option Bool)}, RespondsAt s r rx t →
    r.proto = .writeWrResponse → r.turned = true → r.dout = false → steady s.cfg r s.host.pins = true →
    0 < r.cnt.toNat % 8 → r.cnt.toNat % 8 + k ≤ 8 →
    RespondsAt s { r with cnt := r.cnt + BitVec.ofNat 8 k } (List.replicate k (some false) ++ rx) (clockReleased k t) := by
  induction k with
  | zero => intro t r rx h _ _ _ _ _ _; simpa [clockReleased] using h
  | succ k ih =>
    intro t r rx h hp ht hd hq hc hk
    have hfall : afterFall r = r := by
      rw [afterFall_ack hp, if_neg (by omega), ← hp, ← hd]
    have step := response_bit h (by simp [responds, hp]) hq (by rw [hfall]; simp [responds, hp])
    rw [hfall, dataOutPin_responding (.inl hp) ht, hd] at step
    cases k with
    | zero => simpa [clockReleased] using step
    | succ k =>
      have := ih step hp ht hd hq (by simp only; bv_omega) (by simp only; bv_omega)
      have e2 : r.cnt + 1#8 + BitVec.ofNat 8 (k + 1) = r.cnt + BitVec.ofNat 8 (k + 1 + 1) := by bv_omega
      have e3 : List.replicate (k + 1) (some false) ++ some false :: rx = List.replicate (k + 1 + 1) (some false) ++ rx := by
        rw [List.replicate_succ' (n := k + 1)]; simp
      simp only [e2, e3] at this
      exact this

/-- One bit of the read header after the first: zeros, and a one before the byte boundary. -/
theorem header_bit {s t : State} {r : Regs} {rx : List (Option Bool)} (h : RespondsAt s r rx t)
    (hp : r.proto = .writeResponse) (ht : r.turned = true) (hq : steady s.cfg r s.host.pins = true)
    (hc : r.cnt.toNat % 8 ≠ 0) :
    RespondsAt s { r with dout := decide (r.cnt.toNat % 8 = 7), cnt := r.cnt + 1#8 }
      (some (decide (r.cnt.toNat % 8 = 7)) :: rx) (clockBit none t) := by
  have hfall := afterFall_header hp hc
  have step := response_bit h (by simp [responds, hp]) hq (by rw [hfall]; simp [responds, hp])
  rw [dataOutPin_responding (r := afterFall r) (by rw [hfall]; exact .inr (.inl hp)) (by rw [hfall]; exact ht)] at step
  rwa [hfall] at step

/-- The bit after the read header: the value's most significant bit. -/
theorem first_value_bit {s t : State} {r : Regs} {rx : List (Option Bool)} (h : RespondsAt s r rx t)
    (hp : r.proto = .writeResponse) (ht : r.turned = true) (hq : steady s.cfg r s.host.pins = true)
    (hc : r.cnt.toNat % 8 = 0) :
    RespondsAt s { r with proto := .writeValue, dout := r.value.getLsbD 31, woff := 31#5, cnt := r.cnt + 1#8 }
      (some (r.value.getLsbD 31) :: rx) (clockBit none t) := by
  have hfall := afterFall_headerDone hp hc
  have step := response_bit h (by simp [responds, hp]) hq (by rw [hfall]; simp [responds])
  rw [dataOutPin_responding (r := afterFall r) (by rw [hfall]; exact .inr (.inr rfl)) (by rw [hfall]; exact ht)] at step
  rwa [hfall] at step

/-- The value bits after the first, `k` of them. -/
theorem value_bits {s : State} (k : Nat) : ∀ {t : State} {r : Regs} {rx : List (Option Bool)}, RespondsAt s r rx t →
    r.proto = .writeValue → r.turned = true → r.dout = r.value.getLsbD r.woff.toNat →
    steady s.cfg r s.host.pins = true → k ≤ r.woff.toNat →
    RespondsAt s { r with
        woff := r.woff - BitVec.ofNat 5 k, dout := r.value.getLsbD (r.woff.toNat - k), cnt := r.cnt + BitVec.ofNat 8 k }
      (((List.range k).map fun j => some (r.value.getLsbD (r.woff.toNat - 1 - j))).reverse ++ rx) (clockReleased k t) := by
  induction k with
  | zero => intro t r rx h _ _ hd _ _; obtain ⟨⟩ := r; simp_all [clockReleased]
  | succ k ih =>
    intro t r rx h hp ht hd hq hk
    have hne : r.woff ≠ 0#5 := by intro h0; simp [h0] at hk
    have hfall := afterFall_value hp hne
    have step := response_bit h (by simp [responds, hp]) hq (by rw [hfall]; simp [responds, hp])
    rw [dataOutPin_responding (r := afterFall r) (by rw [hfall]; exact .inr (.inr hp)) (by rw [hfall]; exact ht), hfall] at step
    have hw : (r.woff - 1#5).toNat = r.woff.toNat - 1 := by bv_omega
    have := ih step hp ht (by simp only [hw]) hq (by simp only [hw]; omega)
    simp only [hw] at this
    have e1 : r.woff - 1#5 - BitVec.ofNat 5 k = r.woff - BitVec.ofNat 5 (k + 1) := by bv_omega
    have e2 : r.cnt + 1#8 + BitVec.ofNat 8 k = r.cnt + BitVec.ofNat 8 (k + 1) := by bv_omega
    have e3 : r.woff.toNat - 1 - k = r.woff.toNat - (k + 1) := by omega
    have e4 : ((List.range k).map fun j => some (r.value.getLsbD (r.woff.toNat - 1 - 1 - j))).reverse ++
          some (r.value.getLsbD (r.woff.toNat - 1)) :: rx =
        ((List.range (k + 1)).map fun j => some (r.value.getLsbD (r.woff.toNat - 1 - j))).reverse ++ rx := by
      rw [List.range_succ_eq_map]
      simp [Function.comp_def, Nat.sub_sub, Nat.add_comm]
      intro a _
      congr 1
      omega
    simp only [e1, e2, e3, e4] at this
    exact this

/-! ## The end of a frame -/

/-- Two-wire END clears the frame at its first tick. -/
theorem sysTick_rearm {s : State} {r : Regs} {c1 c2 c3 d1 d2 : Bool} {p p' : Pins} {rx : List (Option Bool)}
    (hr : r.proto = .endFrame) (hq : s.cfg.hasFrameSelect = false) :
    ∃ x, sysTick false p' (responseStage s r c1 c2 c3 d1 d2 p rx) =
      responseStage (passed 1 s) (frameClear s.cfg r) p'.sclk c1 c2 x d1 p'
        (if p'.sclk && !p.sclk then dataOutPin s.cfg r :: rx else rx) := by
  refine ⟨(inputsOf false p' (responseStage s r c1 c2 c3 d1 d2 p rx)).rawDin, ?_⟩
  have hhost : hostTick p' (responseStage s r c1 c2 c3 d1 d2 p rx) =
      { s.host with pins := p', rx := if p'.sclk && !p.sclk then dataOutPin s.cfg r :: rx else rx } := by
    have hfight : lineFight s.cfg (responseStage s r c1 c2 c3 d1 d2 p rx).core p'.data = false :=
      lineFight_undriven (.inr (by simp [oe, responseStage, hr]))
    simp only [hostTick, show (responseStage s r c1 c2 c3 d1 d2 p rx).cfg = s.cfg from rfl, hfight]
    simp [responseStage, dataOutPin, oe]
  have hb : busCyc (responseStage s r c1 c2 c3 d1 d2 p rx).core = false := by simp [busCyc, responseStage, hr]
  have hf : frameReset s.cfg (responseStage s r c1 c2 c3 d1 d2 p rx).core = false := by simp [frameReset, hq]
  have hcut : cutsShort false (responseStage s r c1 c2 c3 d1 d2 p rx) = false := hf
  have hends : (responseStage s r c1 c2 c3 d1 d2 p rx).target.ends (responseStage s r c1 c2 c3 d1 d2 p rx).core false =
      false := by rw [Target.ends, hb, Bool.false_and]
  have hev : raisedEvents s.cfg (responseStage s r c1 c2 c3 d1 d2 p rx).core
      (inputsOf false p' (responseStage s r c1 c2 c3 d1 d2 p rx)) = [] := by
    simp only [raisedEvents, hf]
    simp [responseStage, hr]
  have hcore : coreTick s.cfg (responseStage s r c1 c2 c3 d1 d2 p rx).core
      (inputsOf false p' (responseStage s r c1 c2 c3 d1 d2 p rx)) =
      { frameClear s.cfg r with
        clkS1 := p'.sclk, clkS2 := c1, clkPrev := c2
        dinS1 := (inputsOf false p' (responseStage s r c1 c2 c3 d1 d2 p rx)).rawDin, dinS2 := d1 } := by
    rw [coreTick_active rfl hf, shiftWindow_of_ne_idle _ (by simp [responseStage, hr])]
    simp [stateRule, responseStage, hr, ruleEnd, hq, frameClear, turnaround, countBit, recover]
    cases c2 <;> cases c3 <;> simp [rise, sclk]
  unfold sysTick
  rw [hhost, hcut, hends, target_tick_idle false hb,
    show raisedEvents (responseStage s r c1 c2 c3 d1 d2 p rx).cfg (responseStage s r c1 c2 c3 d1 d2 p rx).core
      (inputsOf false p' (responseStage s r c1 c2 c3 d1 d2 p rx)) = [] from hev]
  exact State.mk.injEq .. |>.mpr ⟨rfl, hcore, rfl, rfl, rfl, rfl, rfl⟩

/-- The clock goes back to its low level after the last response bit: END, held or cleared. -/
theorem restLow_response {s t : State} {r : Regs} {rx : List (Option Bool)} (h : RespondsAt s r rx t)
    (hr : responds s.cfg r = true) (hq : steady s.cfg r s.host.pins = true) (hr' : (afterFall r).proto = .endFrame) :
    ∃ m d1 d2, restLow t =
      responseStage (passed m s) (if s.cfg.hasFrameSelect then afterFall r else frameClear s.cfg (afterFall r)) false false false d1 d2
        (releasedPins false s) rx := by
  obtain ⟨m, d1, d2, p, hp, rfl⟩ := h
  obtain ⟨a1, a2, h1⟩ := response_toFall m (d1 := d1) (d2 := d2) (p := p) (rx := rx) hr hq
  have hpins : ({ sclk := false, csn := (responseStage (passed m s) r true true true d1 d2 p rx).host.pins.csn, data := none } : Pins) =
      releasedPins false s := by simp [responseStage, releasedPins, hp]
  rw [restLow, hpins, show lowTicks = 2 + 2 from rfl, hold_add, h1]
  cases hs : s.cfg.hasFrameSelect
  · obtain ⟨x3, h3⟩ := response_tick (m + 2) false r false false true a1 a2 (releasedPins false s) rx hr hq
    obtain ⟨x4, h4⟩ := sysTick_rearm (s := passed (m + 2 + 1) s) (r := afterFall r) (c1 := false) (c2 := false) (c3 := false) (d1 := x3) (d2 := a1)
      (p := releasedPins false s) (p' := releasedPins false s) (rx := rx) hr' hs
    refine ⟨m + 2 + 1 + 1, x4, x3, ?_⟩
    simp only [hold_succ, hold_zero]
    simp only [afterEdge, releasedPins, Bool.false_and, Bool.not_false, Bool.and_true, if_false, if_true,
      Bool.false_eq_true] at *
    rw [h3, h4, passed_passed]
    rfl
  · obtain ⟨b1, b2, h2⟩ := response_fall (m + 2) (d1 := a1) (d2 := a2) (p := releasedPins false s) (rx := rx) hr hq
      (by simp [responds, hr', hs])
    exact ⟨m + 2 + 2, b1, b2, by simpa using h2⟩

end Sys2Proof.Machine
end

