-- ==== Sys2Proof/Laws/Frames.lean ====
section
/-! SUPPORT. How a frame begins and how its request ends: frame-select released and asserted again, the last request bit
raising the bus request, and the header bit that aborts. -/

namespace Sys2Proof.Machine

/-! ## The last bit of a request -/

/-- A bit whose rise raises the bus request: the next tick is the request's first. -/
theorem clockBit_toBus {s : State} {b : Bool} (r' : Regs) (hr : requestReady s = true)
    (hev : ∀ i, i.rst = false → raisedEvents s.cfg (beforeRise b s).core i = [])
    (hrise : ∀ i : Inputs, i.rst = false → i.rawClk = true → i.rawDin = b →
      (s.cfg.hasFrameSelect = true → i.rawCsn = false) →
      coreTick s.cfg (beforeRise b s).core i =
        { r' with clkS1 := true, clkS2 := true, clkPrev := true, dinS1 := b, dinS2 := b })
    (hb : busCyc r' = true) (ht' : r'.turned = false) (hc : r'.csnS1 = s.core.csnS1 ∧ r'.csnS2 = s.core.csnS2) :
    StalledAt s r' 1 (dataOutPin s.cfg s.core :: s.host.rx) (clockBit (some b) s) := by
  obtain ⟨h1, h2, h3, h4⟩ := requestReady_iff.mp hr
  have first := riseTick_request b r' [] h1 h3 h4 hev hrise
  have hzero : answeredBefore s 0 = false := by
    unfold answeredBefore; split <;> simp
  have hstage : { staged (passed 7 (withCore r' s)) true true true b b (highPins b s) (dataOutPin s.cfg s.core :: s.host.rx) with
      events := [] ++ s.events } =
      busStage (passed 7 s) r' 0 true true true b b (highPins b s) (dataOutPin s.cfg s.core :: s.host.rx) := by
    have hzero' : answeredBefore (passed 7 s) 0 = false := hzero
    simp [staged, withCore, busStage, busRegs, busTarget, hzero']
  have hq : steady s.cfg r' (highPins b s) = true := by
    simpa [steady, highPins, hc.1, hc.2, selectSteady] using h3
  obtain ⟨x, second⟩ := sysTick_busStage (s := passed 7 s) (r := r') (n := 0) (c1 := true) (c2 := true) (c3 := true) (d1 := b) (d2 := b)
    (p := highPins b s) (p' := highPins b s) (rx := dataOutPin s.cfg s.core :: s.host.rx) hb hq (.inr ht') (by simp)
  refine ⟨7, x, b, highPins b s, rfl, ?_⟩
  rw [clockBit_request b h1 h2 h3 h4, first, hstage, second]
  simp [highPins]

section
variable {s : State} {b : Bool}

/-- The last value bit. -/
theorem clockBit_valueDone (hr : requestReady s = true) (hp : s.core.proto = .readValue) (hc : s.core.cnt = 71#8) :
    StalledAt s { s.core with value := shl1 s.core.value b, cnt := 72#8, proto := .busWrite } 1
      (dataOutPin s.cfg s.core :: s.host.rx) (clockBit (some b) s) := by
  obtain ⟨h1, h2, h3, h4⟩ := requestReady_iff.mp hr
  refine clockBit_toBus _ hr ?_ ?_ (by simp [busCyc]) h4 ⟨rfl, rfl⟩
  · intro i hi
    have hf : frameReset s.cfg (beforeRise b s).core = false := frameReset_of_selectSteady h3
    simp only [raisedEvents, hi, hf]
    simp [beforeRise, hp]
  · intro i hrst hclk hdin hi
    rw [coreTick_rise h1 h3 hrst hclk hdin hi]
    simp [stateRule, beforeRise, hp, ruleReadValue, rise, sclk, din, hc]

/-- The last address bit of a read. -/
theorem clockBit_addressRead (hr : requestReady s = true) (hp : s.core.proto = .readAddress) (hc : s.core.cnt = 39#8)
    (hw : s.core.isWrite = false) :
    StalledAt s { s.core with address := shl1 s.core.address b, cnt := 40#8, proto := .busRead } 1
      (dataOutPin s.cfg s.core :: s.host.rx) (clockBit (some b) s) := by
  obtain ⟨h1, h2, h3, h4⟩ := requestReady_iff.mp hr
  refine clockBit_toBus _ hr ?_ ?_ (by simp [busCyc]) h4 ⟨rfl, rfl⟩
  · intro i hi
    have hf : frameReset s.cfg (beforeRise b s).core = false := frameReset_of_selectSteady h3
    simp only [raisedEvents, hi, hf]
    simp [beforeRise, hp]
  · intro i hrst hclk hdin hi
    rw [coreTick_rise h1 h3 hrst hclk hdin hi]
    simp [stateRule, beforeRise, hp, ruleReadAddress, rise, sclk, din, hc, hw]

end

/-! ## The beginning of a frame -/

/-- The pins of the frame start. -/
def startPins (csn : Bool) : Pins := { sclk := false, csn := csn, data := none }

/-- The system at rest with a frame-select line: the clock stages low, frame-select stages and registers as given. -/
def restStage (s : State) (w : Nat) (r : Regs) (n1 n2 d1 d2 : Bool) (p : Pins) (rx : List (Option Bool)) : State :=
  { s with
    core := { r with clkS1 := false, clkS2 := false, clkPrev := false, dinS1 := d1, dinS2 := d2, csnS1 := n1, csnS2 := n2 }
    target := { s.target with waited := w }
    host := { s.host with pins := p, rx := rx } }

/-- A tick of the frame start: END is held, a released frame-select clears it, and IDLE with frame-select asserted starts
the frame. -/
theorem sysTick_rest {s : State} {w : Nat} {r : Regs} {n1 n2 d1 d2 q : Bool} {p : Pins} {rx : List (Option Bool)}
    (hs : s.cfg.hasFrameSelect = true) (hr : r.proto = .endFrame ∨ r.proto = .idle) :
    ∃ x, sysTick false (startPins q) (restStage s w r n1 n2 d1 d2 p rx) =
      restStage (passed 1 s) 0 (if n2 then frameClear s.cfg r else if r.proto = .idle then { r with proto := .getHeader } else r)
        q n1 x d1 (startPins q) rx := by
  refine ⟨(inputsOf false (startPins q) (restStage s w r n1 n2 d1 d2 p rx)).rawDin, ?_⟩
  have hb : busCyc (restStage s w r n1 n2 d1 d2 p rx).core = false := by
    rcases hr with hr | hr <;> simp [busCyc, restStage, hr]
  have hends : ∀ c, (restStage s w r n1 n2 d1 d2 p rx).target.ends (restStage s w r n1 n2 d1 d2 p rx).core c = false := by
    intro c; rw [Target.ends, hb, Bool.false_and]
  have hhost : hostTick (startPins q) (restStage s w r n1 n2 d1 d2 p rx) =
      { s.host with pins := startPins q, rx := rx } := by
    simp only [hostTick, lineFight_none (.inl (show (startPins q).data = none from rfl))]
    simp [restStage, startPins]
  have hev : raisedEvents s.cfg (restStage s w r n1 n2 d1 d2 p rx).core
      (inputsOf false (startPins q) (restStage s w r n1 n2 d1 d2 p rx)) = [] := by
    rcases hr with hr | hr <;> simp [raisedEvents, inputsOf, restStage, hr]
  have hcore : coreTick s.cfg (restStage s w r n1 n2 d1 d2 p rx).core
      (inputsOf false (startPins q) (restStage s w r n1 n2 d1 d2 p rx)) =
      { (if n2 then frameClear s.cfg r else if r.proto = .idle then { r with proto := .getHeader } else r) with
        clkS1 := false, clkS2 := false, clkPrev := false, csnS1 := q, csnS2 := n1
        dinS1 := (inputsOf false (startPins q) (restStage s w r n1 n2 d1 d2 p rx)).rawDin, dinS2 := d1 } := by
    rcases hr with hr | hr <;> cases n2 <;>
      simp [coreTick, inputsOf, restStage, frameReset, csn, hs, hr, recover, frameClear, stateRule, turnaround, countBit,
        shiftWindow, rise, fall, sclk, startPins, ruleEnd, ruleIdle, ruleIdleSelected]
  unfold sysTick
  rw [hhost, hends, target_tick_idle _ hb,
    show raisedEvents (restStage s w r n1 n2 d1 d2 p rx).cfg (restStage s w r n1 n2 d1 d2 p rx).core
      (inputsOf false (startPins q) (restStage s w r n1 n2 d1 d2 p rx)) = [] from hev]
  exact State.mk.injEq .. |>.mpr ⟨rfl, hcore, rfl, rfl, rfl, rfl, rfl⟩

/-- The registers of a frame just opened with frame-select. -/
def openedRegs (s : State) : Regs := { Regs.reset with proto := .getHeader, window := s.core.window }

/-- What FrameClear leaves is IDLE, and clearing twice is clearing once. -/
theorem frameClear_idem (cfg : Config) (r : Regs) : frameClear cfg (frameClear cfg r) = frameClear cfg r := by
  cases h : cfg.hasFrameSelect <;> simp [frameClear, h]

/-- A frame opened from a link at rest: GET_HEADER with clear frame registers, nothing sampled. -/
theorem openFrame_rest {s : State} (h : linkAtRest s = true) :
    ∃ d1 d2, openFrame s = restStage (passed (releaseTicks + selectTicks) s) 0 (openedRegs s) false false d1 d2 (startPins false) [] := by
  simp only [linkAtRest, clockLow, Bool.and_eq_true, Bool.or_eq_true, beq_iff_eq, Bool.not_eq_true'] at h
  obtain ⟨⟨⟨hs, ⟨hc1, hc2⟩, hc3⟩, hn⟩, hp⟩ := h
  have hstart : s = restStage (passed 0 s) s.target.waited s.core s.core.csnS1 s.core.csnS2 s.core.dinS1 s.core.dinS2 s.host.pins s.host.rx := by
    obtain ⟨cfg, ⟨⟩, ⟨⟩, ⟨⟩, board, draws, events⟩ := s
    simp_all [restStage]
  have tick : ∀ (k : Nat) (q : Bool) (w : Nat) (r : Regs) (n1 n2 d1 d2 : Bool) (p : Pins),
      r.proto = .endFrame ∨ r.proto = .idle →
      ∃ x, sysTick false (startPins q) (restStage (passed k s) w r n1 n2 d1 d2 p s.host.rx) =
        restStage (passed (k + 1) s) 0
          (if n2 then frameClear s.cfg r else if r.proto = .idle then { r with proto := .getHeader } else r)
          q n1 x d1 (startPins q) s.host.rx := by
    intro k q w r n1 n2 d1 d2 p hr
    obtain ⟨x, h⟩ := sysTick_rest (s := passed k s) (w := w) (r := r) (n1 := n1) (n2 := n2) (d1 := d1) (d2 := d2) (q := q)
      (p := p) (rx := s.host.rx) hs hr
    exact ⟨x, by rw [h, passed_passed]; rfl⟩
  have hidle : ∀ r, (frameClear s.cfg r).proto = .idle := fun r => rfl
  -- three ticks of release leave IDLE with frame-select seen inactive
  have release : ∃ d1 d2, hold releaseTicks (startPins true) s =
      restStage (passed 3 s) 0 (frameClear s.cfg s.core) true true d1 d2 (startPins true) s.host.rx := by
    conv => enter [1, d1, 1, d2, 1, 3]; rw [hstart]
    cases hx : s.core.csnS2
    · rw [hx] at hn hp
      have hend : s.core.proto = .endFrame := by simpa using hp
      obtain ⟨x1, h1⟩ := tick 0 true s.target.waited s.core false false s.core.dinS1 s.core.dinS2 s.host.pins (.inl hend)
      obtain ⟨x2, h2⟩ := tick 1 true 0 s.core true false x1 s.core.dinS1 (startPins true) (.inl hend)
      obtain ⟨x3, h3⟩ := tick 2 true 0 s.core true true x2 x1 (startPins true) (.inl hend)
      refine ⟨x3, x2, ?_⟩
      simp only [Bool.false_eq_true, if_false, if_true, hend, reduceCtorEq] at h1 h2 h3
      simp only [releaseTicks, hold_succ, hold_zero, hn, h1, h2, h3]
    · rw [hx] at hn
      have hpr : s.core.proto = .endFrame ∨ s.core.proto = .idle := by
        rcases hp with h | ⟨h, -⟩
        · exact .inl h
        · exact .inr h
      obtain ⟨x1, h1⟩ := tick 0 true s.target.waited s.core true true s.core.dinS1 s.core.dinS2 s.host.pins hpr
      obtain ⟨x2, h2⟩ := tick 1 true 0 (frameClear s.cfg s.core) true true x1 s.core.dinS1 (startPins true) (.inr rfl)
      obtain ⟨x3, h3⟩ := tick 2 true 0 (frameClear s.cfg s.core) true true x2 x1 (startPins true) (.inr rfl)
      refine ⟨x3, x2, ?_⟩
      simp only [if_true, frameClear_idem] at h1 h2 h3
      simp only [releaseTicks, hold_succ, hold_zero, hn, h1, h2, h3]
  obtain ⟨a1, a2, hrel⟩ := release
  obtain ⟨x4, h4⟩ := tick 3 false 0 (frameClear s.cfg s.core) true true a1 a2 (startPins true) (.inr rfl)
  obtain ⟨x5, h5⟩ := tick 4 false 0 (frameClear s.cfg s.core) false true x4 a1 (startPins false) (.inr rfl)
  obtain ⟨x6, h6⟩ := tick 5 false 0 (frameClear s.cfg s.core) false false x5 x4 (startPins false) (.inr rfl)
  refine ⟨x6, x5, ?_⟩
  simp only [if_true, frameClear_idem] at h4 h5
  simp only [Bool.false_eq_true, if_false, hidle, if_true] at h6
  have hpins : ∀ q, ({ sclk := false, csn := q, data := none } : Pins) = startPins q := fun _ => rfl
  simp only [openFrame, releaseSelect, hs, if_true, hpins]
  rw [hrel]
  simp only [selectTicks, hold_succ, hold_zero, h4, h5, h6]
  simp [clearSamples, restStage, openedRegs, frameClear, Regs.reset, hs, releaseTicks]

/-- With a frame-select line a frame opens by a release and the select ticks after it. -/
theorem openFrame_release {s : State} (hs : s.cfg.hasFrameSelect = true) :
    openFrame s = clearSamples (hold selectTicks (startPins false) (releaseSelect s)) := by
  simp [openFrame, hs, startPins]

/-- A link already released in IDLE with clear registers opens by the select ticks alone: another release changes nothing that
the opened frame shows, but that the board's line moves on by its ticks. -/
theorem openFrame_released {s : State} (hs : s.cfg.hasFrameSelect = true) (hl : clockLow s.core = true)
    (h1 : s.core.csnS1 = true) (h2 : s.core.csnS2 = true) (hc : s.core = frameClear s.cfg s.core)
    (hp : s.host.pins = startPins true) (hw : s.target.waited = 0) :
    openFrame s = clearSamples (hold selectTicks (startPins false) (passed releaseTicks s)) := by
  obtain ⟨⟨w, tri⟩, ⟨a1, a2, a3, a4, n1, n2, a5, proto, cmd, addr, val, isw, cnt, woff, win, tur, dout⟩, ⟨mem, plan, wt⟩,
    ⟨scr, pins, rx, pat, fight⟩, board, draws, ev⟩ := s
  simp only [clockLow, Bool.and_eq_true, Bool.not_eq_true'] at hl
  simp only [frameClear, Regs.mk.injEq] at hs h1 h2 hc hp hw
  obtain ⟨⟨rfl, rfl⟩, rfl⟩ := hl
  obtain ⟨-, -, -, -, -, -, -, rfl, rfl, rfl, rfl, rfl, rfl, rfl, -, rfl, rfl⟩ := hc
  subst h1 h2 hp hw
  cases w <;> cases tri <;> simp [Config.hasFrameSelect] at hs <;>
    simp [openFrame, startPins, clearSamples, passed, selectTicks, releaseSelect, releaseTicks, hold, sysTick, coreTick, inputsOf,
      frameReset, csn, recover, frameClear, stateRule, turnaround, countBit, shiftWindow, rise, fall, sclk, raisedEvents,
      cutsShort, Target.tick, Target.ends, busCyc, hostTick, lineFight_none, ruleIdle, ruleIdleSelected, dataInPin,
      dataOutPin, oe, adapterPin, Config.hasFrameSelect, Config.sharesDataLine]

/-! ## Two-wire IDLE -/

/-- A target without a request forgets its age, so a tick does not depend on it. -/
theorem sysTick_waited {s : State} (rst : Bool) (p : Pins) (h : busCyc s.core = false) (w : Nat) :
    sysTick rst p { s with target := { s.target with waited := w } } = sysTick rst p s := by
  have hin : inputsOf rst p { s with target := { s.target with waited := w } } = inputsOf rst p s := by
    simp [inputsOf, Target.ack, Target.err, Target.answers, h, Target.data, Target.current]
    rfl
  have hends : ∀ c, ({ s.target with waited := w } : Target).ends s.core c = s.target.ends s.core c := by
    intro c; simp [Target.ends, h]
  simp only [sysTick, hin]
  rw [target_tick_idle _ h, target_tick_idle _ h, hends]
  rfl

/-- What a tick makes of two-wire IDLE: at a rise the window takes a bit, and a completed sync byte starts the frame. -/
def afterIdle (r : Regs) (c2 c3 d2 : Bool) : Regs :=
  if c2 && !c3 then
    if shl1 r.window d2 = syncByte then
      { r with window := syncByte, proto := .getHeader, command := 0#8, cnt := 0#8 }
    else { r with window := shl1 r.window d2 }
  else r

/-- One tick of two-wire IDLE. -/
theorem sysTick_idle {s : State} {r : Regs} (hs : s.cfg.hasFrameSelect = false) (hr : r.proto = .idle)
    (c1 c2 c3 d1 d2 : Bool) (p p' : Pins) (rx : List (Option Bool)) :
    sysTick false p' (responseStage s r c1 c2 c3 d1 d2 p rx) =
      responseStage (passed 1 s) (afterIdle r c2 c3 d2) p'.sclk c1 c2 (p'.data.getD s.board.level) d1 p'
        (if p'.sclk && !p.sclk then idleSample s.cfg :: rx else rx) := by
  have hoe : oe (responseStage s r c1 c2 c3 d1 d2 p rx).core = false := by simp [oe, responseStage, hr]
  have hshare : s.cfg.sharesDataLine = true := by
    cases hw : s.cfg.wires <;> simp_all [Config.hasFrameSelect, Config.sharesDataLine]
  have hpin : ∀ l, adapterPin s.cfg false l = none := adapterPin_shared _ hshare
  have hdin : (inputsOf false p' (responseStage s r c1 c2 c3 d1 d2 p rx)).rawDin = p'.data.getD s.board.level := by
    simp only [inputsOf, dataInPin, dataOutPin, hoe]
    simp [responseStage, hpin, hshare]
  have hhost : hostTick p' (responseStage s r c1 c2 c3 d1 d2 p rx) =
      { s.host with pins := p', rx := if p'.sclk && !p.sclk then idleSample s.cfg :: rx else rx } := by
    have hfight : lineFight s.cfg (responseStage s r c1 c2 c3 d1 d2 p rx).core p'.data = false := lineFight_undriven (.inr hoe)
    simp only [hostTick, show (responseStage s r c1 c2 c3 d1 d2 p rx).cfg = s.cfg from rfl, hfight, dataOutPin, hoe]
    simp [responseStage, hpin, idleSample]
  have hb : busCyc (responseStage s r c1 c2 c3 d1 d2 p rx).core = false := by simp [busCyc, responseStage, hr]
  have hf : frameReset s.cfg (responseStage s r c1 c2 c3 d1 d2 p rx).core = false := by simp [frameReset, hs]
  have hcut : cutsShort false (responseStage s r c1 c2 c3 d1 d2 p rx) = false := hf
  have hends : (responseStage s r c1 c2 c3 d1 d2 p rx).target.ends (responseStage s r c1 c2 c3 d1 d2 p rx).core false =
      false := by rw [Target.ends, hb, Bool.false_and]
  have hev : raisedEvents s.cfg (responseStage s r c1 c2 c3 d1 d2 p rx).core
      (inputsOf false p' (responseStage s r c1 c2 c3 d1 d2 p rx)) = [] := by
    simp only [raisedEvents, hf]
    simp [responseStage, hr]
  have hcore : coreTick s.cfg (responseStage s r c1 c2 c3 d1 d2 p rx).core
      (inputsOf false p' (responseStage s r c1 c2 c3 d1 d2 p rx)) =
      { afterIdle r c2 c3 d2 with
        clkS1 := p'.sclk, clkS2 := c1, clkPrev := c2, dinS1 := p'.data.getD s.board.level, dinS2 := d1 } := by
    rw [coreTick_active rfl hf]
    have hrec : recover s.cfg (responseStage s r c1 c2 c3 d1 d2 p rx).core
        (inputsOf false p' (responseStage s r c1 c2 c3 d1 d2 p rx)) =
        { r with clkS1 := p'.sclk, clkS2 := c1, clkPrev := c2, dinS1 := p'.data.getD s.board.level, dinS2 := d1 } := by
      rw [recover, hdin]
      simp [responseStage, hs]
    rw [hrec]
    cases c2 <;> cases c3 <;>
      simp [responseStage, stateRule, hr, ruleIdle, ruleIdleTwoWire, hs, syncMatch, shiftWindow, turnaround, countBit,
        afterIdle, rise, fall, sclk, din]
    split <;> simp_all
  unfold sysTick
  rw [hhost, hcut, hends, target_tick_idle false hb,
    show raisedEvents (responseStage s r c1 c2 c3 d1 d2 p rx).cfg (responseStage s r c1 c2 c3 d1 d2 p rx).core
      (inputsOf false p' (responseStage s r c1 c2 c3 d1 d2 p rx)) = [] from hev]
  exact State.mk.injEq .. |>.mpr ⟨rfl, hcore, rfl, rfl, rfl, rfl, rfl⟩

/-- A `staged` system is a `responseStage`. -/
theorem responseStage_eq_staged (s : State) (r : Regs) (c1 c2 c3 d1 d2 : Bool) (p : Pins) (rx : List (Option Bool)) :
    responseStage s r c1 c2 c3 d1 d2 p rx = staged (withCore r s) c1 c2 c3 d1 d2 p rx := rfl

/-- One bit in two-wire IDLE, from any settled clock level. -/
theorem clockBit_idle {s : State} {r : Regs} (hs : s.cfg.hasFrameSelect = false) (hr : r.proto = .idle) (ht : r.turned = false)
    (c d1 d2 b : Bool) (p : Pins) (hp : p.csn = s.host.pins.csn) (rx : List (Option Bool)) :
    clockBit (some b) (responseStage s r c c c d1 d2 p rx) =
      responseStage (passed 8 s) (afterIdle r true false b) true true true b b (highPins b s) (idleSample s.cfg :: rx) := by
  have hpins : ∀ l, ({ sclk := l, csn := (responseStage s r c c c d1 d2 p rx).host.pins.csn, data := some b } : Pins) =
      { sclk := l, csn := s.host.pins.csn, data := some b } := fun l => by simp [responseStage, hp]
  have tick : ∀ (k : Nat) (c1 c2 c3 d1 d2 l : Bool) (p0 : Pins) (rx' : List (Option Bool)),
      sysTick false { sclk := l, csn := s.host.pins.csn, data := some b }
          (responseStage (passed k s) r c1 c2 c3 d1 d2 p0 rx') =
        responseStage (passed (k + 1) s) (afterIdle r c2 c3 d2) l c1 c2 b d1
          { sclk := l, csn := s.host.pins.csn, data := some b } (if l && !p0.sclk then idleSample s.cfg :: rx' else rx') := by
    intro k c1 c2 c3 d1 d2 l p0 rx'
    rw [sysTick_idle (s := passed k s) (r := r) hs hr, passed_passed]
    rfl
  have last : sysTick false { sclk := true, csn := s.host.pins.csn, data := some b }
      (responseStage (passed 7 s) (afterIdle r true false b) true true true b b { sclk := true, csn := s.host.pins.csn, data := some b }
        (idleSample s.cfg :: rx)) =
      responseStage (passed 8 s) (afterIdle r true false b) true true true b b (highPins b s) (idleSample s.cfg :: rx) := by
    by_cases hm : shl1 r.window b = syncByte
    · have hcore : afterIdle r true false b =
          { r with window := syncByte, proto := .getHeader, command := 0#8, cnt := 0#8 } := by simp [afterIdle, hm]
      rw [hcore, responseStage_eq_staged]
      have := sysTick_staged
        (s := withCore { r with window := syncByte, proto := .getHeader, command := 0#8, cnt := 0#8 } s)
        (by simp [takesRequestBits, withCore]) (by simp [selectSteady, withCore, hs]) ht 7 true true true b b b
        { sclk := true, csn := s.host.pins.csn, data := some b } { sclk := true, csn := s.host.pins.csn, data := some b }
        (idleSample s.cfg :: rx) rfl rfl rfl rfl
      rw [show passed 7 (withCore { r with window := syncByte, proto := .getHeader, command := 0#8, cnt := 0#8 } s) =
        withCore { r with window := syncByte, proto := .getHeader, command := 0#8, cnt := 0#8 } (passed 7 s) from rfl] at this
      rw [this]
      simp [highPins, responseStage_eq_staged]
      rfl
    · have hcore : afterIdle r true false b = { r with window := shl1 r.window b } := by simp [afterIdle, hm]
      rw [hcore, sysTick_idle (s := passed 7 s) (r := { r with window := shl1 r.window b }) hs hr]
      simp [afterIdle, highPins]
  have quiet : ∀ c1 c2, afterIdle r c1 c1 c2 = r := fun c1 _ => by cases c1 <;> rfl
  have low : ∀ c3 c2, afterIdle r false c3 c2 = r := fun _ _ => rfl
  have h1 := tick 0 c c c d1 d2 false p rx
  have h2 := tick 1 false c c b d1 false { sclk := false, csn := s.host.pins.csn, data := some b } rx
  have h3 := tick 2 false false c b b false { sclk := false, csn := s.host.pins.csn, data := some b } rx
  have h4 := tick 3 false false false b b false { sclk := false, csn := s.host.pins.csn, data := some b } rx
  have h5 := tick 4 false false false b b true { sclk := false, csn := s.host.pins.csn, data := some b } rx
  have h6 := tick 5 true false false b b true { sclk := true, csn := s.host.pins.csn, data := some b } (idleSample s.cfg :: rx)
  have h7 := tick 6 true true false b b true { sclk := true, csn := s.host.pins.csn, data := some b } (idleSample s.cfg :: rx)
  simp only [quiet, low, Bool.false_and, Bool.not_true, Bool.not_false, Bool.and_true, Bool.and_false,
    Bool.false_eq_true, if_false, if_true, passed_zero] at h1 h2 h3 h4 h5 h6 h7
  simp only [clockBit, lowTicks, highTicks, hpins, hold_succ, hold_zero]
  rw [h1, h2, h3, h4, h5, h6, h7, last]

/-- Low ticks of two-wire IDLE, or of a frame just opened by the sync byte, move nothing but the stages. -/
theorem restLow_twoWire {s : State} {r : Regs} (hs : s.cfg.hasFrameSelect = false)
    (hr : r.proto = .idle ∨ r.proto = .getHeader) (ht : r.turned = false) (d1 d2 : Bool) (p : Pins)
    (hp : p.csn = s.host.pins.csn) (rx : List (Option Bool)) :
    restLow (responseStage s r true true true d1 d2 p rx) =
      responseStage (passed 4 s) r false false false (s.board.advance 3).level (s.board.advance 2).level
        (releasedPins false s) rx := by
  have hpins : ({ sclk := false, csn := (responseStage s r true true true d1 d2 p rx).host.pins.csn, data := none } : Pins) =
      releasedPins false s := by simp [responseStage, releasedPins, hp]
  have hshare : s.cfg.sharesDataLine = true := by
    cases hw : s.cfg.wires <;> simp_all [Config.hasFrameSelect, Config.sharesDataLine]
  have tick : ∀ (k : Nat) (c1 c2 c3 d1 d2 : Bool) (p0 : Pins), (c2 && !c3) = false →
      sysTick false (releasedPins false s) (responseStage (passed k s) r c1 c2 c3 d1 d2 p0 rx) =
        responseStage (passed (k + 1) s) r false c1 c2 (s.board.advance k).level d1 (releasedPins false s) rx := by
    intro k c1 c2 c3 d1 d2 p0 hc
    rcases hr with hr | hr
    · rw [sysTick_idle (s := passed k s) hs hr]; simp [afterIdle, hc, releasedPins]
    · have hoe : oe (responseStage (passed k s) r c1 c2 c3 d1 d2 p0 rx).core = false := by simp [oe, responseStage, ht]
      rw [sysTick_request_noRise (releasedPins false s) (by simp [takesRequestBits, responseStage, hr])
        (by simp [frameReset, responseStage, hs]) (by simpa [rise, sclk, responseStage] using hc)]
      have hfight : lineFight s.cfg (responseStage (passed k s) r c1 c2 c3 d1 d2 p0 rx).core (releasedPins false s).data = false :=
        lineFight_undriven (.inr hoe)
      have hdin : (inputsOf false (releasedPins false s) (responseStage (passed k s) r c1 c2 c3 d1 d2 p0 rx)).rawDin =
          (s.board.advance k).level := by
        simp only [inputsOf, dataInPin, dataOutPin, hoe]
        simp [responseStage, releasedPins, hshare, adapterPin_shared _ hshare]
      have hhost : hostTick (releasedPins false s) (responseStage (passed k s) r c1 c2 c3 d1 d2 p0 rx) =
          { s.host with pins := releasedPins false s, rx := rx } := by
        simp only [hostTick, show (responseStage (passed k s) r c1 c2 c3 d1 d2 p0 rx).cfg = s.cfg from rfl, hfight]
        simp [responseStage, releasedPins]
      rw [hhost, recover, hdin]
      simp [responseStage, hs, releasedPins]
  rw [restLow, hpins]
  simp only [lowTicks, hold_succ, hold_zero]
  have h0 := tick 0 true true true d1 d2 p (by simp)
  rw [passed_zero] at h0
  rw [h0, tick 1 _ _ _ _ _ _ (by simp), tick 2 _ _ _ _ _ _ (by simp), tick 3 _ _ _ _ _ _ (by simp)]

/-! ## An aborted frame -/

/-- The registers after a header that aborts. -/
def abortedRegs (s : State) (h : Byte) : Regs := { s.core with command := h, cnt := 8#8, proto := .endFrame }

/-- The eighth bit of a header above 0x01, and the clock back at its low level: END held, or cleared in two-wire mode;
FramingAbort raised; nothing driven. -/
theorem restLow_abort {s : State} {b : Bool} {h : Byte} (hr : requestReady s = true) (hp : s.core.proto = .getHeader)
    (hc : s.core.cnt = 7#8) (hh : shl1 s.core.command b = h) (h2 : 2 ≤ h.toNat) :
    ∃ m d1 d2, restLow (clockBit (some b) s) =
      { responseStage (passed m s)
          (if s.cfg.hasFrameSelect then abortedRegs s h else frameClear s.cfg (abortedRegs s h)) false false false d1 d2
          (releasedPins false s) (dataOutPin s.cfg s.core :: s.host.rx) with
        events := .framingAbort h :: s.events } := by
  obtain ⟨h1, h2', h3, h4⟩ := requestReady_iff.mp hr
  have hne0 : h ≠ 0#8 := by rintro rfl; simp at h2
  have hne1 : h ≠ 1#8 := by rintro rfl; simp at h2
  have first := riseTick_request b (abortedRegs s h) [.framingAbort h] h1 h3 h4 (by
      intro i hi
      have hf : frameReset s.cfg (beforeRise b s).core = false := frameReset_of_selectSteady h3
      simp only [raisedEvents, hi, hf]
      simp [beforeRise, hp, hc, hh, hne0, hne1, rise, sclk, din]) (by
      intro i hrst hclk hdin hi
      rw [coreTick_rise h1 h3 hrst hclk hdin hi]
      simp [stateRule, beforeRise, hp, ruleGetHeader, rise, sclk, din, hc, hh, hne0, hne1, abortedRegs])
  -- the ticks after the rise run in the same system with the event raised
  obtain ⟨u, hu⟩ : ∃ u : State, u = { s with events := .framingAbort h :: s.events } := ⟨_, rfl⟩
  have hucfg : u.cfg = s.cfg := by rw [hu]
  have huh : u.host = s.host := by rw [hu]
  have hstage : ∀ (r : Regs) (c1 c2 c3 d1 d2 : Bool) (p : Pins) (rx : List (Option Bool)),
      ∀ m, { responseStage (passed m s) r c1 c2 c3 d1 d2 p rx with events := .framingAbort h :: s.events } =
        responseStage (passed m u) r c1 c2 c3 d1 d2 p rx := by
    intros; rw [hu]; rfl
  have hfirst : sysTick false (highPins b s) (beforeRise b s) =
      responseStage (passed 7 u) (abortedRegs s h) true true true b b (highPins b s)
        (dataOutPin s.cfg s.core :: s.host.rx) := by
    rw [first, ← hstage]; rfl
  have hrel : releasedPins false s = releasedPins false u := by simp [releasedPins, huh]
  have hcsn : (highPins b s).csn = u.host.pins.csn := by simp [highPins, huh]
  simp only [hstage, clockBit_request b h1 h2' h3 h4, hfirst, hrel]
  cases hs : s.cfg.hasFrameSelect
  · obtain ⟨x, second⟩ := sysTick_rearm (s := passed 7 u) (r := abortedRegs s h) (c1 := true) (c2 := true) (c3 := true) (d1 := b)
      (d2 := b) (p := highPins b s) (p' := highPins b s) (rx := dataOutPin s.cfg s.core :: s.host.rx) rfl (by rw [passed_cfg, hucfg, hs])
    rw [second, passed_passed]
    refine ⟨12, ((passed 8 u).board.advance 3).level, ((passed 8 u).board.advance 2).level, ?_⟩
    have := restLow_twoWire (s := passed 8 u) (r := frameClear u.cfg (abortedRegs s h)) (by rw [passed_cfg, hucfg, hs]) (.inl rfl) rfl x b
      (highPins b s) hcsn (dataOutPin s.cfg s.core :: s.host.rx)
    rw [show releasedPins false (passed 8 u) = releasedPins false u from rfl] at this
    simpa [highPins, hucfg] using this
  · have hq : steady u.cfg (abortedRegs s h) u.host.pins = true := by
      rw [hucfg, huh]; simpa [steady, selectSteady, abortedRegs] using h3
    have hresp : responds u.cfg (abortedRegs s h) = true := by simp [responds, abortedRegs, hucfg, hs]
    obtain ⟨x, second⟩ := sysTick_response (s := passed 7 u) (r := abortedRegs s h) (c1 := true) (c2 := true) (c3 := true) (d1 := b)
      (d2 := b) (p := highPins b s) (p' := highPins b s) (rx := dataOutPin s.cfg s.core :: s.host.rx) hresp
      (by simpa [steady, highPins, huh] using hq) (.inr (by simp [oe, abortedRegs]))
    rw [second, passed_passed]
    obtain ⟨e1, e2, h5⟩ := response_toFall (s := u) 8 (d1 := x) (d2 := b) (p := highPins b s)
      (rx := dataOutPin s.cfg s.core :: s.host.rx) hresp hq
    have hfall : afterFall (abortedRegs s h) = abortedRegs s h := by simp [afterFall, abortedRegs]
    obtain ⟨f1, f2, h6⟩ := response_fall (s := u) 10 (d1 := e1) (d2 := e2) (p := releasedPins false u)
      (rx := dataOutPin s.cfg s.core :: s.host.rx) hresp hq (by rw [hfall]; exact hresp)
    refine ⟨12, f1, f2, ?_⟩
    have hpins : ∀ st : State, st.host.pins.csn = u.host.pins.csn →
        restLow st = hold 4 (releasedPins false u) st := by
      intro st hst; simp [restLow, releasedPins, hst, lowTicks]
    rw [hpins _ (by simp [responseStage, hcsn]), show 4 = 2 + 2 from rfl, hold_add]
    simp only [afterEdge, highPins, Bool.not_true, Bool.and_false, Bool.false_and, if_false, Bool.false_eq_true] at h5 ⊢
    rw [h5, h6, hfall]
    rfl

end Sys2Proof.Machine
end

