-- ==== Sys2Proof/Laws/Memory.lean ====
section
/-! SUPPORT. The target's memory: every operation keeps the canonical form, and a byte read after a byte write gives the
byte written there and what was there before elsewhere. -/

namespace Sys2Proof.Machine

theorem wfFrom_mono {lo lo' : Nat} {mem : List Host.Cell} (h : lo' ≤ lo) (hw : Memory.wfFrom lo mem = true) :
    Memory.wfFrom lo' mem = true := by
  cases mem with
  | nil => rfl
  | cons c rest =>
    simp only [Memory.wfFrom, Bool.and_eq_true, decide_eq_true_eq] at hw ⊢
    exact ⟨⟨⟨Nat.le_trans h hw.1.1.1, hw.1.1.2⟩, hw.1.2⟩, hw.2⟩

/-- Below the first listed address every byte is unlisted. -/
theorem readByte_below {lo a : Nat} {mem : List Host.Cell} (hw : Memory.wfFrom lo mem = true) (h : a < lo) :
    readByte a mem = unlistedByte := by
  induction mem generalizing lo with
  | nil => rfl
  | cons c rest ih =>
    simp only [Memory.wfFrom, Bool.and_eq_true, decide_eq_true_eq] at hw
    have : c.1 ≠ a := by omega
    simp only [readByte, this, if_false]
    exact ih hw.2 (by omega)

theorem wfFrom_consCell {lo a : Nat} {b : Byte} {rest : List Host.Cell} (hlo : lo ≤ a) (ha : a < 2 ^ 32)
    (hw : Memory.wfFrom (a + 1) rest = true) : Memory.wfFrom lo (consCell a b rest) = true := by
  unfold consCell
  split
  · exact wfFrom_mono (by omega) hw
  · rename_i hb
    simp only [Memory.wfFrom, Bool.and_eq_true, decide_eq_true_eq, bne_iff_ne]
    exact ⟨⟨⟨hlo, ha⟩, hb⟩, hw⟩

/-- Writing a byte keeps the canonical form above any bound below the address. -/
theorem wfFrom_writeByte {lo a : Nat} {b : Byte} {mem : List Host.Cell} (hlo : lo ≤ a) (ha : a < 2 ^ 32)
    (hw : Memory.wfFrom lo mem = true) : Memory.wfFrom lo (writeByte a b mem) = true := by
  induction mem generalizing lo with
  | nil => exact wfFrom_consCell hlo ha rfl
  | cons c rest ih =>
    simp only [Memory.wfFrom, Bool.and_eq_true, decide_eq_true_eq] at hw
    simp only [writeByte]
    split
    · rename_i hlt
      simp only [Memory.wfFrom, Bool.and_eq_true, decide_eq_true_eq]
      exact ⟨hw.1, ih (by omega) hw.2⟩
    · split
      · rename_i heq
        exact wfFrom_consCell hlo ha (heq ▸ hw.2)
      · refine wfFrom_consCell hlo ha ?_
        simp only [Memory.wfFrom, Bool.and_eq_true, decide_eq_true_eq]
        exact ⟨⟨⟨by omega, hw.1.1.2⟩, hw.1.2⟩, hw.2⟩

/-- Reading through a cell put in front, at its own address. -/
theorem readByte_consCell_same {a : Nat} {b : Byte} {rest : List Host.Cell}
    (hw : Memory.wfFrom (a + 1) rest = true) : readByte a (consCell a b rest) = b := by
  unfold consCell
  split
  · rename_i hb
    rw [readByte_below hw (by omega), hb]
  · simp [readByte]

/-- Reading past a cell put in front, at another address. -/
theorem readByte_consCell_other {a a' : Nat} {b : Byte} {rest : List Host.Cell} (h : a ≠ a') :
    readByte a' (consCell a b rest) = readByte a' rest := by
  unfold consCell
  split
  · rfl
  · simp [readByte, h]

/-- A byte read where a byte was written gives that byte. -/
theorem readByte_writeByte_same {lo a : Nat} {b : Byte} {mem : List Host.Cell}
    (hw : Memory.wfFrom lo mem = true) : readByte a (writeByte a b mem) = b := by
  induction mem generalizing lo with
  | nil => exact readByte_consCell_same rfl
  | cons c rest ih =>
    simp only [Memory.wfFrom, Bool.and_eq_true, decide_eq_true_eq] at hw
    simp only [writeByte]
    split
    · rename_i hlt
      simp [readByte, show c.1 ≠ a by omega, ih hw.2]
    · split
      · rename_i heq
        exact readByte_consCell_same (heq ▸ hw.2)
      · refine readByte_consCell_same ?_
        simp only [Memory.wfFrom, Bool.and_eq_true, decide_eq_true_eq]
        exact ⟨⟨⟨by omega, hw.1.1.2⟩, hw.1.2⟩, hw.2⟩

/-- A byte read elsewhere gives what it gave before the write. -/
theorem readByte_writeByte_other {a a' : Nat} {b : Byte} {mem : List Host.Cell} (h : a ≠ a') :
    readByte a' (writeByte a b mem) = readByte a' mem := by
  induction mem with
  | nil => exact readByte_consCell_other h
  | cons c rest ih =>
    simp only [writeByte]
    split
    · simp only [readByte, ih]
    · split
      · rename_i heq
        rw [readByte_consCell_other h]
        simp [readByte, heq, h]
      · rw [readByte_consCell_other h]

theorem laneAddress_lt (adr : BusAddr) {lane : Nat} (h : lane < 4) : laneAddress adr lane < 2 ^ 32 := by
  have := adr.isLt
  unfold laneAddress
  omega

/-- A bus write keeps the canonical form (the memory operation of every WR frame). -/
theorem wf_writeWord {mem : List Host.Cell} (adr : BusAddr) (v : Word) (hw : Memory.wf mem = true) :
    Memory.wf (writeWord mem adr v) = true := by
  unfold writeWord
  iterate 4 refine wfFrom_writeByte (Nat.zero_le _) (laneAddress_lt adr (by decide)) ?_
  exact hw

end Sys2Proof.Machine
end

