-- ==== Sys2Proof/Laws/PerInstr.lean ====
section
/-! SUPPORT. The per-instruction family: the header byte alone tells an instruction's length (30_encoding.md R49), one
lemma for each constructor. -/

namespace Sys2Proof.Laws

/-- The length an instruction has on the wire, from its first byte (30_encoding.md R49): nine bytes for 0x00, five for
0x01, one for every other. -/
def lengthOfHeader (h : Byte) : Nat := if h = 0x00#8 then 9 else if h = 0x01#8 then 5 else 1

/-- A well-formed instruction's encoding is as long as its first byte says. -/
def EncodedLength.Statement (i : Instr) : Prop :=
  i.wellFormed = true → (encode i).head?.map lengthOfHeader = some (encode i).length

/-- A one-byte instruction whose byte is neither 0x00 nor 0x01 has the length its header says. -/
theorem lengthOfHeader_of_abort (i : Instr) (h : Byte) (ha : i.abortHeader = some h) (hw : i.wellFormed = true) :
    lengthOfHeader h = 1 := by
  have h2 := (abortOfHeader_of_wellFormed i h ha hw).1
  have h0 : h ≠ 0x00#8 := by rintro rfl; simp at h2
  have h1 : h ≠ 0x01#8 := by rintro rfl; simp at h2
  simp [lengthOfHeader, h0, h1]

theorem EncodedLength.wr (addr val : Word) : EncodedLength.Statement (.wr addr val) := fun _ => rfl

theorem EncodedLength.rd (addr : Word) : EncodedLength.Statement (.rd addr) := fun _ => rfl

theorem EncodedLength.abort02 (h : Byte) : EncodedLength.Statement (.abort02 h) := fun hw =>
  congrArg some (lengthOfHeader_of_abort (.abort02 h) h rfl hw)

theorem EncodedLength.abort04 (h : Byte) : EncodedLength.Statement (.abort04 h) := fun hw =>
  congrArg some (lengthOfHeader_of_abort (.abort04 h) h rfl hw)

theorem EncodedLength.abort08 (h : Byte) : EncodedLength.Statement (.abort08 h) := fun hw =>
  congrArg some (lengthOfHeader_of_abort (.abort08 h) h rfl hw)

theorem EncodedLength.abort10 (h : Byte) : EncodedLength.Statement (.abort10 h) := fun hw =>
  congrArg some (lengthOfHeader_of_abort (.abort10 h) h rfl hw)

theorem EncodedLength.abort20 (h : Byte) : EncodedLength.Statement (.abort20 h) := fun hw =>
  congrArg some (lengthOfHeader_of_abort (.abort20 h) h rfl hw)

theorem EncodedLength.abort40 (h : Byte) : EncodedLength.Statement (.abort40 h) := fun hw =>
  congrArg some (lengthOfHeader_of_abort (.abort40 h) h rfl hw)

theorem EncodedLength.abort80 (h : Byte) : EncodedLength.Statement (.abort80 h) := fun hw =>
  congrArg some (lengthOfHeader_of_abort (.abort80 h) h rfl hw)

theorem EncodedLength.sync : EncodedLength.Statement .sync := fun _ => rfl

end Sys2Proof.Laws
end

