-- ==== Sys2Proof/Tests/Slice0.lean ====
section
/-! SUPPORT. The model's own tests: the checks of WellFormed, words written out from the spec's encodings, the vectors of
95_test_vectors.md section 2, at most two frames per instruction, and for every statement with hypotheses a concrete case
that meets them. Expected values come from 95_test_vectors.md (ids in the comments) or are worked by hand from the rules
named. -/

namespace Sys2Proof.Machine

/-! ## WellFormed: each row refuses a header outside it -/

theorem test_wellFormed_abort02 : (Instr.abort02 0x03#8).wellFormed = true ∧ (Instr.abort02 0x01#8).wellFormed = false
    ∧ (Instr.abort02 0x04#8).wellFormed = false := by decide
theorem test_wellFormed_abort04 : (Instr.abort04 0x07#8).wellFormed = true ∧ (Instr.abort04 0x03#8).wellFormed = false
    ∧ (Instr.abort04 0x08#8).wellFormed = false := by decide
theorem test_wellFormed_abort08 : (Instr.abort08 0x0F#8).wellFormed = true ∧ (Instr.abort08 0x07#8).wellFormed = false
    ∧ (Instr.abort08 0x10#8).wellFormed = false := by decide
theorem test_wellFormed_abort10 : (Instr.abort10 0x1F#8).wellFormed = true ∧ (Instr.abort10 0x0F#8).wellFormed = false
    ∧ (Instr.abort10 0x20#8).wellFormed = false := by decide
theorem test_wellFormed_abort20 : (Instr.abort20 0x3F#8).wellFormed = true ∧ (Instr.abort20 0x1F#8).wellFormed = false
    ∧ (Instr.abort20 0x40#8).wellFormed = false := by decide
theorem test_wellFormed_abort40 : (Instr.abort40 0x7F#8).wellFormed = true ∧ (Instr.abort40 0x3F#8).wellFormed = false
    ∧ (Instr.abort40 0x80#8).wellFormed = false := by decide
theorem test_wellFormed_abort80 : (Instr.abort80 0xFF#8).wellFormed = true ∧ (Instr.abort80 0x7F#8).wellFormed = false
    := by decide

/-! ## Decoding: every constructor from its written-out bits (X7, opcode_table.json) -/

theorem test_decode_wr : decode .header
    [0b00000000#8, 0b01000000#8, 0b00000000#8, 0b00000000#8, 0b00000100#8,
      0b00010010#8, 0b00110100#8, 0b01010110#8, 0b01111000#8] = .ok (.wr 0x40000004#32 0x12345678#32, []) := by decide
theorem test_decode_rd : decode .header [0b00000001#8, 0b01000000#8, 0b00000000#8, 0b00000000#8, 0b00000100#8] =
    .ok (.rd 0x40000004#32, []) := by decide
theorem test_decode_abort02 : decode .header [0b00000010#8] = .ok (.abort02 0x02#8, []) := by decide
theorem test_decode_abort04 : decode .header [0b00000101#8] = .ok (.abort04 0x05#8, []) := by decide
theorem test_decode_abort08 : decode .header [0b00001010#8] = .ok (.abort08 0x0A#8, []) := by decide
theorem test_decode_abort10 : decode .header [0b00010011#8] = .ok (.abort10 0x13#8, []) := by decide
theorem test_decode_abort20 : decode .header [0b00100100#8] = .ok (.abort20 0x24#8, []) := by decide
theorem test_decode_abort40 : decode .header [0b01010101#8] = .ok (.abort40 0x55#8, []) := by decide
theorem test_decode_abort80 : decode .header [0b10101011#8, 0x00#8] = .ok (.abort80 0xAB#8, [0x00#8]) := by decide
theorem test_decode_sync : decode .preamble [0b10101011#8] = .ok (.sync, []) := by decide

/-- The refusals of the decoder, by name. -/
theorem test_decode_rejects : decode .header [] = .error .empty ∧ decode .header [0x00#8, 0xFF#8, 0xFF#8] = .error .shortWrite
    ∧ decode .header [0x01#8, 0#8, 0#8, 0#8] = .error .shortRead ∧ decode .preamble [0xAA#8] = .error .noSync
    ∧ decode .preamble [] = .error .empty := by decide

/-- The bits of X7's read request, in wire order. -/
theorem test_bits_rd : bitsOfBytes (encode (.rd 0x40000004#32)) =
    [0,0,0,0,0,0,0,1, 0,1,0,0,0,0,0,0, 0,0,0,0,0,0,0,0, 0,0,0,0,0,0,0,0, 0,0,0,0,0,1,0,0].map (· == 1) := by decide

/-- Table words: bit 0 is the least significant bit of the first byte, so a WR's address bytes follow its header byte. -/
theorem test_decodeTableWord : decodeTableWord 72 0x785634120400004000 = some (.wr 0x40000004#32 0x12345678#32)
    ∧ decodeTableWord 40 0x0400004001 = some (.rd 0x40000004#32) ∧ decodeTableWord 8 0x01 = some (.rd 0#32)
    ∧ decodeTableWord 8 0x02 = some (.abort02 0x02#8) ∧ decodeTableWord 8 0xAB = some .sync := by decide

/-! ## Single-tick vectors (95_test_vectors.md sections 2.2 to 2.5) -/

/-- The reset registers with frame-select synchronized active: the vectors' base. -/
def sel : Regs := { Regs.reset with csnS1 := false, csnS2 := false }

/-- The edge column of the vectors. -/
def onRise (r : Regs) : Regs := { r with clkS2 := true, clkPrev := false }
def onFall (r : Regs) : Regs := { r with clkS2 := false, clkPrev := true }

/-- Inputs with nothing happening. -/
def quiet : Inputs :=
  { rawClk := false, rawCsn := false, rawDin := false, rst := false, busAck := false, busErr := false, busDatR := 0#32 }

/-- The four configurations used. -/
def four : Config := ⟨.four, true⟩
def fourPlain : Config := ⟨.four, false⟩
def three : Config := ⟨.three, true⟩
def two : Config := ⟨.two, true⟩

/-- The registers of a tick but for the synchronizers and the edge memory, which the vectors do not list. -/
def listed (r : Regs) : Regs :=
  { r with clkS1 := false, clkS2 := false, dinS1 := false, dinS2 := false, csnS1 := false, csnS2 := false, clkPrev := false }

/-- A vector: these registers and inputs give these listed registers and raise these events. -/
def vector (cfg : Config) (r : Regs) (i : Inputs) (post : Regs) (ev : List Event) : Bool :=
  listed (coreTick cfg r i) == listed post && raisedEvents cfg r i == ev

/-- T1, ticks 1, 3, 5 and 9: captured levels two ticks later, the start, the first bit and the fall. -/
theorem test_T1 :
    let high := { quiet with rawClk := true, rawDin := true }
    let t2 := { Regs.reset with csnS1 := false, csnS2 := true }
    let t3 := coreTick four t2 { quiet with rawDin := true }
    let t4 := coreTick four t3 high
    let t6 := coreTick four (coreTick four t4 high) high
    t3.proto = .idle ∧ t3.csnS2 = false ∧ t4.proto = .getHeader ∧ t4.cnt = 0#8 ∧ t6.cnt = 1#8 ∧ t6.command = 0x01#8 := by
  decide

/-- W1 to W6: the sync window, and frame reset over everything. -/
theorem test_vectors_W :
    let w := { Regs.reset with proto := .idle, window := 0x55#8, dinS2 := true }
    vector two (onRise w) quiet { w with window := 0xAB#8, proto := .getHeader } [] &&
    vector two (onRise { w with dinS2 := false }) quiet { w with window := 0xAA#8 } [] &&
    vector two (onRise { w with window := 0x57#8 }) quiet { w with window := 0xAF#8 } [] &&
    vector two (onFall w) quiet w [] &&
    vector four { sel with proto := .readValue, cnt := 50#8, value := 0x1234#32, csnS2 := true } quiet sel [.frameCancel] &&
    vector four (onRise { sel with csnS2 := true, dinS2 := true }) quiet sel [] = true := by decide

/-- The pin-drive table of section 2.2, by `WIRES`, `TRISTATE`, `oe` and `dout`. -/
theorem test_pin_drive : ∀ d : Bool, adapterPin four true d = some d ∧ adapterPin four false d = none
    ∧ adapterPin fourPlain true d = some d ∧ adapterPin fourPlain false d = some d ∧ adapterPin three true d = some d
    ∧ adapterPin three false d = none ∧ adapterPin two true d = some d ∧ adapterPin two false d = none := by decide

/-- H1 to H9: the start and the header. -/
theorem test_vectors_H :
    let h := { sel with proto := .getHeader }
    let b := fun (c : Byte) (d : Bool) => onRise { h with command := c, cnt := 7#8, dinS2 := d }
    vector four sel quiet h [] &&
    vector four (onRise { sel with dinS2 := true }) quiet { h with command := 0x01#8, cnt := 1#8 } [] &&
    vector four (b 0x00#8 false) quiet { h with proto := .readAddress, isWrite := true, cnt := 8#8 } [] &&
    vector four (b 0x00#8 true) quiet { h with proto := .readAddress, command := 0x01#8, cnt := 8#8 } [] &&
    vector four (b 0x01#8 false) quiet { h with proto := .endFrame, command := 0x02#8, cnt := 8#8 } [.framingAbort 0x02#8] &&
    vector four (b 0x7F#8 true) quiet { h with proto := .endFrame, command := 0xFF#8, cnt := 8#8 } [.framingAbort 0xFF#8] &&
    vector four (b 0x55#8 true) quiet { h with proto := .endFrame, command := 0xAB#8, cnt := 8#8 } [.framingAbort 0xAB#8] &&
    vector four (onFall { h with command := 0x05#8, cnt := 3#8, dinS2 := true }) quiet { h with command := 0x05#8, cnt := 3#8 } [] &&
    vector four (onRise { h with command := 0x05#8, cnt := 3#8, dinS2 := true }) quiet { h with command := 0x0B#8, cnt := 4#8 } []
      = true := by decide

/-- A1 to A4, V1, V2, C1, C2: address, value and counter. -/
theorem test_vectors_AVC :
    let a := fun (x : Word) (c : BitVec 8) (w d : Bool) =>
      onRise { sel with proto := .readAddress, address := x, cnt := c, isWrite := w, dinS2 := d }
    let v := fun (x : Word) (d : Bool) => onRise { sel with proto := .readValue, value := x, cnt := 71#8, isWrite := true, dinS2 := d }
    vector four (a 0x20000002#32 39#8 true false) quiet
      { sel with proto := .readValue, address := 0x40000004#32, cnt := 40#8, isWrite := true } [] &&
    vector four (a 0x20000002#32 39#8 false false) quiet { sel with proto := .busRead, address := 0x40000004#32, cnt := 40#8 } [] &&
    vector four (a 0x000FFFFF#32 28#8 true true) quiet
      { sel with proto := .readAddress, address := 0x001FFFFF#32, cnt := 29#8, isWrite := true } [] &&
    vector four (a 0x80000000#32 8#8 true true) quiet
      { sel with proto := .readAddress, address := 0x00000001#32, cnt := 9#8, isWrite := true } [] &&
    vector four (v 0x091A2B3C#32 false) quiet
      { sel with proto := .busWrite, value := 0x12345678#32, cnt := 72#8, isWrite := true } [] &&
    vector four (v 0x7FFFFFFF#32 true) quiet
      { sel with proto := .busWrite, value := 0xFFFFFFFF#32, cnt := 72#8, isWrite := true } [] &&
    vector four (onRise { sel with proto := .endFrame, cnt := 255#8, turned := true, dout := false, dinS2 := true }) quiet
      { sel with proto := .endFrame, cnt := 0#8, turned := true, dout := false } [] &&
    vector two (onRise { Regs.reset with dinS2 := true }) quiet { Regs.reset with window := 0x01#8 } [] = true := by decide

/-- B1 to B10: the bus states, and answers outside them. -/
theorem test_vectors_B :
    let w := { sel with proto := .busWrite, isWrite := true, cnt := 72#8, address := 0x40000004#32, value := 0x12345678#32 }
    let r := { sel with proto := .busRead, cnt := 40#8 }
    let ans := fun (a e : Bool) (d : Word) => { quiet with busAck := a, busErr := e, busDatR := d }
    let done := fun (d : Word) => { r with proto := .waitByteBoundary, value := d }
    vector four w (ans true false 0#32) { w with proto := .waitByteBoundary } [] &&
    vector four w quiet w [] &&
    vector four r (ans true false 0x12345678#32) (done 0x12345678#32) [] &&
    vector four r (ans false true 0x5A5A5A5A#32) (done 0x5A5A5A5A#32) [.busError] &&
    vector four r (ans true true 0xCAFEF00D#32) (done 0xCAFEF00D#32) [.busError] &&
    vector four (onFall r) quiet { r with turned := true } [] &&
    vector four (onFall r) (ans true false 0x11111111#32) { done 0x11111111#32 with turned := true } [] &&
    vector four { r with turned := true, csnS2 := true } (ans true false 0x11111111#32) sel [.frameCancel] &&
    vector four (onRise { w with dinS2 := true }) quiet { w with cnt := 73#8 } [] &&
    vector four { sel with proto := .getHeader, cnt := 3#8, command := 0x05#8 } (ans true false 0x11111111#32)
      { sel with proto := .getHeader, cnt := 3#8, command := 0x05#8 } [] = true := by decide

/-- The bus outputs of section 2.4 (X2). -/
theorem test_bus_outputs :
    let r := { sel with address := 0x40000004#32, value := 0x12345678#32 }
    busOut { r with proto := .busWrite } = ⟨true, true, true, 0x10000001#30, 0x12345678#32, 0xF#4⟩ ∧
    busOut { r with proto := .busRead } = ⟨true, true, false, 0x10000001#30, 0x12345678#32, 0xF#4⟩ ∧
    (busOut { r with proto := .waitByteBoundary }).cyc = false := by decide

/-- E1 to E17: the response encoder. -/
theorem test_vectors_E :
    let v := { sel with turned := true, dout := false }
    let wait := { sel with proto := .waitByteBoundary }
    let resp := { v with proto := .writeResponse, value := 0x12345678#32 }
    let val := { v with proto := .writeValue, value := 0x80000001#32 }
    let fin := { v with proto := .endFrame, cnt := 88#8, value := 5#32 }
    vector four (onFall { wait with isWrite := true, cnt := 72#8 }) quiet
      { v with proto := .writeWrResponse, isWrite := true, cnt := 72#8 } [] &&
    vector four (onFall { wait with cnt := 44#8 }) quiet { wait with cnt := 44#8, turned := true } [] &&
    vector four (onFall { wait with cnt := 48#8, turned := true }) quiet { v with proto := .writeResponse, cnt := 48#8 } [] &&
    vector four (onRise { wait with cnt := 47#8, turned := true }) quiet { wait with cnt := 48#8, turned := true } [] &&
    vector four (onFall { v with proto := .writeWrResponse, cnt := 73#8 }) quiet { v with proto := .writeWrResponse, cnt := 73#8 } [] &&
    vector four (onFall { v with proto := .writeWrResponse, cnt := 80#8 }) quiet { v with proto := .endFrame, cnt := 80#8 } [] &&
    vector four (onFall { resp with cnt := 41#8 }) quiet { resp with cnt := 41#8 } [] &&
    vector four (onFall { resp with cnt := 47#8 }) quiet { resp with cnt := 47#8, dout := true } [] &&
    vector four (onFall { resp with cnt := 48#8, dout := true }) quiet
      { resp with cnt := 48#8, woff := 31#5, proto := .writeValue } [] &&
    vector four (onFall { resp with cnt := 48#8, dout := true, value := 0x92345678#32 }) quiet
      { resp with cnt := 48#8, dout := true, value := 0x92345678#32, woff := 31#5, proto := .writeValue } [] &&
    vector four (onFall { val with woff := 31#5, cnt := 49#8, dout := true }) quiet { val with woff := 30#5, cnt := 49#8 } [] &&
    vector four (onFall { val with woff := 1#5, cnt := 79#8 }) quiet { val with woff := 0#5, cnt := 79#8, dout := true } [] &&
    vector four (onFall { val with woff := 0#5, cnt := 80#8, dout := true }) quiet { val with cnt := 80#8, proto := .endFrame } [] &&
    vector four (onRise { val with woff := 5#5, cnt := 75#8, dout := true }) quiet
      { val with woff := 5#5, cnt := 76#8, dout := true } [] &&
    vector two (onRise { fin with window := 0xAB#8 }) quiet sel [] &&
    vector three (onRise fin) quiet { fin with cnt := 89#8 } [] &&
    vector three { fin with csnS2 := true } quiet sel [] = true := by decide

/-! ## One frame of each instruction (section 2.6, P1, P2) -/

/-- What a next state satisfies. -/
def reaches (o : Host.Outcome State Fault Refusal) (p : State → Bool) : Bool :=
  match o with
  | .next t => p t
  | .fault _ => false
  | .refused _ => false

/-- A two-wire instance with the sync byte just matched. -/
def twoOpen : State :=
  { State.resetWith two with core := { Regs.reset with proto := .getHeader, window := 0xAB#8 } }

/-- The host's samples of a response, the request's undriven bits before it. -/
def response (s : State) (quietBits : Nat) (bytes : List Byte) : Bool :=
  s.host.rx.reverse == List.replicate quietBits none ++ (bitsOfBytes bytes).map some

/-- `WR 0x40000005, 0x00000001`: word 0x10000001 is written, the low address bits ignored, the response is 00. -/
theorem test_wr : reaches (exec (.wr 0x40000005#32 0x00000001#32) State.reset) (fun t =>
    t.core.proto == .endFrame && t.core.isWrite && t.target.mem == [(0x40000004, 0x01#8)] && response t 72 [0x00#8])
    = true := by decide +kernel

/-- A read answered at `d` = 3 in two-wire mode: one fill byte, then 01 and the word (P2's word 0x400). -/
theorem test_rd : reaches (exec (.rd 0x00001000#32)
      { twoOpen with target := { mem := writeWord [] 0x400#30 0xCAFEF00D#32, plan := [⟨some 3, .ack, none, none⟩], waited := 0 } })
    (fun t => t.core.proto == .idle && response t 40 [0xFF#8, 0x01#8, 0xCA#8, 0xFE#8, 0xF0#8, 0x0D#8]) = true := by
  decide +kernel

/-- `HDR h`: END with the header, nothing driven, no bus access. -/
def abortsWith (i : Instr) (h : Byte) (s : State) : Bool :=
  reaches (exec i s) (fun t =>
    t.core.proto == .endFrame && t.core.command == h && t.core.dout && !t.core.turned && t.target.mem == [] &&
      t.events == [.framingAbort h] && response t 8 [])

theorem test_abort02 : abortsWith (.abort02 0x02#8) 0x02#8 State.reset = true := by decide +kernel
theorem test_abort04 : abortsWith (.abort04 0x07#8) 0x07#8 State.reset = true := by decide +kernel
theorem test_abort08 : abortsWith (.abort08 0x08#8) 0x08#8 State.reset = true := by decide +kernel
theorem test_abort10 : abortsWith (.abort10 0x1E#8) 0x1E#8 State.reset = true := by decide +kernel
theorem test_abort20 : abortsWith (.abort20 0x20#8) 0x20#8 (State.resetWith three) = true := by decide +kernel
theorem test_abort40 : abortsWith (.abort40 0x7F#8) 0x7F#8 State.reset = true := by decide +kernel
theorem test_abort80 : abortsWith (.abort80 0xAB#8) 0xAB#8 State.reset = true := by decide +kernel

/-- `SYNC` after line noise 1 1 0 (P2): GET_HEADER, `cnt` = 0, `window` = 0xAB. -/
theorem test_sync : reaches (exec .sync { State.resetWith two with core := { Regs.reset with window := 0x06#8 } }) (fun t =>
    t.core.proto == .getHeader && t.core.cnt == 0#8 && t.core.command == 0#8 && t.core.window == 0xAB#8) = true := by
  decide +kernel

/-! ## Memory -/

theorem test_memory_form : writeWord (writeWord [] 1#30 0x12005678#32) 0#30 0xFF#32 =
      [(0, 0xFF#8), (4, 0x78#8), (5, 0x56#8), (7, 0x12#8)]
    ∧ writeWord [(0, 0xFF#8), (4, 0x78#8)] 1#30 0#32 = [(0, 0xFF#8)]
    ∧ readWord [(0, 0xFF#8), (4, 0x78#8), (7, 0x12#8)] 1#30 = 0x12000078#32 := by decide

/-! ## Cases that meet the hypotheses of the statements -/

theorem witness_DecodeEncodeRoundTrip :
    (Instr.wr 0xFFFFFFFF#32 0x80000001#32).wellFormed ∧ (Instr.rd 0#32).wellFormed ∧ (Instr.abort02 0x02#8).wellFormed
    ∧ (Instr.abort04 0x04#8).wellFormed ∧ (Instr.abort08 0x0F#8).wellFormed ∧ (Instr.abort10 0x10#8).wellFormed
    ∧ (Instr.abort20 0x3F#8).wellFormed ∧ (Instr.abort40 0x40#8).wellFormed ∧ (Instr.abort80 0xFF#8).wellFormed
    ∧ Instr.sync.wellFormed := by decide

theorem witness_EncodeDecodeRoundTrip :
    decode .header [0x01#8, 1#8, 2#8, 3#8, 4#8, 5#8] = .ok (.rd 0x01020304#32, [5#8]) ∧
    decode .preamble [0xAB#8, 0x01#8] = .ok (.sync, [0x01#8]) := by decide

theorem witness_HeaderSelectsCommand : 2 ≤ (0x02#8).toNat ∧ 2 ≤ (0xFF#8).toNat ∧ ¬ 2 ≤ (0x01#8).toNat := by decide

theorem witness_ResetTickGivesResetValues :
    ({ quiet with rst := true }).rst = true ∧ four.hasFrameSelect = true ∧ two.hasFrameSelect = false := by decide

theorem witness_SynchronizersShiftEveryTick :
    quiet.rst = false ∧ ({ quiet with rst := true }).rst = true ∧ three.hasFrameSelect = true := by decide

theorem witness_CapturedLevelSeenTwoTicksLater :
    quiet.rst = false ∧ ({ quiet with rawClk := true }).rst = false ∧ four.hasFrameSelect = true ∧
    rise (coreTick four (coreTick four (coreTick four sel quiet) { quiet with rawClk := true }) quiet) = true := by decide

/-- PinDriveByWireMode: a driven and an undriven pin, and an undriven line at two ticks with two levels, in two-wire mode and
with the line pulled. -/
theorem witness_PinDriveByWireMode :
    oe { sel with proto := .busRead, turned := true } = true ∧ oe { sel with proto := .endFrame, turned := true } = false ∧
    (let s := { State.resetWith two with board := { pull := none, levels := [false, true], ticks := 0 } }
     let p : Pins := ⟨false, true, none⟩
     s.cfg.sharesDataLine = true ∧ oe s.core = false ∧ (sysTick false p s).core.dinS1 = false ∧
     (sysTick false p (sysTick false p s)).core.dinS1 = true ∧
     (sysTick false p { s with board := { s.board with pull := some true } }).core.dinS1 = true) := by
  decide

theorem witness_WindowShiftsInTwoWireIdleOnly :
    let end2 := { Regs.reset with proto := .endFrame, window := 0xAB#8 }
    let head := { Regs.reset with proto := .getHeader, window := 0xAB#8 }
    (Regs.reset.proto = .idle ∧ rise (onRise Regs.reset) = true ∧ rise (onFall Regs.reset) = false) ∧
    (coreTick two (onRise end2) quiet).window = 0x00#8 ∧ (coreTick two (onRise head) quiet).window = 0xAB#8 := by decide

/-- Twelve bits with no 0xAB among them, from the reset state of a two-wire instance. -/
theorem witness_NoFrameWithoutSyncByte :
    let s := State.resetWith two
    let bs := [true, false, true, false, true, false, true, false, true, false, true, false]
    s.cfg.hasFrameSelect = false ∧ clockLow s.core = true ∧ s.core.proto = .idle ∧ frameInv s.core = true ∧
    s.core.window = 0#8 ∧ (∀ pre post, bs ≠ pre ++ bitsOfByte syncByte ++ post) := by
  have h : ¬ bitsOfByte syncByte <:+:
      [true, false, true, false, true, false, true, false, true, false, true, false] := by decide
  exact ⟨rfl, rfl, rfl, rfl, rfl, fun pre post e => h ⟨pre, post, e.symm⟩⟩

theorem witness_FrameResetClearsFrame :
    let r := onRise { sel with proto := .readValue, value := 0xFFFF#32, csnS2 := true }
    four.hasFrameSelect = true ∧ r.csnS2 = true ∧ quiet.rst = false ∧ (coreTick four r quiet).value = 0#32 := by decide

theorem witness_EventsOfResetAndRelease :
    let r := fun (p : Proto) => { sel with proto := p, csnS2 := true }
    raisedEvents two Regs.reset { quiet with rst := true } = [.coreReset] ∧ raisedEvents four (r .idle) quiet = [] ∧
    raisedEvents four (r .endFrame) quiet = [] ∧ raisedEvents three (r .busWrite) quiet = [.frameCancel] := by decide

/-- Every row of the transition table is met by some tick, and a tick that meets none exists. -/
theorem witness_TransitionsAreTheTable :
    let at_ := fun (p : Proto) (c : BitVec 8) (w : Bool) => { sel with proto := p, cnt := c, isWrite := w }
    let head := fun (c : Byte) (d : Bool) => onRise { at_ .getHeader 7#8 false with command := c, dinS2 := d }
    TableRow four sel quiet .getHeader false ∧
    TableRow two (onRise { Regs.reset with window := 0x55#8, dinS2 := true }) quiet .getHeader false ∧
    TableRow four (head 0#8 false) quiet .readAddress true ∧
    TableRow four (head 0#8 true) quiet .readAddress false ∧
    TableRow four (head 1#8 false) quiet .endFrame false ∧
    TableRow four (onRise (at_ .readAddress 39#8 true)) quiet .readValue true ∧
    TableRow four (onRise (at_ .readAddress 39#8 false)) quiet .busRead false ∧
    TableRow four (onRise (at_ .readValue 71#8 true)) quiet .busWrite true ∧
    TableRow four (at_ .busWrite 72#8 true) { quiet with busErr := true } .waitByteBoundary true ∧
    TableRow four (onFall (at_ .waitByteBoundary 72#8 true)) quiet .writeWrResponse true ∧
    TableRow four (onFall (at_ .waitByteBoundary 48#8 false)) quiet .writeResponse false ∧
    TableRow four (onFall (at_ .writeWrResponse 80#8 true)) quiet .endFrame true ∧
    TableRow four (onFall (at_ .writeResponse 48#8 false)) quiet .writeValue false ∧
    TableRow four (onFall (at_ .writeValue 80#8 false)) quiet .endFrame false ∧
    TableRow two { Regs.reset with proto := .endFrame } quiet .idle false ∧
    (∀ q w, ¬ TableRow four (at_ .busRead 40#8 false) quiet q w) ∧
    frameReset four sel = false ∧ frameReset four { sel with csnS2 := true } = true := by
  refine ⟨.start rfl rfl, .startTwoWire rfl rfl, .write rfl rfl rfl rfl, .read rfl rfl rfl rfl, .abort rfl rfl rfl (by decide),
    .toValue rfl rfl rfl rfl, .toBusRead rfl rfl rfl rfl, .toBusWrite rfl rfl rfl, .answered (.inl rfl) (.inr rfl),
    .respondWrite rfl rfl rfl rfl, .respondRead rfl rfl rfl rfl, .acknowledged rfl rfl rfl, .headerSent rfl rfl rfl,
    .valueSent rfl rfl rfl, .rearm rfl rfl, ?_, rfl, rfl⟩
  intro q w h
  cases h <;> simp_all [quiet]

theorem witness_IdleStartsFrameWhenSelected :
    four.hasFrameSelect = true ∧ quiet.rst = false ∧ (onRise sel).csnS2 = false ∧ (onRise sel).proto = .idle := by decide

theorem witness_IdleWaitsForSyncByte : quiet.rst = false ∧ Regs.reset.proto = .idle := by decide

/-- Active ticks, for the statements about one protocol state: neither `rst` nor frame reset, with the edges the
clauses distinguish. -/
theorem witness_active_tick (p : Proto) :
    let r := { sel with proto := p }
    quiet.rst = false ∧ frameReset four r = false ∧ frameReset two r = false ∧ r.proto = p ∧
    rise (onRise r) = true ∧ rise r = false ∧ fall (onFall r) = true ∧ fall r = false := ⟨rfl, rfl, rfl, rfl, rfl, rfl, rfl, rfl⟩

/-- HeaderBitsAndDecision: the eighth bit of each kind of header, and a bit before it. -/
theorem witness_HeaderBitsAndDecision :
    let r := fun (c : Byte) (n : BitVec 8) (d : Bool) => onRise { sel with proto := .getHeader, command := c, cnt := n, dinS2 := d }
    (r 0#8 6#8 true).cnt + 1#8 ≠ 8#8 ∧ (r 0#8 7#8 false).cnt + 1#8 = 8#8 ∧ shl1 (r 0#8 7#8 false).command false = 0x00#8 ∧
    shl1 (r 0#8 7#8 true).command true = 0x01#8 ∧ 2 ≤ (shl1 (r 1#8 7#8 false).command false).toNat := by decide

theorem witness_BitCounterCountsRises :
    four.hasFrameSelect = true ∧ two.hasFrameSelect = false ∧
    (coreTick four (onRise { sel with proto := .endFrame, cnt := 255#8 }) quiet).cnt = 0#8 ∧
    (coreTick two (onRise { Regs.reset with proto := .busRead, cnt := 40#8 }) quiet).cnt = 41#8 ∧
    (coreTick two (onRise { Regs.reset with cnt := 5#8 }) quiet).cnt = 5#8 ∧
    (coreTick two { Regs.reset with proto := .endFrame, cnt := 88#8 } quiet).cnt = 0#8 := by decide

theorem witness_DataInIgnoredAfterRequest :
    ({ sel with proto := .busRead }).proto ≠ .idle ∧ ({ sel with proto := .busRead }).proto ≠ .getHeader ∧
    ({ sel with proto := .busRead }).proto ≠ .readAddress ∧ ({ sel with proto := .busRead }).proto ≠ .readValue := by decide

theorem witness_TwoWireFrameEndsOnlyAtEnd :
    (coreTick two { Regs.reset with proto := .endFrame } quiet).proto = .idle ∧
    (coreTick two (onRise { Regs.reset with proto := .readValue, window := 0x55#8, dinS2 := true }) quiet).window = 0x55#8 := by
  decide

theorem witness_ErrorCompletesLikeAck : (true || false) = (false || true) ∧ (true || true) = (true || false) := by decide

theorem witness_AnswersIgnoredOutsideBusStates :
    ({ sel with proto := .waitByteBoundary }).proto ≠ .busWrite ∧ ({ sel with proto := .waitByteBoundary }).proto ≠ .busRead := by
  decide

/-- A request that stands, in a four-wire and a two-wire system, the target never answering. -/
def hung (cfg : Config) : State :=
  { State.resetWith cfg with
    core := { sel with proto := .busRead, command := 1#8, cnt := 40#8 }
    target := { mem := [], plan := [⟨none, .ack, none, none⟩], waited := 0 } }

theorem witness_UnansweredRequestNeverTimesOut :
    busCyc (hung four).core = true ∧ (hung four).target.current.delay = none ∧ four.hasFrameSelect = true ∧
    (hung four).core.csnS1 = false ∧ (hung four).core.csnS2 = false ∧
    (∀ p ∈ [(⟨true, false, none⟩ : Pins), ⟨false, false, some true⟩], p.csn = false) ∧ busCyc (hung two).core = true ∧
    (hung two).target.current.delay = none ∧ two.hasFrameSelect = false := by decide

/-- A write cut short by a release or by `rst`, the plan saying that it is performed, that it is not, or nothing. -/
theorem witness_CutShortAccessIsADraw :
    let released := fun (performed : Option Bool) =>
      { hung four with
        core := { (hung four).core with proto := .busWrite, csnS2 := true }
        target := { mem := [], plan := [⟨none, .ack, none, performed⟩], waited := 0 } }
    busCyc (released none).core = true ∧ cutsShort false (released none) = true ∧
    (released none).target.current.performed = none ∧ (released (some true)).target.current.performed = some true ∧
    (released (some false)).target.current.performed = some false ∧ (released none).core.proto = .busWrite ∧
    cutsShort true (hung two) = true := by decide

theorem witness_WordReadAfterWrite : Memory.wf [(3, 1#8), (0xFFFFFFFF, 2#8)] = true ∧ Memory.wf [] = true := by decide

theorem witness_MemoryFormIsCanonical : ∃ m, Memory.wf m = true ∧ Memory.wf m = true ∧ (∀ a, readByte a m = readByte a m) ∧ m ≠ [] :=
  ⟨[(3, 1#8)], rfl, rfl, fun _ => rfl, by decide⟩

theorem witness_DataOutChangesOnlyOnFalls :
    let r := { sel with proto := .endFrame, command := 0x01#8, turned := true, dout := false, cnt := 80#8 }
    frameInv r = true ∧ quiet.rst = false ∧ frameReset two r = false ∧ fall r = false ∧ frameInv sel = true := by decide

theorem witness_NoDriveDuringRequest :
    frameInv Regs.reset = true ∧ frameInv { sel with proto := .getHeader } = true ∧
    frameInv { sel with proto := .readAddress, isWrite := true, cnt := 8#8 } = true ∧
    frameInv { sel with proto := .readValue, isWrite := true, cnt := 71#8 } = true ∧
    frameInv { sel with proto := .endFrame, command := 0x02#8, cnt := 8#8 } = true := by decide

/-- The link at rest: IDLE after reset, and END of the frame before with frame-select still asserted. -/
def threeEnd : State :=
  { State.resetWith three with core := { sel with proto := .endFrame, command := 0x02#8, cnt := 8#8 } }

/-- `s` with a target that answers its next request at tick `d`. -/
def answeringAt (d : Nat) (s : State) : State :=
  { s with target := { mem := [(0, 1#8)], plan := [⟨some d, .err, none, none⟩], waited := 0 } }

/-- WriteFrameCompletes, ReadFrameCompletes: every kind of ready state, the delays at the edges of a fill count, and the
last delay the host's patience of 16 reaches. -/
theorem witness_frames_complete :
    readyForFrame State.reset = true ∧ readyForFrame threeEnd = true ∧ readyForFrame twoOpen = true ∧
    answersWithin State.reset 0 ∧ answersWithin (answeringAt 2 threeEnd) 2 ∧ answersWithin (answeringAt 3 twoOpen) 3 ∧
    answersWithin (answeringAt 962 twoOpen) 962 ∧ fillBytes 2 = 0 ∧ fillBytes 3 = 1 ∧ fillBytes 66 = 1 ∧
    fillBytes 67 = 2 ∧ fillBytes 962 = 15 ∧ readyForFrame (answeringAt 3 twoOpen) = true := by
  refine ⟨by decide, by decide, by decide, ⟨rfl, by decide⟩, ⟨rfl, by decide⟩, ⟨rfl, by decide⟩, ⟨rfl, by decide⟩, ?_⟩
  decide

theorem witness_AbortFrameCompletes :
    readyForFrame threeEnd = true ∧ readyForFrame twoOpen = true ∧ 2 ≤ (0x02#8).toNat ∧ 2 ≤ (0xFF#8).toNat := by decide

theorem witness_SyncByteOpensFrame :
    awaitingSync (State.resetWith two) = true ∧
    awaitingSync { State.resetWith two with core := { Regs.reset with window := 0xFF#8 } } = true ∧
    awaitingSync { State.resetWith two with core := { Regs.reset with window := 0x55#8 } } = false := by decide

theorem witness_SyncByteIsAbortWithFrameSelect : linkAtRest State.reset = true ∧ linkAtRest threeEnd = true := by decide

theorem witness_UnansweredFrameReadsOnes :
    let s := { twoOpen with target := { mem := [], plan := [⟨none, .ack, none, none⟩], waited := 0 } }
    readyForFrame s = true ∧ s.target.current.delay = none := by decide

theorem witness_WriteThenReadReturnsValue :
    let plan := [⟨some 0, .ack, none, none⟩, ⟨some 66, .ack, none, none⟩]
    let s := { twoOpen with target := { mem := [(5, 1#8)], plan := plan, waited := 0 } }
    readyForFrame s = true ∧ s.target.plan = ⟨some 0, .ack, none, none⟩ :: ⟨some 66, .ack, none, none⟩ :: [] ∧
    Memory.wf s.target.mem = true ∧ fillBytes 0 < s.host.patience ∧ fillBytes 66 < s.host.patience := by decide

/-- FrameAfterAnyFrame: P4's write cut short in READ_ADDRESS, a read hung on the bus, a read answered at the last tick
before the core sees the release, one whose answer comes a tick later and is cut, END, and IDLE released. -/
theorem witness_FrameAfterAnyFrame :
    let mid := { State.reset with core := { sel with proto := .readAddress, isWrite := true, address := 0xFFFF#32, cnt := 24#8 } }
    let reading := fun (d : Nat) =>
      { hung four with target := { mem := [], plan := [⟨some d, .err, some 0xFF#32, none⟩], waited := 4 } }
    (∀ s ∈ [mid, hung four, reading 5, reading 6, threeEnd, State.reset],
      s.cfg.hasFrameSelect = true ∧ clockLow s.core = true ∧ s.core.csnS1 = s.core.csnS2) ∧
    answeredBeforeRelease (reading 5) = true ∧ answeredBeforeRelease (reading 6) = false ∧ busCyc (reading 6).core = true ∧
    (releaseSelect (reading 5)).events = [.frameCancel, .busError] ∧ (releaseSelect (reading 6)).events = [.frameCancel] ∧
    (releaseSelect mid).events = [.frameCancel] ∧ (releaseSelect threeEnd).events = [] ∧ (openFrame mid).core.address = 0#32 := by
  decide

theorem witness_ResponseHidesBusError : readyForFrame threeEnd = true ∧ fillBytes 67 < threeEnd.host.patience := by decide

theorem witness_StepRunsDecodedInstruction :
    let s := withScript [.frame .header [0x02#8, 0xFF#8], .clocks 3] State.reset
    s.host.script = .frame .header [0x02#8, 0xFF#8] :: [.clocks 3] ∧
    decode .header [0x02#8, 0xFF#8] = .ok (.abort02 0x02#8, [0xFF#8]) ∧
    decode .preamble [0xAB#8, 0x01#8] = .ok (.sync, [0x01#8]) := by decide

/-- A two-wire host's stream `AB 02 AB`: SYNC, then a header, then the next sync byte, whatever the core's registers are. -/
theorem test_two_wire_stream :
    pushRest two .sync [0x02#8, 0xAB#8] [] = [.frame .header [0x02#8, 0xAB#8]] ∧
    pushRest two (.abort02 0x02#8) [0xAB#8] [] = [.frame .preamble [0xAB#8]] ∧
    pushRest three (.abort02 0x02#8) [0xAB#8] [] = [.bits (bitsOfByte 0xAB#8)] := by decide

theorem witness_FetchWordRunsTableInstruction :
    decodeTableWord 72 0 = some (.wr 0#32 0#32) ∧ State.reset.cfg.hasFrameSelect = true ∧
    decodeTableWord 8 0xAB = some .sync ∧ (State.resetWith two).cfg.hasFrameSelect = false := by decide

theorem witness_StepIsOneTick :
    (withScript [.tick true State.reset.host.pins] State.reset).host.script = .tick true State.reset.host.pins :: [] ∧
    State.reset.host.script = [] := by decide

/-- StepKeepsInvariant and StepKeepsConfiguration: the step of the reset state. -/
theorem witness_StepKeepsInvariant : ∃ t, State.reset.inv = true ∧ step State.reset = .next t := ⟨_, by decide, rfl⟩

end Sys2Proof.Machine
end

namespace Sys2Proof

/-! Construction (00_scope.md R3): `Config.ofWires` case by case, then O7 assembled from the cases. -/

@[simp] theorem Config.ofWires_four (tri : Bool) : Config.ofWires 4 tri = some ⟨.four, tri⟩ := rfl

@[simp] theorem Config.ofWires_three (tri : Bool) : Config.ofWires 3 tri = some ⟨.three, tri⟩ := rfl

@[simp] theorem Config.ofWires_two (tri : Bool) : Config.ofWires 2 tri = some ⟨.two, tri⟩ := rfl

/-- The refusal of R3: the last arm of the match is the one a value other than 2, 3 and 4 reaches. -/
theorem Config.ofWires_eq_none {w : Nat} (tri : Bool) (h4 : w ≠ 4) (h3 : w ≠ 3) (h2 : w ≠ 2) :
    Config.ofWires w tri = none := by
  unfold Config.ofWires
  split
  · exact absurd rfl h4
  · exact absurd rfl h3
  · exact absurd rfl h2
  · rfl

/-- Settles O7, by the case of the wire count: each accepted mode, then every other value. -/
theorem constructionRefusesOtherWires : Obligations.ConstructionRefusesOtherWires := by
  unfold Obligations.ConstructionRefusesOtherWires
  intro w tri
  split_ifs with h4 h3 h2
  · rw [h4, Config.ofWires_four]
  · rw [h3, Config.ofWires_three]
  · rw [h2, Config.ofWires_two]
  · exact Config.ofWires_eq_none tri h4 h3 h2

end Sys2Proof

namespace Sys2Proof

/-! Wire order (30_encoding.md R41, R42): the bit at each index of a byte, of a byte sequence and of a 32-bit field, then the
request layouts O4 and O5 assembled from them. -/

/-- R42 for one byte: wire bit `k` is bit `7 - k`. -/
theorem getElem?_bitsOfByte (b : Byte) {k : Nat} (hk : k < 8) : (bitsOfByte b)[k]? = some (b.getLsbD (7 - k)) := by
  interval_cases k <;> rfl

@[simp] theorem length_bitsOfBytes (bs : List Byte) : (bitsOfBytes bs).length = 8 * bs.length := by
  induction bs with
  | nil => rfl
  | cons b bs ih => rw [bitsOfBytes_cons, List.length_append, length_bitsOfByte, ih, List.length_cons]; omega

/-- The first eight wire bits are the first byte's. -/
theorem getElem?_bitsOfBytes_cons_head (b : Byte) (bs : List Byte) {k : Nat} (hk : k < 8) :
    (bitsOfBytes (b :: bs))[k]? = some (b.getLsbD (7 - k)) := by
  rw [bitsOfBytes_cons, List.getElem?_append_left (by simpa using hk), getElem?_bitsOfByte b hk]

/-- Past the first byte, the wire bits are those of the bytes after it. -/
theorem getElem?_bitsOfBytes_cons_tail (b : Byte) (bs : List Byte) (k : Nat) :
    (bitsOfBytes (b :: bs))[8 + k]? = (bitsOfBytes bs)[k]? := by
  rw [bitsOfBytes_cons, List.getElem?_append_right (by simp), length_bitsOfByte, Nat.add_sub_cancel_left]

/-- R41: wire bit `8 * j + k` is bit `7 - k` of byte `j`. -/
theorem getElem?_bitsOfBytes (bs : List Byte) (j : Nat) {k : Nat} (hk : k < 8) :
    (bitsOfBytes bs)[8 * j + k]? = bs[j]?.map (·.getLsbD (7 - k)) := by
  induction bs generalizing j with
  | nil => rfl
  | cons b bs ih =>
    cases j with
    | zero => simpa using getElem?_bitsOfBytes_cons_head b bs hk
    | succ j =>
      rw [show 8 * (j + 1) + k = 8 + (8 * j + k) by omega, getElem?_bitsOfBytes_cons_tail, ih, List.getElem?_cons_succ]

@[simp] theorem length_bytesOfWord (w : Word) : (bytesOfWord w).length = 4 := rfl

/-- The bytes of a field stand in descending order: byte `j` starts at bit `24 - 8 * j`. -/
theorem getElem?_bytesOfWord (w : Word) {j : Nat} (hj : j < 4) :
    (bytesOfWord w)[j]? = some (w.extractLsb' (24 - 8 * j) 8) := by
  interval_cases j <;> rfl

/-- R42 for a 32-bit field: wire bit `k` is bit `31 - k`. -/
theorem getElem?_bitsOfBytes_bytesOfWord (w : Word) {k : Nat} (hk : k < 32) :
    (bitsOfBytes (bytesOfWord w))[k]? = some (w.getLsbD (31 - k)) := by
  have hbit : k % 8 < 8 := Nat.mod_lt k (by decide)
  have hpos : 24 - 8 * (k / 8) + (7 - k % 8) = 31 - k := by omega
  calc (bitsOfBytes (bytesOfWord w))[k]?
      = (bitsOfBytes (bytesOfWord w))[8 * (k / 8) + k % 8]? := by rw [Nat.div_add_mod]
    _ = some ((w.extractLsb' (24 - 8 * (k / 8)) 8).getLsbD (7 - k % 8)) := by
      rw [getElem?_bitsOfBytes _ _ hbit, getElem?_bytesOfWord w (by omega), Option.map_some]
    _ = some (w.getLsbD (31 - k)) := by
      rw [BitVec.getLsbD_extractLsb', hpos, decide_eq_true (by omega), Bool.true_and]

/-- A field keeps its wire bits when other bytes follow it. -/
theorem getElem?_bitsOfBytes_bytesOfWord_append (w : Word) (bs : List Byte) {k : Nat} (hk : k < 32) :
    (bitsOfBytes (bytesOfWord w ++ bs))[k]? = some (w.getLsbD (31 - k)) := by
  rw [bitsOfBytes_append, List.getElem?_append_left (by simpa using hk), getElem?_bitsOfBytes_bytesOfWord w hk]

/-- The bytes after a field have their wire bits 32 further on. -/
theorem getElem?_bitsOfBytes_after_bytesOfWord (w : Word) (bs : List Byte) (k : Nat) :
    (bitsOfBytes (bytesOfWord w ++ bs))[32 + k]? = (bitsOfBytes bs)[k]? := by
  rw [bitsOfBytes_append, List.getElem?_append_right (by simp)]
  simp

theorem encode_wr (a v : Word) : encode (.wr a v) = 0x00#8 :: (bytesOfWord a ++ bytesOfWord v) := rfl

theorem encode_rd (a : Word) : encode (.rd a) = 0x01#8 :: bytesOfWord a := rfl

/-- The read header 0x01 in wire order: seven zeros, then a one. -/
theorem getLsbD_readHeader {k : Nat} (hk : k < 8) : (0x01#8).getLsbD (7 - k) = decide (k = 7) := by
  interval_cases k <;> rfl

/-- Settles O4, field by field: the header byte, the address after it, the value after the address. -/
theorem writeRequestLayout : Obligations.WriteRequestLayout := by
  unfold Obligations.WriteRequestLayout
  intro a v
  refine ⟨?length, fun k hk => ?header, fun k hk => ?address, fun k hk => ?value, rfl⟩
  case length => simp [encode_wr]
  case header => rw [encode_wr, getElem?_bitsOfBytes_cons_head _ _ hk, BitVec.getLsbD_zero]
  case address => rw [encode_wr, getElem?_bitsOfBytes_cons_tail, getElem?_bitsOfBytes_bytesOfWord_append a _ hk]
  case value =>
    rw [encode_wr, show 40 + k = 8 + (32 + k) by omega, getElem?_bitsOfBytes_cons_tail,
      getElem?_bitsOfBytes_after_bytesOfWord, getElem?_bitsOfBytes_bytesOfWord v hk]

/-- Settles O5, field by field: the header byte, then the address. -/
theorem readRequestLayout : Obligations.ReadRequestLayout := by
  unfold Obligations.ReadRequestLayout
  intro a
  refine ⟨?length, fun k hk => ?header, fun k hk => ?address, rfl⟩
  case length => simp [encode_rd]
  case header => rw [encode_rd, getElem?_bitsOfBytes_cons_head _ _ hk, getLsbD_readHeader hk]
  case address => rw [encode_rd, getElem?_bitsOfBytes_cons_tail, getElem?_bitsOfBytes_bytesOfWord a hk]

end Sys2Proof

namespace Sys2Proof.Machine

/-! The serial edges (40_signal_recovery.md R58): each edge as the two levels it compares, then O11 assembled from them. -/

/-- R58: a rise is a high clock level after a low one. -/
theorem rise_iff (r : Regs) : rise r = true ↔ r.clkS2 = true ∧ r.clkPrev = false := by
  rw [rise, sclk, Bool.and_eq_true, Bool.not_eq_true']

/-- R58: a fall is a low clock level after a high one. -/
theorem fall_iff (r : Regs) : fall r = true ↔ r.clkS2 = false ∧ r.clkPrev = true := by
  rw [fall, sclk, Bool.and_eq_true, Bool.not_eq_true']

/-- Settles O11: the two definitions of an edge, and their exclusion because a rise leaves no fall. -/
theorem edgesAreExclusive : Obligations.EdgesAreExclusive := by
  unfold Obligations.EdgesAreExclusive
  intro r
  refine ⟨rise_iff r, fall_iff r, ?exclusive⟩
  case exclusive =>
    rintro ⟨hrise, hfall⟩
    exact Bool.false_ne_true ((fall_of_rise hrise).symm.trans hfall)

end Sys2Proof.Machine

namespace Sys2Proof.Machine

/-! The order of a tick (42_protocol_fsm.md R71 items 5 and 6) seen from three registers: what the window, the counter and the
turnaround leave to the rule of the state. -/

section
variable (cfg : Config) (r w : Regs) (i : Inputs)

@[simp] theorem shiftWindow_proto : (shiftWindow cfg r w).proto = w.proto := by unfold shiftWindow; split <;> rfl
@[simp] theorem shiftWindow_isWrite : (shiftWindow cfg r w).isWrite = w.isWrite := by unfold shiftWindow; split <;> rfl
@[simp] theorem shiftWindow_cnt : (shiftWindow cfg r w).cnt = w.cnt := by unfold shiftWindow; split <;> rfl
@[simp] theorem countBit_proto : (countBit cfg r w).proto = w.proto := by unfold countBit; split <;> rfl
@[simp] theorem countBit_isWrite : (countBit cfg r w).isWrite = w.isWrite := by unfold countBit; split <;> rfl
@[simp] theorem turnaround_proto : (turnaround r w).proto = w.proto := by unfold turnaround; split <;> rfl
@[simp] theorem turnaround_isWrite : (turnaround r w).isWrite = w.isWrite := by unfold turnaround; split <;> rfl
@[simp] theorem turnaround_cnt : (turnaround r w).cnt = w.cnt := by unfold turnaround; split <;> rfl

/-- R81: a rise is counted everywhere but in two-wire IDLE. -/
theorem countBit_cnt : (countBit cfg r w).cnt =
    if rise r = true ∧ (cfg.hasFrameSelect = true ∨ r.proto ≠ .idle) then r.cnt + 1#8 else w.cnt := by
  simp only [countBit, Bool.and_eq_true, Bool.or_eq_true, bne_iff_ne]
  split <;> rfl

/-- A sync match (41_wire_mode.md R64) by its parts. -/
theorem syncMatch_iff : syncMatch cfg r = true ↔
    cfg.hasFrameSelect = false ∧ r.proto = .idle ∧ rise r = true ∧ shl1 r.window (din r) = syncByte := by
  simp [syncMatch, and_assoc]

end

/-! The transition table (R70): every row is what the rule of its state does, and a rule that changes `state` or `is_write`
does what some row says. -/

/-- The headers the third row of GET_HEADER is about. -/
theorem two_le_toNat_iff (c : Byte) : 2 ≤ c.toNat ↔ c ≠ 0x00#8 ∧ c ≠ 0x01#8 := by bv_omega

/-- `t` follows a row of the transition table from `r`, or has the state and `is_write` of `r`. -/
def FollowsTable (cfg : Config) (r : Regs) (i : Inputs) (t : Regs) : Prop :=
  TableRow cfg r i t.proto t.isWrite ∨ (t.proto = r.proto ∧ t.isWrite = r.isWrite)

section
variable {cfg : Config} {r w : Regs} {i : Inputs} (hp : w.proto = r.proto) (hw : w.isWrite = r.isWrite)
include hp hw

theorem followsTable_of_unchanged : FollowsTable cfg r i w := .inr ⟨hp, hw⟩

theorem ruleIdle_followsTable (h : r.proto = .idle) : FollowsTable cfg r i (ruleIdle cfg r w) := by
  unfold ruleIdle ruleIdleSelected ruleIdleTwoWire
  split_ifs with hsel hrise hsync
  · exact .inl (hw ▸ .start h hsel)
  · exact .inl (hw ▸ .start h hsel)
  · exact .inl (hw ▸ .startTwoWire h hsync)
  · exact followsTable_of_unchanged hp hw

theorem ruleGetHeader_followsTable (h : r.proto = .getHeader) : FollowsTable cfg r i (ruleGetHeader r w) := by
  simp only [ruleGetHeader]
  split_ifs with hrise hcnt hwr hrd
  · exact .inl (.write h hrise hcnt hwr)
  · exact .inl (.read h hrise hcnt hrd)
  · exact .inl (hw ▸ .abort h hrise hcnt ((two_le_toNat_iff _).mpr ⟨hwr, hrd⟩))
  · exact .inr ⟨hp, hw⟩
  · exact followsTable_of_unchanged hp hw

theorem ruleReadAddress_followsTable (h : r.proto = .readAddress) : FollowsTable cfg r i (ruleReadAddress r w) := by
  unfold ruleReadAddress
  split_ifs with hrise hcnt hdir
  · exact .inl (hw ▸ .toValue h hrise hcnt hdir)
  · exact .inl (hw ▸ .toBusRead h hrise hcnt (Bool.not_eq_true _ ▸ hdir))
  · exact .inr ⟨hp, hw⟩
  · exact followsTable_of_unchanged hp hw

theorem ruleReadValue_followsTable (h : r.proto = .readValue) : FollowsTable cfg r i (ruleReadValue r w) := by
  unfold ruleReadValue
  split_ifs with hrise hcnt
  · exact .inl (hw ▸ .toBusWrite h hrise hcnt)
  · exact .inr ⟨hp, hw⟩
  · exact followsTable_of_unchanged hp hw

theorem ruleBusWrite_followsTable (h : r.proto = .busWrite) : FollowsTable cfg r i (ruleBusWrite i w) := by
  unfold ruleBusWrite
  split_ifs with hans
  · exact .inl (hw ▸ .answered (.inl h) ((Bool.or_eq_true _ _).mp hans))
  · exact followsTable_of_unchanged hp hw

theorem ruleBusRead_followsTable (h : r.proto = .busRead) : FollowsTable cfg r i (ruleBusRead i w) := by
  unfold ruleBusRead
  split_ifs with hans
  · exact .inl (hw ▸ .answered (.inr h) ((Bool.or_eq_true _ _).mp hans))
  · exact followsTable_of_unchanged hp hw

theorem ruleWaitByteBoundary_followsTable (h : r.proto = .waitByteBoundary) :
    FollowsTable cfg r i (ruleWaitByteBoundary r w) := by
  unfold ruleWaitByteBoundary
  simp only [atByteBoundary_eq, Bool.and_eq_true, decide_eq_true_eq]
  split
  case isTrue hedge =>
    obtain ⟨hfall, hbyte⟩ := hedge
    split_ifs with hdir
    · exact .inl (hw ▸ .respondWrite h hfall hbyte hdir)
    · exact .inl (hw ▸ .respondRead h hfall hbyte (Bool.not_eq_true _ ▸ hdir))
  case isFalse => exact followsTable_of_unchanged hp hw

theorem ruleWriteWrResponse_followsTable (h : r.proto = .writeWrResponse) :
    FollowsTable cfg r i (ruleWriteWrResponse r w) := by
  unfold ruleWriteWrResponse
  simp only [atByteBoundary_eq, decide_eq_true_eq]
  split_ifs with hfall hbyte
  · exact .inl (hw ▸ .acknowledged h hfall hbyte)
  · exact .inr ⟨hp, hw⟩
  · exact followsTable_of_unchanged hp hw

theorem ruleWriteResponse_followsTable (h : r.proto = .writeResponse) :
    FollowsTable cfg r i (ruleWriteResponse r w) := by
  unfold ruleWriteResponse
  simp only [atByteBoundary_eq, decide_eq_true_eq]
  split_ifs with hfall hbyte
  · exact .inl (hw ▸ .headerSent h hfall hbyte)
  · exact .inr ⟨hp, hw⟩
  · exact followsTable_of_unchanged hp hw

theorem ruleWriteValue_followsTable (h : r.proto = .writeValue) : FollowsTable cfg r i (ruleWriteValue r w) := by
  unfold ruleWriteValue
  split_ifs with hfall hlast
  · exact .inl (hw ▸ .valueSent h hfall hlast)
  · exact .inr ⟨hp, hw⟩
  · exact followsTable_of_unchanged hp hw

theorem ruleEnd_followsTable (h : r.proto = .endFrame) : FollowsTable cfg r i (ruleEnd cfg w) := by
  unfold ruleEnd
  split_ifs with hsel
  · exact followsTable_of_unchanged hp hw
  · exact .inl (.rearm h (Bool.not_eq_true _ ▸ hsel))

/-- No transition but those of the table, state by state. -/
theorem stateRule_followsTable : FollowsTable cfg r i (stateRule cfg r i w) := by
  unfold stateRule
  cases h : r.proto with
  | idle => exact ruleIdle_followsTable hp hw h
  | getHeader => exact ruleGetHeader_followsTable hp hw h
  | readAddress => exact ruleReadAddress_followsTable hp hw h
  | readValue => exact ruleReadValue_followsTable hp hw h
  | busWrite => exact ruleBusWrite_followsTable hp hw h
  | busRead => exact ruleBusRead_followsTable hp hw h
  | waitByteBoundary => exact ruleWaitByteBoundary_followsTable hp hw h
  | writeWrResponse => exact ruleWriteWrResponse_followsTable hp hw h
  | writeResponse => exact ruleWriteResponse_followsTable hp hw h
  | writeValue => exact ruleWriteValue_followsTable hp hw h
  | endFrame => exact ruleEnd_followsTable hp hw h

omit hp in
/-- Every row of the table is taken, row by row. -/
theorem stateRule_of_tableRow {q : Proto} {b : Bool} (h : TableRow cfg r i q b) :
    (stateRule cfg r i w).proto = q ∧ (stateRule cfg r i w).isWrite = b := by
  cases h with
  | start h hsel => simp [stateRule, h, ruleIdle, hsel, ruleIdleSelected, hw]
  | startTwoWire h hsync =>
    obtain ⟨hsel, -⟩ := (syncMatch_iff cfg r).mp hsync
    simp [stateRule, h, ruleIdle, hsel, ruleIdleTwoWire, hsync, hw]
  | write h hrise hcnt hc => simp [stateRule, h, ruleGetHeader, hrise, hcnt, hc]
  | read h hrise hcnt hc => simp [stateRule, h, ruleGetHeader, hrise, hcnt, hc]
  | abort h hrise hcnt hc =>
    obtain ⟨hwr, hrd⟩ := (two_le_toNat_iff _).mp hc
    simp [stateRule, h, ruleGetHeader, hrise, hcnt, hwr, hrd, hw]
  | toValue h hrise hcnt hdir => simp [stateRule, h, ruleReadAddress, hrise, hcnt, hdir, hw]
  | toBusRead h hrise hcnt hdir => simp [stateRule, h, ruleReadAddress, hrise, hcnt, hdir, hw]
  | toBusWrite h hrise hcnt => simp [stateRule, h, ruleReadValue, hrise, hcnt, hw]
  | answered h hans =>
    rcases h with h | h
    · simp [stateRule, h, ruleBusWrite, hans, hw]
    · simp [stateRule, h, ruleBusRead, hans, hw]
  | respondWrite h hfall hbyte hdir =>
    simp [stateRule, h, ruleWaitByteBoundary, atByteBoundary_eq, hfall, hbyte, hdir, hw]
  | respondRead h hfall hbyte hdir =>
    simp [stateRule, h, ruleWaitByteBoundary, atByteBoundary_eq, hfall, hbyte, hdir, hw]
  | acknowledged h hfall hbyte => simp [stateRule, h, ruleWriteWrResponse, atByteBoundary_eq, hfall, hbyte, hw]
  | headerSent h hfall hbyte => simp [stateRule, h, ruleWriteResponse, atByteBoundary_eq, hfall, hbyte, hw]
  | valueSent h hfall hlast => simp [stateRule, h, ruleWriteValue, hfall, hlast, hw]
  | rearm h hsel => simp [stateRule, h, ruleEnd, hsel]

end

/-- Settles O19: `rst` and frame reset by what they clear; at other ticks each row is taken, and a tick that no row is about
keeps `state` and `is_write`, because the rule of the state follows the table. -/
theorem transitionsAreTheTable : Obligations.TransitionsAreTheTable := by
  unfold Obligations.TransitionsAreTheTable
  refine ⟨rfl, fun cfg r i => ⟨fun hrst => ?reset, fun hrst hf => ?release, fun hrst hf =>
    ⟨fun q b hrow => ?row, fun hnone => ?kept⟩⟩⟩
  case reset => simp [coreTick_rst hrst]
  case release => simp [coreTick_release hrst hf]
  case row =>
    rw [coreTick_active hrst hf]
    exact stateRule_of_tableRow (by simp) hrow
  case kept =>
    rw [coreTick_active hrst hf]
    exact (stateRule_followsTable (by simp) (by simp)).resolve_left (hnone _ _)

/-! The bit counter (R81): two rules set it, the others leave it as it was counted. -/

section
variable (cfg : Config) (r w : Regs) (i : Inputs)

/-- R75: the two-wire frame start clears the counter. -/
@[simp] theorem ruleIdle_cnt : (ruleIdle cfg r w).cnt = if syncMatch cfg r = true then 0#8 else w.cnt := by
  unfold ruleIdle
  split
  case isTrue hsel => simp [syncMatch, hsel, ruleIdleSelected]
  case isFalse => unfold ruleIdleTwoWire; split <;> rfl

@[simp] theorem ruleGetHeader_cnt : (ruleGetHeader r w).cnt = w.cnt := by
  simp only [ruleGetHeader]; split_ifs <;> rfl
@[simp] theorem ruleReadAddress_cnt : (ruleReadAddress r w).cnt = w.cnt := by
  unfold ruleReadAddress; split_ifs <;> rfl
@[simp] theorem ruleReadValue_cnt : (ruleReadValue r w).cnt = w.cnt := by
  unfold ruleReadValue; split_ifs <;> rfl
@[simp] theorem ruleBusWrite_cnt : (ruleBusWrite i w).cnt = w.cnt := by
  unfold ruleBusWrite; split <;> rfl
@[simp] theorem ruleBusRead_cnt : (ruleBusRead i w).cnt = w.cnt := by
  unfold ruleBusRead; split <;> rfl
@[simp] theorem ruleWaitByteBoundary_cnt : (ruleWaitByteBoundary r w).cnt = w.cnt := by
  unfold ruleWaitByteBoundary; split <;> rfl
@[simp] theorem ruleWriteWrResponse_cnt : (ruleWriteWrResponse r w).cnt = w.cnt := by
  unfold ruleWriteWrResponse; split_ifs <;> rfl
@[simp] theorem ruleWriteResponse_cnt : (ruleWriteResponse r w).cnt = w.cnt := by
  unfold ruleWriteResponse; split_ifs <;> rfl
@[simp] theorem ruleWriteValue_cnt : (ruleWriteValue r w).cnt = w.cnt := by
  unfold ruleWriteValue; split_ifs <;> rfl

/-- R110: two-wire END clears the counter. -/
@[simp] theorem ruleEnd_cnt : (ruleEnd cfg w).cnt = if cfg.hasFrameSelect = true then w.cnt else 0#8 := by
  unfold ruleEnd; split <;> rfl

/-- The rule of the state sets the counter at the two-wire frame start and in two-wire END only. -/
theorem stateRule_cnt : (stateRule cfg r i w).cnt =
    if syncMatch cfg r = true ∨ (cfg.hasFrameSelect = false ∧ r.proto = .endFrame) then 0#8 else w.cnt := by
  have hsync : r.proto ≠ .idle → syncMatch cfg r = false := fun h => by simp [syncMatch, h]
  unfold stateRule
  cases h : r.proto with
  | idle => simp
  | endFrame => cases hsel : cfg.hasFrameSelect <;> simp [hsync, h, hsel]
  | _ => simp [hsync, h]

variable {cfg r i}

/-- R81 for a tick without `rst` and without frame reset. -/
theorem coreTick_cnt (hrst : i.rst = false) (hf : frameReset cfg r = false) : (coreTick cfg r i).cnt =
    if syncMatch cfg r = true ∨ (cfg.hasFrameSelect = false ∧ r.proto = .endFrame) then 0#8
    else if rise r = true ∧ (cfg.hasFrameSelect = true ∨ r.proto ≠ .idle) then r.cnt + 1#8 else r.cnt := by
  rw [coreTick_active hrst hf, stateRule_cnt, turnaround_cnt, countBit_cnt, shiftWindow_cnt, recover_cnt]

end

/-- Counting modulo 256 is the counter's own addition. -/
theorem ofNat_toNat_add_one (c : BitVec 8) : BitVec.ofNat 8 (c.toNat + 1) = c + 1#8 := by
  rw [BitVec.ofNat_add, BitVec.ofNat_toNat, BitVec.setWidth_eq]

/-- Settles O25, from the counter of an active tick: outside two-wire IDLE and END no rule sets it and every rise counts; in
two-wire IDLE no rise counts. -/
theorem bitCounterCountsRises : Obligations.BitCounterCountsRises := by
  unfold Obligations.BitCounterCountsRises
  intro cfg r i hrst hf
  simp only [coreTick_cnt hrst hf, ofNat_toNat_add_one]
  refine ⟨fun hcounts => ?counted, fun hsel hidle => ?idle, fun hsel hend => ?ended⟩
  case counted =>
    have hset : ¬ (syncMatch cfg r = true ∨ (cfg.hasFrameSelect = false ∧ r.proto = .endFrame)) := by
      rw [syncMatch_iff]
      rcases hcounts with hsel | ⟨hidle, hend⟩
      · simp [hsel]
      · simp [hidle, hend]
    have hstate : cfg.hasFrameSelect = true ∨ r.proto ≠ .idle := hcounts.imp_right And.left
    simp only [if_neg hset, hstate, and_true]
  case idle => simp [hsel, hidle]
  case ended => simp [hsel, hend]

/-! Two-wire IDLE (R75, with the window of R63 and R64). -/

section
variable {cfg : Config} {r : Regs} {i : Inputs}

/-- IDLE raises no event: a frame-select release there cancels nothing (60_exceptions.md R120), and NoSync is a condition
(log entry 15). -/
theorem raisedEvents_idle (hrst : i.rst = false) (h : r.proto = .idle) : raisedEvents cfg r i = [] := by
  simp [raisedEvents, hrst, h]

/-- A tick of two-wire IDLE is the synchronizer shift, the window shift and the wait for the sync byte: there is no frame
reset, nothing is counted and nothing turned around. -/
theorem coreTick_idle_twoWire (hsel : cfg.hasFrameSelect = false) (hrst : i.rst = false) (h : r.proto = .idle) :
    coreTick cfg r i = ruleIdleTwoWire cfg r (shiftWindow cfg r (recover cfg r i)) := by
  have hf : frameReset cfg r = false := by simp [frameReset, hsel]
  have hcount : ∀ w, countBit cfg r w = w := fun w => by simp [countBit, hsel, h]
  rw [coreTick_active hrst hf, hcount, turnaround_of_proto _ (by simp [h]) (by simp [h]) (by simp [h])]
  simp [stateRule, h, ruleIdle, hsel]

end

/-- Settles O21, by the edge and the byte that the window would hold: without a rise neither the window nor the state moves;
at a rise the window takes the bit, and 0xAB starts the frame. -/
theorem idleWaitsForSyncByte : Obligations.IdleWaitsForSyncByte := by
  unfold Obligations.IdleWaitsForSyncByte
  intro tri r i hrst h
  have hsel : (Config.mk .two tri).hasFrameSelect = false := rfl
  refine ⟨?_, raisedEvents_idle hrst h⟩
  rw [coreTick_idle_twoWire hsel hrst h]
  split_ifs with hrise hsync
  · simp [ruleIdleTwoWire, syncMatch, shiftWindow, hrise]
  · simp [ruleIdleTwoWire, syncMatch, shiftWindow, hsel, h, hrise, hsync, syncByte]
  · simp [ruleIdleTwoWire, syncMatch, shiftWindow, hsel, h, hrise, hsync, syncByte]

end Sys2Proof.Machine

namespace Sys2Proof.Machine

/-! The bus states (44_bus_adapter.md R89, R90) and what a tick reads of the target's answer (R92). -/

section
variable {cfg : Config} {r w : Regs} {i j : Inputs}

/-- An active tick with a request standing: counting and turnaround go on, answered or not; an answer ends the request, and a
read takes the data with it. -/
theorem coreTick_bus (hrst : i.rst = false) (hf : frameReset cfg r = false) (hb : busCyc r = true) :
    coreTick cfg r i =
      { recover cfg r i with
        proto := if i.busAck || i.busErr then .waitByteBoundary else r.proto
        value := if r.proto == .busRead && (i.busAck || i.busErr) then i.busDatR else r.value
        cnt := if rise r then r.cnt + 1#8 else r.cnt
        turned := r.turned || fall r } := by
  have hnotWaiting : r.proto ≠ .waitByteBoundary := fun h => by simp [busCyc, h] at hb
  rw [coreTick_stall hrst hf (stalls_of_busCyc hb) (fun h => absurd h hnotWaiting), hb, Bool.true_and]

/-- An active tick with a request standing raises BusError exactly with `bus_err`. -/
theorem raisedEvents_bus (hrst : i.rst = false) (hf : frameReset cfg r = false) (hb : busCyc r = true) :
    raisedEvents cfg r i = if i.busErr then [.busError] else [] := by
  rw [raisedEvents_stall hrst hf (stalls_of_busCyc hb), hb, Bool.true_and]

/-- The rules of the states read an answer through its completion and its data only. -/
theorem stateRule_eq_of_completion (hc : (i.busAck || i.busErr) = (j.busAck || j.busErr)) (hd : i.busDatR = j.busDatR) :
    stateRule cfg r i w = stateRule cfg r j w := by
  unfold stateRule
  cases r.proto with
  | busWrite => simp only [ruleBusWrite, hc]
  | busRead => simp only [ruleBusRead, hc, hd]
  | _ => rfl

/-- Two ticks with the same `rst`, the same captured levels and the same completion and data of the target agree on every
register: `rst` and frame reset read no answer. -/
theorem coreTick_eq_of_completion (hrst : i.rst = j.rst) (hcapture : recover cfg r i = recover cfg r j)
    (hc : (i.busAck || i.busErr) = (j.busAck || j.busErr)) (hd : i.busDatR = j.busDatR) :
    coreTick cfg r i = coreTick cfg r j := by
  cases hj : j.rst with
  | true => rw [coreTick_rst (hrst.trans hj), coreTick_rst hj]
  | false =>
    cases hf : frameReset cfg r with
    | true => rw [coreTick_release (hrst.trans hj) hf, coreTick_release hj hf, hcapture]
    | false =>
      rw [coreTick_active (hrst.trans hj) hf, coreTick_active hj hf, hcapture, stateRule_eq_of_completion hc hd]

end

/-- Settles O29, from the tick of a standing request: a write keeps the value register. -/
theorem busWriteWaitsForAnswer : Obligations.BusWriteWaitsForAnswer := by
  unfold Obligations.BusWriteWaitsForAnswer
  intro cfg r i hrst hf h
  have hb : busCyc r = true := by simp [busCyc, h]
  refine ⟨?_, raisedEvents_bus hrst hf hb⟩
  have hkept : (if r.proto == .busRead && (i.busAck || i.busErr) then i.busDatR else r.value) = (recover cfg r i).value := by
    simp [h]
  rw [coreTick_bus hrst hf hb, hkept, h]

/-- Settles O30, from the tick of a standing request: a completed read takes the data of that tick. -/
theorem busReadLatchesData : Obligations.BusReadLatchesData := by
  unfold Obligations.BusReadLatchesData
  intro cfg r i hrst hf h
  have hb : busCyc r = true := by simp [busCyc, h]
  refine ⟨?_, raisedEvents_bus hrst hf hb⟩
  rw [coreTick_bus hrst hf hb, h, beq_self_eq_true, Bool.true_and]

/-- Settles O31: the two ticks differ in which line completes and in nothing else. -/
theorem errorCompletesLikeAck : Obligations.ErrorCompletesLikeAck := by
  unfold Obligations.ErrorCompletesLikeAck
  intro cfg r i a e hc
  exact coreTick_eq_of_completion rfl rfl hc.symm rfl

end Sys2Proof.Machine

namespace Sys2Proof.Machine

/-! The first byte of a response (45_response_encoder.md R105 to R107): what a fall does in each state, then the tick of a
responding state by its edge. -/

section
variable {cfg : Config} {r : Regs} {i : Inputs} (w : Regs)

theorem ne_idle_of_responds (hr : responds cfg r = true) : r.proto ≠ .idle := fun h => by simp [responds, h] at hr

/-- The rules of the responding states act at a fall only; END, held with a frame-select line, does not act at all. -/
theorem stateRule_of_not_fall (hr : responds cfg r = true) (hfall : fall r = false) : stateRule cfg r i w = w := by
  simp only [responds, Bool.or_eq_true, Bool.and_eq_true, beq_iff_eq] at hr
  rcases hr with (((hwait | hack) | hheader) | hvalue) | ⟨hend, hsel⟩
  · simp [stateRule, hwait, ruleWaitByteBoundary, hfall]
  · simp [stateRule, hack, ruleWriteWrResponse, hfall]
  · simp [stateRule, hheader, ruleWriteResponse, hfall]
  · simp [stateRule, hvalue, ruleWriteValue, hfall]
  · simp [stateRule, hend, ruleEnd, hsel]

/-- R105 at a fall: the response's first bit, a zero, goes out on a byte boundary. -/
theorem ruleWaitByteBoundary_of_fall (hfall : fall r = true) : ruleWaitByteBoundary r w =
    if r.cnt.toNat % 8 = 0 then
      { w with dout := false, proto := if r.isWrite then .writeWrResponse else .writeResponse }
    else w := by
  simp only [ruleWaitByteBoundary, hfall, atByteBoundary_eq, Bool.true_and, decide_eq_true_eq]

/-- R106 at a fall: a zero, and the end of the acknowledgement byte on a byte boundary. -/
theorem ruleWriteWrResponse_of_fall (hfall : fall r = true) : ruleWriteWrResponse r w =
    { w with dout := false, proto := if r.cnt.toNat % 8 = 0 then .endFrame else w.proto } := by
  simp only [ruleWriteWrResponse, hfall, if_true, atByteBoundary_eq, decide_eq_true_eq]
  split <;> rfl

/-- R107 at a fall: inside the header byte the one stands last; after it the value begins at its highest bit. -/
theorem ruleWriteResponse_of_fall (hfall : fall r = true) : ruleWriteResponse r w =
    if r.cnt.toNat % 8 = 0 then { w with dout := r.value.getLsbD 31, woff := 31#5, proto := .writeValue }
    else { w with dout := decide (r.cnt.toNat % 8 = 7) } := by
  simp only [ruleWriteResponse, hfall, if_true, atByteBoundary_eq, decide_eq_true_eq]
  split
  case isTrue => rfl
  case isFalse hinside => rw [readHeaderBit_eq r.cnt hinside]

/-- A tick of a responding state, by its edge: at a fall the rule of the state acts, over the turnaround and an unmoved
counter; at the other ticks only a rise is counted. -/
theorem coreTick_response_edge (hrst : i.rst = false) (hf : frameReset cfg r = false) (hr : responds cfg r = true) :
    coreTick cfg r i =
      if fall r then stateRule cfg r i (turnaround r (recover cfg r i))
      else { recover cfg r i with cnt := if rise r then r.cnt + 1#8 else r.cnt } := by
  have hidle : r.proto ≠ .idle := ne_idle_of_responds hr
  rw [coreTick_active hrst hf, shiftWindow_of_ne_idle _ hidle]
  cases hfall : fall r with
  | true => rw [countBit_of_not_rise _ (rise_of_fall hfall), if_pos rfl]
  | false =>
    rw [stateRule_of_not_fall _ hr hfall, turnaround_of_not_fall _ hfall]
    cases hrise : rise r with
    | false => exact countBit_of_not_rise _ hrise
    | true => exact countBit_of_rise _ hrise (.inr hidle)

/-- The responding states raise no event. -/
theorem raisedEvents_response (hrst : i.rst = false) (hf : frameReset cfg r = false) (hr : responds cfg r = true) :
    raisedEvents cfg r i = [] := by
  simp only [responds, Bool.or_eq_true, Bool.and_eq_true, beq_iff_eq] at hr
  rcases hr with (((h | h) | h) | h) | ⟨h, -⟩ <;> simp [raisedEvents, hrst, hf, h]

end

/-- Settles O38, by the edge: a fall turns around, and on a byte boundary drives the first bit as well. -/
theorem responseStartsOnByteBoundary : Obligations.ResponseStartsOnByteBoundary := by
  unfold Obligations.ResponseStartsOnByteBoundary
  intro cfg r i hrst hf h
  have hr : responds cfg r = true := by simp [responds, h]
  refine ⟨?_, raisedEvents_response hrst hf hr⟩
  rw [coreTick_response_edge hrst hf hr]
  refine ite_congr rfl (fun hfall => ?_) (fun _ => rfl)
  have hturned : turnaround r (recover cfg r i) = { recover cfg r i with turned := true } := by
    simp [turnaround, hfall, h]
  simp only [stateRule, h, hturned, ruleWaitByteBoundary_of_fall _ hfall]

/-- Settles O39, by the edge: every fall drives a zero, the one on a byte boundary ends the byte. -/
theorem writeAcknowledgementIsZeros : Obligations.WriteAcknowledgementIsZeros := by
  unfold Obligations.WriteAcknowledgementIsZeros
  intro cfg r i hrst hf h
  have hr : responds cfg r = true := by simp [responds, h]
  refine ⟨?_, raisedEvents_response hrst hf hr⟩
  rw [coreTick_response_edge hrst hf hr]
  refine ite_congr rfl (fun hfall => ?_) (fun _ => rfl)
  have hkept : turnaround r (recover cfg r i) = recover cfg r i :=
    turnaround_of_proto _ (by simp [h]) (by simp [h]) (by simp [h])
  simp only [stateRule, h, hkept, ruleWriteWrResponse_of_fall _ hfall, recover_proto]

/-- Settles O40, by the edge: a fall drives a header bit, and on a byte boundary the first value bit. -/
theorem readHeaderThenFirstValueBit : Obligations.ReadHeaderThenFirstValueBit := by
  unfold Obligations.ReadHeaderThenFirstValueBit
  intro cfg r i hrst hf h
  have hr : responds cfg r = true := by simp [responds, h]
  refine ⟨?_, raisedEvents_response hrst hf hr⟩
  rw [coreTick_response_edge hrst hf hr]
  refine ite_congr rfl (fun hfall => ?_) (fun _ => rfl)
  have hkept : turnaround r (recover cfg r i) = recover cfg r i :=
    turnaround_of_proto _ (by simp [h]) (by simp [h]) (by simp [h])
  simp only [stateRule, h, hkept, ruleWriteResponse_of_fall _ hfall]

end Sys2Proof.Machine


namespace Sys2Proof

/-! The codec (30_encoding.md sections 2 to 4): the decoder by the header byte, then O1, O2, O3 and O6 assembled from its
cases. -/

theorem decode_wr (a3 a2 a1 a0 v3 v2 v1 v0 : Byte) (rest : List Byte) :
    decode .header (0x00#8 :: a3 :: a2 :: a1 :: a0 :: v3 :: v2 :: v1 :: v0 :: rest) =
      .ok (.wr (wordOfBytes a3 a2 a1 a0) (wordOfBytes v3 v2 v1 v0), rest) := rfl

theorem decode_rd (a3 a2 a1 a0 : Byte) (rest : List Byte) :
    decode .header (0x01#8 :: a3 :: a2 :: a1 :: a0 :: rest) = .ok (.rd (wordOfBytes a3 a2 a1 a0), rest) := rfl

theorem decode_sync (rest : List Byte) : decode .preamble (syncByte :: rest) = .ok (.sync, rest) := rfl

/-- R48: every header from 0x02 up is an ABORT, whatever follows it. -/
theorem decode_abort {h : Byte} (h2 : 2 ≤ h.toNat) (rest : List Byte) :
    decode .header (h :: rest) = .ok (abortOfHeader h, rest) := by
  obtain ⟨h0, h1⟩ := (Machine.two_le_toNat_iff h).mp h2
  simp [decode, decodeHeader, h0, h1]

/-- An ABORT frame is its header byte alone, at the header position. -/
theorem encode_of_abortHeader {i : Instr} {h : Byte} (ha : i.abortHeader = some h) :
    encode i = [h] ∧ i.position = .header := by
  cases i <;> simp_all [Instr.abortHeader, encode, Instr.position]

/-- Settles O1, by the constructor: an ABORT row's header decodes to its own row, the fields of WR and RD come back from
their bytes. -/
theorem decodeEncodeRoundTrip : Obligations.DecodeEncodeRoundTrip := by
  unfold Obligations.DecodeEncodeRoundTrip
  intro i rest hw
  cases ha : i.abortHeader with
  | some h =>
    obtain ⟨henc, hpos⟩ := encode_of_abortHeader ha
    obtain ⟨h2, hrow⟩ := abortOfHeader_of_wellFormed i h ha hw
    rw [henc, hpos, List.singleton_append, decode_abort h2, hrow]
  | none =>
    cases i with
    | wr addr val => exact (decode_wr ..).trans (by rw [wordOfBytes_bytesOfWord, wordOfBytes_bytesOfWord]; rfl)
    | rd addr => exact (decode_rd ..).trans (by rw [wordOfBytes_bytesOfWord]; rfl)
    | sync => exact decode_sync rest
    | _ => cases ha

/-- A header whose frame the decoder accepts is an ABORT header, or one of WR and RD with all bytes of the frame. -/
theorem decode_header_cases {bytes : List Byte} {i : Instr} {rest : List Byte}
    (hd : decode .header bytes = .ok (i, rest)) :
    (∃ a3 a2 a1 a0 v3 v2 v1 v0, bytes = 0x00#8 :: a3 :: a2 :: a1 :: a0 :: v3 :: v2 :: v1 :: v0 :: rest ∧
      i = .wr (wordOfBytes a3 a2 a1 a0) (wordOfBytes v3 v2 v1 v0)) ∨
    (∃ a3 a2 a1 a0, bytes = 0x01#8 :: a3 :: a2 :: a1 :: a0 :: rest ∧ i = .rd (wordOfBytes a3 a2 a1 a0)) ∨
    (∃ h : Byte, 2 ≤ h.toNat ∧ bytes = h :: rest ∧ i = abortOfHeader h) := by
  cases bytes with
  | nil => cases hd
  | cons h tail =>
    by_cases h2 : 2 ≤ h.toNat
    · rw [decode_abort h2] at hd
      cases hd
      exact .inr (.inr ⟨h, h2, rfl, rfl⟩)
    · obtain rfl | rfl : h = 0x00#8 ∨ h = 0x01#8 := by bv_omega
      · match tail, hd with
        | _ :: _ :: _ :: _ :: _ :: _ :: _ :: _ :: _, hd =>
          cases hd
          exact .inl ⟨_, _, _, _, _, _, _, _, rfl, rfl⟩
      · match tail, hd with
        | _ :: _ :: _ :: _ :: _, hd =>
          cases hd
          exact .inr (.inl ⟨_, _, _, _, rfl, rfl⟩)

/-- Where the sync byte is expected the decoder accepts it alone. -/
theorem decode_preamble_cases {bytes : List Byte} {i : Instr} {rest : List Byte}
    (hd : decode .preamble bytes = .ok (i, rest)) : bytes = syncByte :: rest ∧ i = .sync := by
  cases bytes with
  | nil => cases hd
  | cons b tail =>
    by_cases hb : b = syncByte
    · subst hb
      cases hd
      exact ⟨rfl, rfl⟩
    · simp [decode, decodePreamble, hb] at hd

/-- Settles O2, by what the decoder accepts at each position. -/
theorem encodeDecodeRoundTrip : Obligations.EncodeDecodeRoundTrip := by
  unfold Obligations.EncodeDecodeRoundTrip
  intro pos bytes i rest hd
  cases pos with
  | preamble =>
    obtain ⟨rfl, rfl⟩ := decode_preamble_cases hd
    exact ⟨rfl, rfl, rfl⟩
  | header =>
    rcases decode_header_cases hd with ⟨a3, a2, a1, a0, v3, v2, v1, v0, rfl, rfl⟩ | ⟨a3, a2, a1, a0, rfl, rfl⟩ |
      ⟨h, h2, rfl, rfl⟩
    · exact ⟨rfl, rfl, by rw [encode_wr, bytesOfWord_wordOfBytes, bytesOfWord_wordOfBytes]; rfl⟩
    · exact ⟨rfl, rfl, by rw [encode_rd, bytesOfWord_wordOfBytes]; rfl⟩
    · obtain ⟨henc, hpos⟩ := encode_of_abortHeader (abortHeader_abortOfHeader h)
      exact ⟨wellFormed_abortOfHeader h h2, hpos, by rw [henc]; rfl⟩

/-- Settles O3, by the decoder's case for each kind of header. -/
theorem headerSelectsCommand : Obligations.HeaderSelectsCommand := by
  unfold Obligations.HeaderSelectsCommand
  intro h a3 a2 a1 a0 v3 v2 v1 v0 rest
  refine ⟨?write, ?read, fun h2 => ⟨abortOfHeader h, decode_abort h2 _, abortHeader_abortOfHeader h,
    wellFormed_abortOfHeader h h2⟩⟩
  case write => rintro rfl; exact decode_wr ..
  case read => rintro rfl; exact decode_rd ..

/-- Settles O6: each frame by the decoder's case for its header, its fields evaluated. -/
theorem sampleFramesDecode : Obligations.SampleFramesDecode := by
  unfold Obligations.SampleFramesDecode
  exact ⟨decode_wr .., decode_rd .., decode_abort (by decide) [], decode_abort (by decide) [], decode_sync []⟩

end Sys2Proof

namespace Sys2Proof.Machine

/-! Reset (70_reset_and_hazards.md R141), FrameClear at a release (42_protocol_fsm.md R72, R73), and the events of both. -/

theorem frameReset_of_csn {cfg : Config} {r : Regs} (hsel : cfg.hasFrameSelect = true) (hcsn : r.csnS2 = true) :
    frameReset cfg r = true := by simp [frameReset, csn, hsel, hcsn]

theorem frameReset_twoWire {cfg : Config} (r : Regs) (hsel : cfg.hasFrameSelect = false) : frameReset cfg r = false := by
  simp [frameReset, hsel]

/-- Settles O8, from the tick that is a reset. -/
theorem resetTickGivesResetValues : Obligations.ResetTickGivesResetValues := by
  unfold Obligations.ResetTickGivesResetValues
  intro cfg r i hrst
  rw [coreTick_rst hrst]
  refine ⟨rfl, rfl, rfl, rfl, rfl, fun hsel => ?select, rfl, rfl, rfl, rfl, rfl, rfl, rfl, rfl, rfl, fun hsel => ?window,
    ?outputs, rfl⟩
  case select => simp [hsel]
  case window => simp [hsel]
  case outputs => simp [busOut, busCyc, busWe, wordAddress]

/-- Settles O9: both parts are the reset state's own fields. -/
theorem resetStateRegisters : Obligations.ResetStateRegisters := by
  unfold Obligations.ResetStateRegisters
  exact ⟨rfl, rfl⟩

/-- Settles O17, from the tick that is a FrameClear over the moved synchronizers. -/
theorem frameResetClearsFrame : Obligations.FrameResetClearsFrame := by
  unfold Obligations.FrameResetClearsFrame
  intro cfg r i hsel hcsn hrst
  rw [coreTick_release hrst (frameReset_of_csn hsel hcsn)]
  simp [hsel]

/-- Settles O18, by the rank of `rst`, then of the release. -/
theorem eventsOfResetAndRelease : Obligations.EventsOfResetAndRelease := by
  unfold Obligations.EventsOfResetAndRelease
  intro cfg r i
  refine ⟨fun hrst => ?reset, fun hrst hsel hcsn => ⟨fun hquiet => ?quiet, fun hidle hend => ?cancel⟩⟩
  case reset => simp [raisedEvents, hrst]
  case quiet => rcases hquiet with h | h <;> simp [raisedEvents, hrst, frameReset_of_csn hsel hcsn, h]
  case cancel => simp [raisedEvents, hrst, frameReset_of_csn hsel hcsn, hidle, hend]

/-! The synchronizer stages (40_signal_recovery.md R53 to R58): no rule writes them, so a tick moves them as `recover` does. -/

/-- `t` has the synchronizer stages and the edge memory of `w`. -/
structure SameStages (w t : Regs) : Prop where
  clkS1 : t.clkS1 = w.clkS1
  clkS2 : t.clkS2 = w.clkS2
  dinS1 : t.dinS1 = w.dinS1
  dinS2 : t.dinS2 = w.dinS2
  csnS1 : t.csnS1 = w.csnS1
  csnS2 : t.csnS2 = w.csnS2
  clkPrev : t.clkPrev = w.clkPrev

theorem SameStages.trans {a b c : Regs} (h : SameStages a b) (h' : SameStages b c) : SameStages a c where
  clkS1 := h'.clkS1.trans h.clkS1
  clkS2 := h'.clkS2.trans h.clkS2
  dinS1 := h'.dinS1.trans h.dinS1
  dinS2 := h'.dinS2.trans h.dinS2
  csnS1 := h'.csnS1.trans h.csnS1
  csnS2 := h'.csnS2.trans h.csnS2
  clkPrev := h'.clkPrev.trans h.clkPrev

section
variable (cfg : Config) (r w : Regs) (i : Inputs)

theorem frameClear_sameStages : SameStages w (frameClear cfg w) := by constructor <;> rfl

theorem shiftWindow_sameStages : SameStages w (shiftWindow cfg r w) := by
  unfold shiftWindow; split <;> constructor <;> rfl

theorem countBit_sameStages : SameStages w (countBit cfg r w) := by
  unfold countBit; split <;> constructor <;> rfl

theorem turnaround_sameStages : SameStages w (turnaround r w) := by
  unfold turnaround; split <;> constructor <;> rfl

/-- The rules of the states leave the stages alone, state by state. -/
theorem stateRule_sameStages : SameStages w (stateRule cfg r i w) := by
  unfold stateRule
  cases r.proto with
  | idle => simp only [ruleIdle, ruleIdleSelected, ruleIdleTwoWire]; split_ifs <;> constructor <;> rfl
  | getHeader => simp only [ruleGetHeader]; split_ifs <;> constructor <;> rfl
  | readAddress => simp only [ruleReadAddress]; split_ifs <;> constructor <;> rfl
  | readValue => simp only [ruleReadValue]; split_ifs <;> constructor <;> rfl
  | busWrite => simp only [ruleBusWrite]; split_ifs <;> constructor <;> rfl
  | busRead => simp only [ruleBusRead]; split_ifs <;> constructor <;> rfl
  | waitByteBoundary => simp only [ruleWaitByteBoundary]; split_ifs <;> constructor <;> rfl
  | writeWrResponse => simp only [ruleWriteWrResponse]; split_ifs <;> constructor <;> rfl
  | writeResponse => simp only [ruleWriteResponse]; split_ifs <;> constructor <;> rfl
  | writeValue => simp only [ruleWriteValue]; split_ifs <;> constructor <;> rfl
  | endFrame => simp only [ruleEnd]; split_ifs <;> constructor <;> rfl

variable {cfg r i}

/-- R55, R57: without `rst` the stages are those of the synchronizer shift, in every state and through a frame reset. -/
theorem coreTick_sameStages (hrst : i.rst = false) : SameStages (recover cfg r i) (coreTick cfg r i) := by
  cases hf : frameReset cfg r with
  | true => rw [coreTick_release hrst hf]; exact frameClear_sameStages cfg _
  | false =>
    rw [coreTick_active hrst hf]
    exact (shiftWindow_sameStages cfg r _).trans <| (countBit_sameStages cfg r _).trans <|
      (turnaround_sameStages r _).trans <| stateRule_sameStages cfg r _ i

end

/-- Settles O10, from the stages of a tick without `rst` and those of the reset. -/
theorem synchronizersShiftEveryTick : Obligations.SynchronizersShiftEveryTick := by
  unfold Obligations.SynchronizersShiftEveryTick
  intro cfg r i
  refine ⟨fun hrst => ?shift, fun hrst => ?reset⟩
  case shift =>
    have h := coreTick_sameStages (cfg := cfg) (r := r) hrst
    exact ⟨h.clkS1, h.clkS2, h.dinS1, h.dinS2, h.clkPrev, fun hsel =>
      ⟨h.csnS1.trans (if_pos hsel), h.csnS2.trans (if_pos hsel)⟩⟩
  case reset =>
    rw [coreTick_rst hrst]
    exact ⟨rfl, rfl, rfl, rfl, rfl, fun hsel => ⟨if_pos hsel, if_pos hsel⟩⟩

/-- Settles O13: a level goes through two stages in two ticks, and the third tick compares it with the next one. -/
theorem capturedLevelSeenTwoTicksLater : Obligations.CapturedLevelSeenTwoTicksLater := by
  unfold Obligations.CapturedLevelSeenTwoTicksLater
  intro cfg r i j k hi hj hk
  have first := coreTick_sameStages (cfg := cfg) (r := r) hi
  have second := coreTick_sameStages (cfg := cfg) (r := coreTick cfg r i) hj
  have third := coreTick_sameStages (cfg := cfg) (r := coreTick cfg (coreTick cfg r i) j) hk
  have hclk : (coreTick cfg (coreTick cfg r i) j).clkS2 = i.rawClk := second.clkS2.trans first.clkS1
  have hnow : (coreTick cfg (coreTick cfg (coreTick cfg r i) j) k).clkS2 = j.rawClk := third.clkS2.trans second.clkS1
  have hbefore : (coreTick cfg (coreTick cfg (coreTick cfg r i) j) k).clkPrev = i.rawClk := third.clkPrev.trans hclk
  refine ⟨hclk, second.dinS2.trans first.dinS1, fun hsel => ?select, ?rise, ?fall⟩
  case select =>
    have hcsn : (recover cfg (coreTick cfg r i) j).csnS2 = (coreTick cfg r i).csnS1 := if_pos hsel
    exact second.csnS2.trans <| hcsn.trans <| first.csnS1.trans (if_pos hsel)
  case rise => simp only [rise, sclk, hnow, hbefore]
  case fall => simp only [fall, sclk, hnow, hbefore]

/-- `w` with other first synchronizer stages. -/
def setFirstStages (clk csn din : Bool) (w : Regs) : Regs := { w with clkS1 := clk, csnS1 := csn, dinS1 := din }

section
variable (cfg : Config) (r w : Regs) (i : Inputs) (clk csn din : Bool)

theorem frameClear_setFirstStages :
    frameClear cfg (setFirstStages clk csn din w) = setFirstStages clk csn din (frameClear cfg w) := rfl

theorem shiftWindow_setFirstStages :
    shiftWindow cfg r (setFirstStages clk csn din w) = setFirstStages clk csn din (shiftWindow cfg r w) := by
  unfold shiftWindow; split <;> rfl

theorem countBit_setFirstStages :
    countBit cfg r (setFirstStages clk csn din w) = setFirstStages clk csn din (countBit cfg r w) := by
  unfold countBit; split <;> rfl

theorem turnaround_setFirstStages :
    turnaround r (setFirstStages clk csn din w) = setFirstStages clk csn din (turnaround r w) := by
  unfold turnaround; split <;> rfl

/-- The rules of the states do not read the first stages, state by state. -/
theorem stateRule_setFirstStages :
    stateRule cfg r i (setFirstStages clk csn din w) = setFirstStages clk csn din (stateRule cfg r i w) := by
  unfold stateRule
  cases r.proto with
  | idle => simp only [ruleIdle, ruleIdleSelected, ruleIdleTwoWire]; split_ifs <;> rfl
  | getHeader => simp only [ruleGetHeader]; split_ifs <;> rfl
  | readAddress => simp only [ruleReadAddress]; split_ifs <;> rfl
  | readValue => simp only [ruleReadValue]; split_ifs <;> rfl
  | busWrite => simp only [ruleBusWrite]; split_ifs <;> rfl
  | busRead => simp only [ruleBusRead]; split_ifs <;> rfl
  | waitByteBoundary => simp only [ruleWaitByteBoundary]; split_ifs <;> rfl
  | writeWrResponse => simp only [ruleWriteWrResponse]; split_ifs <;> rfl
  | writeResponse => simp only [ruleWriteResponse]; split_ifs <;> rfl
  | writeValue => simp only [ruleWriteValue]; split_ifs <;> rfl
  | endFrame => simp only [ruleEnd]; split_ifs <;> rfl

/-- Other raw levels change the first stages of a tick only, or with `rst` nothing. -/
theorem coreTick_rawLevels : ∃ clk' csn' din',
    coreTick cfg r { i with rawClk := clk, rawCsn := csn, rawDin := din } =
      setFirstStages clk' csn' din' (coreTick cfg r i) := by
  rcases Bool.eq_false_or_eq_true i.rst with hrst | hrst
  · rw [coreTick_rst hrst, coreTick_rst (by exact hrst)]
    exact ⟨_, _, _, rfl⟩
  · have hcapture : recover cfg r { i with rawClk := clk, rawCsn := csn, rawDin := din } =
        setFirstStages clk (if cfg.hasFrameSelect then csn else r.csnS1) din (recover cfg r i) := rfl
    refine ⟨clk, if cfg.hasFrameSelect then csn else r.csnS1, din, ?_⟩
    cases hf : frameReset cfg r with
    | true => rw [coreTick_release hrst hf, coreTick_release (by exact hrst) hf, hcapture, frameClear_setFirstStages]
    | false =>
      rw [coreTick_active hrst hf, coreTick_active (by exact hrst) hf, hcapture, shiftWindow_setFirstStages,
        countBit_setFirstStages, turnaround_setFirstStages, stateRule_setFirstStages]
      exact congrArg _ (stateRule_eq_of_completion rfl rfl)

end

/-- Settles O12: the captured levels enter the first stages, which no rule reads. -/
theorem rawLevelsReachFirstStagesOnly : Obligations.RawLevelsReachFirstStagesOnly := by
  unfold Obligations.RawLevelsReachFirstStagesOnly
  intro cfg r i clk csn din
  obtain ⟨clk', csn', din', h⟩ := coreTick_rawLevels cfg r i clk csn din
  refine ⟨?_, rfl⟩
  rw [h]
  rfl

/-! The pins (41_wire_mode.md sections 1 and 4). -/

section
variable {cfg : Config} {r : Regs}

/-- R59: a driven shared line shows the core's level. -/
theorem dataInPin_driven (hshare : cfg.sharesDataLine = true) (hoe : oe r = true) (data : Option Bool) (level : Bool) :
    dataInPin cfg r data level = r.dout := by
  simp [dataInPin, hshare, dataOutPin, hoe, adapterPin_driven]

/-- R59: a line the core does not drive shows the host's level, or else the board's. -/
theorem dataInPin_undriven (h : cfg.sharesDataLine = false ∨ oe r = false) (data : Option Bool) (level : Bool) :
    dataInPin cfg r data level = data.getD level := by
  unfold dataInPin
  split
  case isTrue hshare =>
    have hoe : oe r = false := h.resolve_left (by simp [hshare])
    rw [dataOutPin, hoe, adapterPin_shared cfg hshare, Option.getD_none]
  case isFalse => rfl

end

/-- Settles O14: the pin from the adapter's table, the captured level from what the line shows. -/
theorem pinDriveByWireMode : Obligations.PinDriveByWireMode := by
  unfold Obligations.PinDriveByWireMode
  refine ⟨fun tri r => ?pin, fun s rst p => ⟨fun hrst => ?level, rfl⟩⟩
  case pin =>
    refine ⟨fun hoe => ?_, fun hoe => ?_, ?_, fun hoe => ?_, fun hoe => ?_, rfl⟩
    · rw [dataOutPin, hoe, adapterPin_driven]
    · rw [dataOutPin, hoe]; rfl
    · rfl
    · rw [dataOutPin, hoe, adapterPin_driven]
    · rw [dataOutPin, hoe, adapterPin_shared _ rfl]
  case level =>
    have hdin : (sysTick rst p s).core.dinS1 = dataInPin s.cfg s.core p.data s.board.level :=
      (coreTick_sameStages hrst).dinS1
    rw [hdin]
    refine ⟨fun b hb hun => ?_, fun hshare hoe => ?_, fun hnone hun => ?_⟩
    · rw [dataInPin_undriven hun, hb, Option.getD_some]
    · rw [dataInPin_driven hshare hoe]
    · rw [dataInPin_undriven hun, hnone, Option.getD_none]

end Sys2Proof.Machine

namespace Sys2Proof.Machine

/-! The recognition window (41_wire_mode.md R63) and the turnaround (45_response_encoder.md R103) of an active tick: two-wire
END clears them, and no other rule of a state writes them. -/

section
variable (cfg : Config) (r w : Regs) (i : Inputs)

theorem turnaround_window : (turnaround r w).window = w.window := by unfold turnaround; split <;> rfl

theorem countBit_window : (countBit cfg r w).window = w.window := by unfold countBit; split <;> rfl

theorem shiftWindow_window : (shiftWindow cfg r w).window =
    if cfg.hasFrameSelect = false ∧ r.proto = .idle ∧ rise r = true then shl1 r.window (din r) else w.window := by
  simp only [shiftWindow, Bool.and_eq_true, Bool.not_eq_true', beq_iff_eq, and_assoc]
  split <;> rfl

theorem countBit_turned : (countBit cfg r w).turned = w.turned := by unfold countBit; split <;> rfl

theorem shiftWindow_turned : (shiftWindow cfg r w).turned = w.turned := by unfold shiftWindow; split <;> rfl

theorem turnaround_turned : (turnaround r w).turned = (w.turned || (fall r && stalls r)) := by
  unfold turnaround stalls
  split
  case isTrue h => simp [h]
  case isFalse h => simp [h]

/-- R110: the rule of the state clears window and turnaround in two-wire END and leaves them elsewhere. -/
theorem stateRule_window_turned :
    (stateRule cfg r i w).window = (if r.proto = .endFrame ∧ cfg.hasFrameSelect = false then 0#8 else w.window) ∧
    (stateRule cfg r i w).turned = (if r.proto = .endFrame ∧ cfg.hasFrameSelect = false then false else w.turned) := by
  unfold stateRule
  cases h : r.proto with
  | idle => simp only [ruleIdle, ruleIdleSelected, ruleIdleTwoWire]; split_ifs <;> simp_all
  | getHeader => simp only [ruleGetHeader]; split_ifs <;> simp_all
  | readAddress => simp only [ruleReadAddress]; split_ifs <;> simp_all
  | readValue => simp only [ruleReadValue]; split_ifs <;> simp_all
  | busWrite => simp only [ruleBusWrite]; split_ifs <;> simp_all
  | busRead => simp only [ruleBusRead]; split_ifs <;> simp_all
  | waitByteBoundary => simp only [ruleWaitByteBoundary]; split_ifs <;> simp_all
  | writeWrResponse => simp only [ruleWriteWrResponse]; split_ifs <;> simp_all
  | writeResponse => simp only [ruleWriteResponse]; split_ifs <;> simp_all
  | writeValue => simp only [ruleWriteValue]; split_ifs <;> simp_all
  | endFrame => cases hsel : cfg.hasFrameSelect <;> simp [ruleEnd, hsel]

variable {cfg r i}

/-- R63: in an active tick the window is cleared in two-wire END, shifted at a rise of two-wire IDLE, and else kept. -/
theorem coreTick_window (hrst : i.rst = false) (hf : frameReset cfg r = false) : (coreTick cfg r i).window =
    if r.proto = .endFrame ∧ cfg.hasFrameSelect = false then 0#8
    else if cfg.hasFrameSelect = false ∧ r.proto = .idle ∧ rise r = true then shl1 r.window (din r) else r.window := by
  rw [coreTick_active hrst hf, (stateRule_window_turned cfg r _ i).1, turnaround_window, countBit_window,
    shiftWindow_window, recover_window]

/-- R103, R110: in an active tick the turnaround is cleared in two-wire END and set at a fall of a stalled state. -/
theorem coreTick_turned (hrst : i.rst = false) (hf : frameReset cfg r = false) : (coreTick cfg r i).turned =
    if r.proto = .endFrame ∧ cfg.hasFrameSelect = false then false else (r.turned || (fall r && stalls r)) := by
  rw [coreTick_active hrst hf, (stateRule_window_turned cfg r _ i).2, turnaround_turned, countBit_turned,
    shiftWindow_turned, recover_turned]

end

theorem stalls_iff (r : Regs) : stalls r = true ↔ r.proto = .busWrite ∨ r.proto = .busRead ∨ r.proto = .waitByteBoundary := by
  simp [stalls, or_assoc]

/-- Settles O15, from the window of an active tick. -/
theorem windowShiftsInTwoWireIdleOnly : Obligations.WindowShiftsInTwoWireIdleOnly := by
  unfold Obligations.WindowShiftsInTwoWireIdleOnly
  intro tri r i hrst
  have hsel : (Config.mk .two tri).hasFrameSelect = false := rfl
  simp only [coreTick_window hrst (frameReset_twoWire r hsel), hsel]
  refine ⟨fun hidle hrise => ?shifted, fun hidle hrise => ?quiet, fun hend => ?ended, fun hidle hend => ?kept⟩
  case shifted => simp [hidle, hrise]
  case quiet => simp [hidle, hrise]
  case ended => simp [hend]
  case kept => simp [hidle, hend]

/-- R70 for an active tick: it follows a row or keeps `state` and `is_write`. -/
theorem coreTick_followsTable {cfg : Config} {r : Regs} {i : Inputs} (hrst : i.rst = false)
    (hf : frameReset cfg r = false) : FollowsTable cfg r i (coreTick cfg r i) := by
  rw [coreTick_active hrst hf]
  exact stateRule_followsTable (by simp) (by simp)

/-- The table's only row into IDLE starts in END. -/
theorem end_of_tableRow_idle {cfg : Config} {r : Regs} {i : Inputs} {b : Bool} (hrow : TableRow cfg r i .idle b) :
    r.proto = .endFrame := by
  cases hrow with
  | rearm hend => exact hend

/-- Settles O27: the table's only row into IDLE is two-wire END's, and the window of an active tick is kept outside IDLE and
END. -/
theorem twoWireFrameEndsOnlyAtEnd : Obligations.TwoWireFrameEndsOnlyAtEnd := by
  unfold Obligations.TwoWireFrameEndsOnlyAtEnd
  intro tri r i hrst hidle
  have hsel : (Config.mk .two tri).hasFrameSelect = false := rfl
  have hf := frameReset_twoWire r hsel
  refine ⟨⟨fun ht => ?onlyEnd, fun hend => ?endRearms⟩, fun hend => ?window⟩
  case onlyEnd =>
    rcases coreTick_followsTable hrst hf with hrow | ⟨hkept, -⟩
    · exact end_of_tableRow_idle (ht ▸ hrow)
    · exact absurd (hkept.symm.trans ht) hidle
  case endRearms =>
    rw [coreTick_active hrst hf]
    exact (stateRule_of_tableRow (by simp) (.rearm hend hsel)).1
  case window => simp [coreTick_window hrst hf, hidle, hend]

/-- Settles O37, from the turnaround of an active tick. -/
theorem turnaroundAtFirstFall : Obligations.TurnaroundAtFirstFall := by
  unfold Obligations.TurnaroundAtFirstFall
  intro cfg r i hrst hf
  simp only [coreTick_turned hrst hf, ← stalls_iff]
  refine ⟨fun hfall hst => ?set, fun hnot hend => ?kept⟩
  case set =>
    have hne : r.proto ≠ .endFrame := fun h => by simp [stalls, h] at hst
    simp [hne, hfall, hst]
  case kept =>
    have hno : (fall r && stalls r) = false := by
      rw [← Bool.not_eq_true, Bool.and_eq_true]
      exact hnot
    rw [if_neg hend, hno, Bool.or_false]

/-! The request states (42_protocol_fsm.md R74 to R78). -/

section
variable {cfg : Config} {r : Regs} {i : Inputs}

/-- A rise in a request state is counted, and the rule of the state takes the bit. -/
theorem coreTick_request_rise (hrst : i.rst = false) (hf : frameReset cfg r = false) (hp : takesRequestBits r = true)
    (hrise : rise r = true) :
    coreTick cfg r i = stateRule cfg r i { recover cfg r i with cnt := r.cnt + 1#8 } := by
  have hidle : r.proto ≠ .idle := fun h => by simp [takesRequestBits, h] at hp
  rw [coreTick_active hrst hf, shiftWindow_of_ne_idle _ hidle, countBit_of_rise _ hrise (.inr hidle),
    turnaround_of_not_fall _ (fall_of_rise hrise)]

/-- IDLE with frame-select asserted counts a rise and starts the frame. -/
theorem coreTick_idle_selected (hsel : cfg.hasFrameSelect = true) (hrst : i.rst = false) (hf : frameReset cfg r = false)
    (h : r.proto = .idle) :
    coreTick cfg r i = ruleIdleSelected r (countBit cfg r (recover cfg r i)) := by
  rw [coreTick_active hrst hf, shiftWindow_of_frameSelect _ hsel,
    turnaround_of_proto _ (by simp [h]) (by simp [h]) (by simp [h])]
  simp [stateRule, h, ruleIdle, hsel]

end

/-- Settles O20, by the edge. -/
theorem idleStartsFrameWhenSelected : Obligations.IdleStartsFrameWhenSelected := by
  unfold Obligations.IdleStartsFrameWhenSelected
  intro cfg r i hsel hrst hcsn h
  have hf : frameReset cfg r = false := by simp [frameReset, csn, hcsn]
  refine ⟨?_, raisedEvents_idle hrst h⟩
  rw [coreTick_idle_selected hsel hrst hf h]
  cases hrise : rise r with
  | true => rw [countBit_of_rise _ hrise (.inl hsel)]; simp [ruleIdleSelected, hrise]
  | false => rw [countBit_of_not_rise _ hrise]; simp [ruleIdleSelected, hrise]

/-- Settles O22, by the edge, the count and the header that the bit completes. -/
theorem headerBitsAndDecision : Obligations.HeaderBitsAndDecision := by
  unfold Obligations.HeaderBitsAndDecision
  intro cfg r i hrst hf h
  have hp : takesRequestBits r = true := by simp [takesRequestBits, h]
  refine ⟨fun hrise => ⟨coreTick_request_noRise hrst hf hp hrise, raisedEvents_request_noRise hrst hf hp hrise⟩,
    fun hrise hcnt => ?more, fun hrise hcnt hc => ?write, fun hrise hcnt hc => ?read, fun hrise hcnt hc => ?abort⟩
  all_goals rw [coreTick_request_rise hrst hf hp hrise]
  case more => simp [stateRule, raisedEvents, hrst, hf, h, ruleGetHeader, hrise, hcnt]
  case write => simp [stateRule, raisedEvents, hrst, hf, h, ruleGetHeader, hrise, hcnt, hc]
  case read => simp [stateRule, raisedEvents, hrst, hf, h, ruleGetHeader, hrise, hcnt, hc]
  case abort =>
    obtain ⟨h0, h1⟩ := (two_le_toNat_iff _).mp hc
    simp [stateRule, raisedEvents, hrst, hf, h, ruleGetHeader, hrise, hcnt, h0, h1]

/-- Settles O23, by the edge and the count. -/
theorem addressBitsAndDirection : Obligations.AddressBitsAndDirection := by
  unfold Obligations.AddressBitsAndDirection
  intro cfg r i hrst hf h
  have hp : takesRequestBits r = true := by simp [takesRequestBits, h]
  refine ⟨?_, by simp [raisedEvents, hrst, hf, h]⟩
  cases hrise : rise r with
  | false => exact coreTick_request_noRise hrst hf hp hrise
  | true =>
    rw [coreTick_request_rise hrst hf hp hrise]
    simp only [stateRule, h, ruleReadAddress, hrise, if_true]
    split_ifs <;> simp [h]

/-- Settles O24, by the edge and the count. -/
theorem valueBitsThenBusWrite : Obligations.ValueBitsThenBusWrite := by
  unfold Obligations.ValueBitsThenBusWrite
  intro cfg r i hrst hf h
  have hp : takesRequestBits r = true := by simp [takesRequestBits, h]
  refine ⟨?_, by simp [raisedEvents, hrst, hf, h]⟩
  cases hrise : rise r with
  | false => exact coreTick_request_noRise hrst hf hp hrise
  | true =>
    rw [coreTick_request_rise hrst hf hp hrise]
    simp only [stateRule, h, ruleReadValue, hrise, if_true]
    split_ifs <;> simp [h]

/-- The states in which a rule reads the data-in level: IDLE and the request states. -/
theorem stateRule_ignores_din {cfg : Config} {r w : Regs} {i : Inputs} (b : Bool) (hidle : r.proto ≠ .idle)
    (hp : takesRequestBits r = false) : stateRule cfg { r with dinS2 := b } i w = stateRule cfg r i w := by
  unfold stateRule
  cases h : r.proto with
  | idle => exact absurd h hidle
  | getHeader => simp [takesRequestBits, h] at hp
  | readAddress => simp [takesRequestBits, h] at hp
  | readValue => simp [takesRequestBits, h] at hp
  | _ => rfl

/-- Settles O26: the synchronizer shift drops the old level, and after the request no rule reads it. -/
theorem dataInIgnoredAfterRequest : Obligations.DataInIgnoredAfterRequest := by
  unfold Obligations.DataInIgnoredAfterRequest
  intro cfg r i b hidle hheader haddress hvalue
  have hp : takesRequestBits r = false := by simp [takesRequestBits, hheader, haddress, hvalue]
  have hcapture : recover cfg { r with dinS2 := b } i = recover cfg r i := rfl
  rcases Bool.eq_false_or_eq_true i.rst with hrst | hrst
  · rw [coreTick_rst hrst, coreTick_rst hrst]; rfl
  · cases hf : frameReset cfg r with
    | true => rw [coreTick_release hrst hf, coreTick_release hrst (by exact hf), hcapture]
    | false =>
      rw [coreTick_active hrst hf, coreTick_active hrst (by exact hf), hcapture, shiftWindow_of_ne_idle _ hidle,
        shiftWindow_of_ne_idle _ (by exact hidle)]
      exact stateRule_ignores_din b hidle hp

/-! The bus outputs and the answer's lines (44_bus_adapter.md R88). -/

/-- Settles O28: each output is a field or the bus state, and the word address drops two bits. -/
theorem busOutputsFromRegisters : Obligations.BusOutputsFromRegisters := by
  unfold Obligations.BusOutputsFromRegisters
  intro r
  refine ⟨?cyc, rfl, ?we, rfl, rfl, toNat_wordAddress r.address⟩
  case cyc => simp [busOut, busCyc, Bool.beq_eq_decide_eq]
  case we => simp [busOut, busWe, Bool.beq_eq_decide_eq]

/-- Outside the bus states no rule reads the inputs. -/
theorem stateRule_ignores_answer {cfg : Config} {r w : Regs} {i j : Inputs} (hw : r.proto ≠ .busWrite)
    (hr : r.proto ≠ .busRead) : stateRule cfg r i w = stateRule cfg r j w := by
  unfold stateRule
  cases h : r.proto with
  | busWrite => exact absurd h hw
  | busRead => exact absurd h hr
  | _ => rfl

/-- Settles O32: outside the bus states neither the rule nor the events read the lines. -/
theorem answersIgnoredOutsideBusStates : Obligations.AnswersIgnoredOutsideBusStates := by
  unfold Obligations.AnswersIgnoredOutsideBusStates
  intro cfg r i a e d hw hr
  have hcapture : recover cfg r { i with busAck := a, busErr := e, busDatR := d } = recover cfg r i := rfl
  refine ⟨?registers, ?events⟩
  case registers =>
    rcases Bool.eq_false_or_eq_true i.rst with hrst | hrst
    · rw [coreTick_rst hrst, coreTick_rst (by exact hrst)]
    · cases hf : frameReset cfg r with
      | true => rw [coreTick_release hrst hf, coreTick_release (by exact hrst) hf, hcapture]
      | false =>
        rw [coreTick_active hrst hf, coreTick_active (by exact hrst) hf, hcapture]
        exact stateRule_ignores_answer hw hr
  case events =>
    unfold raisedEvents
    cases h : r.proto with
    | busWrite => exact absurd h hw
    | busRead => exact absurd h hr
    | _ => rfl

/-! WRITE_VALUE and END (45_response_encoder.md R108 to R110). -/

/-- R108 at a fall: the next lower bit, and END after bit 0. -/
theorem ruleWriteValue_of_fall {r : Regs} (w : Regs) (hfall : fall r = true) : ruleWriteValue r w =
    if r.woff = 0#5 then { w with dout := false, proto := .endFrame }
    else { w with dout := r.value.getLsbD (r.woff.toNat - 1), woff := r.woff - 1#5 } := by
  simp only [ruleWriteValue, hfall, if_true]

/-- Settles O41, by the edge: every fall drives the next bit, or ends the value. -/
theorem valueBitsInFallingOrder : Obligations.ValueBitsInFallingOrder := by
  unfold Obligations.ValueBitsInFallingOrder
  intro cfg r i hrst hf h
  have hr : responds cfg r = true := by simp [responds, h]
  refine ⟨?_, raisedEvents_response hrst hf hr⟩
  rw [coreTick_response_edge hrst hf hr]
  refine ite_congr rfl (fun hfall => ?_) (fun _ => rfl)
  have hkept : turnaround r (recover cfg r i) = recover cfg r i :=
    turnaround_of_proto _ (by simp [h]) (by simp [h]) (by simp [h])
  simp only [stateRule, h, hkept, ruleWriteValue_of_fall _ hfall]

section
variable {cfg : Config} {r : Regs} {i : Inputs}

/-- R109: with a frame-select line END only counts. -/
theorem coreTick_end_held (hsel : cfg.hasFrameSelect = true) (hrst : i.rst = false) (hf : frameReset cfg r = false)
    (h : r.proto = .endFrame) :
    coreTick cfg r i = { recover cfg r i with cnt := if rise r then r.cnt + 1#8 else r.cnt } := by
  have hr : responds cfg r = true := by simp [responds, h, hsel]
  rw [coreTick_response_edge hrst hf hr]
  cases hfall : fall r with
  | false => rfl
  | true =>
    rw [turnaround_of_proto _ (by simp [h]) (by simp [h]) (by simp [h])]
    simp [stateRule, h, ruleEnd, hsel, rise_of_fall hfall, recover]

/-- FrameClear does not read the counter. -/
theorem frameClear_countBit (w : Regs) : frameClear cfg (countBit cfg r w) = frameClear cfg w := by
  unfold countBit; split <;> rfl

/-- R110: two-wire END is FrameClear over the moved synchronizers. -/
theorem coreTick_end_twoWire (hsel : cfg.hasFrameSelect = false) (hrst : i.rst = false) (h : r.proto = .endFrame) :
    coreTick cfg r i = frameClear cfg (recover cfg r i) := by
  rw [coreTick_active hrst (frameReset_twoWire r hsel), shiftWindow_of_ne_idle _ (by simp [h]),
    turnaround_of_proto _ (by simp [h]) (by simp [h]) (by simp [h])]
  simp only [stateRule, h, ruleEnd, hsel, Bool.false_eq_true, if_false]
  exact frameClear_countBit _

theorem raisedEvents_end (hrst : i.rst = false) (h : r.proto = .endFrame) : raisedEvents cfg r i = [] := by
  simp [raisedEvents, hrst, h]

theorem oe_end (h : r.proto = .endFrame) : oe r = false := by simp [oe, h]

end

/-- Settles O42, by the wire mode. -/
theorem endHeldOrRearmed : Obligations.EndHeldOrRearmed := by
  unfold Obligations.EndHeldOrRearmed
  intro cfg r i hrst hf h
  refine ⟨fun hsel => coreTick_end_held hsel hrst hf h, fun hsel => ?_, oe_end h, raisedEvents_end hrst h⟩
  rw [coreTick_end_twoWire hsel hrst h]
  simp [frameClear, hsel]

end Sys2Proof.Machine

namespace Sys2Proof.Machine

/-! The frame invariant, state by state: what `frameInv` says of the registers, and that a tick keeps it (42_protocol_fsm.md
R77 to R83, 45_response_encoder.md R99 to R108). -/

section
variable {r : Regs}

theorem frameInv_idle (h : r.proto = .idle) : frameInv r = true ↔
    r.command = 0#8 ∧ r.address = 0#32 ∧ r.value = 0#32 ∧ r.isWrite = false ∧ r.cnt = 0#8 ∧ r.woff = 0#5 ∧
      r.turned = false ∧ r.dout = true := by
  simp [frameInv, h, and_assoc]

theorem frameInv_getHeader (h : r.proto = .getHeader) : frameInv r = true ↔
    r.cnt.toNat < 8 ∧ r.command.toNat < 2 ^ r.cnt.toNat ∧ r.address = 0#32 ∧ r.value = 0#32 ∧ r.isWrite = false ∧
      r.woff = 0#5 ∧ r.turned = false ∧ r.dout = true := by
  simp [frameInv, h, and_assoc]

theorem frameInv_readAddress (h : r.proto = .readAddress) : frameInv r = true ↔
    8 ≤ r.cnt.toNat ∧ r.cnt.toNat < 40 ∧ r.command = headerOf r.isWrite ∧ r.address.toNat < 2 ^ (r.cnt.toNat - 8) ∧
      r.value = 0#32 ∧ r.woff = 0#5 ∧ r.turned = false ∧ r.dout = true := by
  simp [frameInv, h, and_assoc]

theorem frameInv_readValue (h : r.proto = .readValue) : frameInv r = true ↔
    40 ≤ r.cnt.toNat ∧ r.cnt.toNat < 72 ∧ r.isWrite = true ∧ r.command = 0#8 ∧
      r.value.toNat < 2 ^ (r.cnt.toNat - 40) ∧ r.woff = 0#5 ∧ r.turned = false ∧ r.dout = true := by
  simp [frameInv, h, and_assoc]

theorem frameInv_busWrite (h : r.proto = .busWrite) : frameInv r = true ↔
    r.isWrite = true ∧ r.command = 0#8 ∧ r.woff = 0#5 ∧ r.dout = true := by
  simp [frameInv, h, and_assoc]

theorem frameInv_busRead (h : r.proto = .busRead) : frameInv r = true ↔
    r.isWrite = false ∧ r.command = 1#8 ∧ r.value = 0#32 ∧ r.woff = 0#5 ∧ r.dout = true := by
  simp [frameInv, h, and_assoc]

theorem frameInv_waitByteBoundary (h : r.proto = .waitByteBoundary) : frameInv r = true ↔
    r.command = headerOf r.isWrite ∧ r.woff = 0#5 ∧ r.dout = true := by
  simp [frameInv, h, and_assoc]

theorem frameInv_writeWrResponse (h : r.proto = .writeWrResponse) : frameInv r = true ↔
    r.isWrite = true ∧ r.command = 0#8 ∧ r.woff = 0#5 ∧ r.turned = true ∧ r.dout = false := by
  simp [frameInv, h, and_assoc]

theorem frameInv_writeResponse (h : r.proto = .writeResponse) : frameInv r = true ↔
    r.isWrite = false ∧ r.command = 1#8 ∧ r.woff = 0#5 ∧ r.turned = true := by
  simp [frameInv, h, and_assoc]

theorem frameInv_writeValue (h : r.proto = .writeValue) : frameInv r = true ↔
    r.isWrite = false ∧ r.command = 1#8 ∧ r.turned = true ∧ r.dout = r.value.getLsbD r.woff.toNat := by
  simp [frameInv, h, and_assoc]

/-- END keeps either an aborted header, undriven, or the registers of an answered frame. -/
theorem frameInv_endFrame (h : r.proto = .endFrame) : frameInv r = true ↔
    r.woff = 0#5 ∧
      ((r.turned = false ∧ r.dout = true ∧ 2 ≤ r.command.toNat ∧ r.address = 0#32 ∧ r.value = 0#32 ∧ r.isWrite = false) ∨
        (r.turned = true ∧ r.dout = false ∧ r.command = headerOf r.isWrite)) := by
  simp [frameInv, h, and_assoc]

end

/-- A shift of a field that fits `k` bits fits `k + 1`. -/
theorem toNat_shl1_lt {n k : Nat} {x : BitVec n} (b : Bool) (h : x.toNat < 2 ^ k) : (shl1 x b).toNat < 2 ^ (k + 1) := by
  have hb : b.toNat ≤ 1 := b.toNat_le
  calc (shl1 x b).toNat ≤ 2 * x.toNat + b.toNat := by rw [toNat_shl1]; exact Nat.mod_le _ _
    _ < 2 ^ (k + 1) := by rw [Nat.pow_succ]; omega

/-- The count of a rise, read as a number. -/
theorem toNat_add_one_of_lt {c : BitVec 8} {k : Nat} (h : c.toNat < k) (hk : k ≤ 255) : (c + 1#8).toNat = c.toNat + 1 := by
  bv_omega

theorem frameInv_coreReset (cfg : Config) (r : Regs) : frameInv (coreReset cfg r) = true := rfl

theorem frameInv_frameClear (cfg : Config) (w : Regs) : frameInv (frameClear cfg w) = true := rfl

section
variable {cfg : Config} {r : Regs} {i : Inputs} (hrst : i.rst = false) (hf : frameReset cfg r = false)
  (hinv : frameInv r = true)
include hrst hf hinv

/-- IDLE: the frame starts with at most one bit taken, or the window moves, or the sync byte starts the frame. -/
theorem coreTick_keeps_idle (h : r.proto = .idle) : frameInv (coreTick cfg r i) = true := by
  obtain ⟨hcmd, haddr, hval, hwr, hcnt, hwoff, hturned, hdout⟩ := (frameInv_idle h).mp hinv
  cases hsel : cfg.hasFrameSelect with
  | true =>
    have hcsn : r.csnS2 = false := by simpa [frameReset, csn, hsel] using hf
    rw [(idleStartsFrameWhenSelected cfg r i hsel hrst hcsn h).1, frameInv_getHeader rfl]
    cases hrise : rise r with
    | true =>
      refine ⟨by simp [hcnt], ?_, haddr, hval, hwr, hwoff, hturned, hdout⟩
      have hbit : (shl1 r.command (din r)).toNat < 2 ^ (0 + 1) := toNat_shl1_lt _ (by simp [hcmd])
      simpa [hcnt] using hbit
    | false => exact ⟨by simp [hcnt], by simp [hcmd, hcnt], haddr, hval, hwr, hwoff, hturned, hdout⟩
  | false =>
    rw [coreTick_idle_twoWire hsel hrst h]
    have hshift : frameInv (shiftWindow cfg r (recover cfg r i)) = true := by
      unfold shiftWindow; split <;> exact hinv
    unfold ruleIdleTwoWire
    split
    case isTrue =>
      have hidle : (shiftWindow cfg r (recover cfg r i)).proto = .idle := by simp [h]
      obtain ⟨-, haddr', hval', hwr', -, hwoff', hturned', hdout'⟩ := (frameInv_idle hidle).mp hshift
      exact (frameInv_getHeader rfl).mpr ⟨by simp, by simp, haddr', hval', hwr', hwoff', hturned', hdout'⟩
    case isFalse => exact hshift

/-- GET_HEADER: one more header bit, or the eighth, by the header it completes. -/
theorem coreTick_keeps_getHeader (h : r.proto = .getHeader) : frameInv (coreTick cfg r i) = true := by
  obtain ⟨hcnt, hcmd, haddr, hval, hwr, hwoff, hturned, hdout⟩ := (frameInv_getHeader h).mp hinv
  obtain ⟨hquiet, hmore, hwrite, hread, habort⟩ := headerBitsAndDecision cfg r i hrst hf h
  cases hrise : rise r with
  | false => rw [(hquiet hrise).1]; exact hinv
  | true =>
    by_cases hlast : r.cnt + 1#8 = 8#8
    · by_cases h0 : shl1 r.command (din r) = 0x00#8
      · rw [(hwrite hrise hlast h0).1, frameInv_readAddress rfl]
        exact ⟨by simp, by simp, h0, by simp [haddr], hval, hwoff, hturned, hdout⟩
      · by_cases h1 : shl1 r.command (din r) = 0x01#8
        · rw [(hread hrise hlast h1).1, frameInv_readAddress rfl]
          exact ⟨by simp, by simp, h1, by simp [haddr], hval, hwoff, hturned, hdout⟩
        · have h2 := (two_le_toNat_iff _).mpr ⟨h0, h1⟩
          rw [(habort hrise hlast h2).1, frameInv_endFrame rfl]
          exact ⟨hwoff, .inl ⟨hturned, hdout, h2, haddr, hval, hwr⟩⟩
    · have hnext : (r.cnt + 1#8).toNat = r.cnt.toNat + 1 := toNat_add_one_of_lt hcnt (by decide)
      have hlt : r.cnt.toNat + 1 < 8 := by
        have : (r.cnt + 1#8).toNat ≠ 8 := fun e => hlast (BitVec.eq_of_toNat_eq e)
        omega
      rw [(hmore hrise hlast).1, frameInv_getHeader (by exact h)]
      exact ⟨by simpa only [hnext] using hlt, by simpa only [hnext] using toNat_shl1_lt _ hcmd, haddr, hval, hwr, hwoff,
        hturned, hdout⟩

/-- READ_ADDRESS: one more address bit, or the last, by the direction. -/
theorem coreTick_keeps_readAddress (h : r.proto = .readAddress) : frameInv (coreTick cfg r i) = true := by
  obtain ⟨hlow, hcnt, hcmd, haddr, hval, hwoff, hturned, hdout⟩ := (frameInv_readAddress h).mp hinv
  rw [(addressBitsAndDirection cfg r i hrst hf h).1]
  split
  case isFalse => exact hinv
  case isTrue =>
    split_ifs with hlast hdir
    · have hheader : r.command = 0#8 := by rw [hcmd, hdir]; rfl
      rw [hlast, frameInv_readValue rfl]
      exact ⟨by simp, by simp, hdir, hheader, by simp [hval], hwoff, hturned, hdout⟩
    · rw [Bool.not_eq_true] at hdir
      have hheader : r.command = 1#8 := by rw [hcmd, hdir]; rfl
      rw [frameInv_busRead rfl]
      exact ⟨hdir, hheader, hval, hwoff, hdout⟩
    · have hnext : (r.cnt + 1#8).toNat = r.cnt.toNat + 1 := toNat_add_one_of_lt hcnt (by decide)
      have hlt : r.cnt.toNat + 1 < 40 := by
        have : (r.cnt + 1#8).toNat ≠ 40 := fun e => hlast (BitVec.eq_of_toNat_eq e)
        omega
      have hbits : (shl1 r.address (din r)).toNat < 2 ^ (r.cnt.toNat + 1 - 8) := by
        rw [Nat.succ_sub hlow]; exact toNat_shl1_lt _ haddr
      rw [frameInv_readAddress rfl]
      exact ⟨by simp only [hnext]; omega, by simpa only [hnext] using hlt, hcmd, by simpa only [hnext] using hbits, hval,
        hwoff, hturned, hdout⟩

/-- READ_VALUE: one more value bit, or the last. -/
theorem coreTick_keeps_readValue (h : r.proto = .readValue) : frameInv (coreTick cfg r i) = true := by
  obtain ⟨hlow, hcnt, hwr, hcmd, hval, hwoff, hturned, hdout⟩ := (frameInv_readValue h).mp hinv
  rw [(valueBitsThenBusWrite cfg r i hrst hf h).1]
  split
  case isFalse => exact hinv
  case isTrue =>
    split_ifs with hlast
    · exact (frameInv_busWrite rfl).mpr ⟨hwr, hcmd, hwoff, hdout⟩
    · have hnext : (r.cnt + 1#8).toNat = r.cnt.toNat + 1 := toNat_add_one_of_lt hcnt (by decide)
      have hlt : r.cnt.toNat + 1 < 72 := by
        have : (r.cnt + 1#8).toNat ≠ 72 := fun e => hlast (BitVec.eq_of_toNat_eq e)
        omega
      have hbits : (shl1 r.value (din r)).toNat < 2 ^ (r.cnt.toNat + 1 - 40) := by
        rw [Nat.succ_sub hlow]; exact toNat_shl1_lt _ hval
      rw [frameInv_readValue rfl]
      exact ⟨by simp only [hnext]; omega, by simpa only [hnext] using hlt, hwr, hcmd, by simpa only [hnext] using hbits,
        hwoff, hturned, hdout⟩

/-- BUS_WRITE: the request stands or has been answered. -/
theorem coreTick_keeps_busWrite (h : r.proto = .busWrite) : frameInv (coreTick cfg r i) = true := by
  obtain ⟨hwr, hcmd, hwoff, hdout⟩ := (frameInv_busWrite h).mp hinv
  have hheader : r.command = headerOf r.isWrite := by rw [hwr, hcmd]; rfl
  rw [(busWriteWaitsForAnswer cfg r i hrst hf h).1]
  cases i.busAck || i.busErr with
  | true => exact (frameInv_waitByteBoundary rfl).mpr ⟨hheader, hwoff, hdout⟩
  | false => exact (frameInv_busWrite rfl).mpr ⟨hwr, hcmd, hwoff, hdout⟩

/-- BUS_READ: as BUS_WRITE, the value still clear while the request stands. -/
theorem coreTick_keeps_busRead (h : r.proto = .busRead) : frameInv (coreTick cfg r i) = true := by
  obtain ⟨hwr, hcmd, hval, hwoff, hdout⟩ := (frameInv_busRead h).mp hinv
  have hheader : r.command = headerOf r.isWrite := by rw [hwr, hcmd]; rfl
  rw [(busReadLatchesData cfg r i hrst hf h).1]
  cases i.busAck || i.busErr with
  | true => exact (frameInv_waitByteBoundary rfl).mpr ⟨hheader, hwoff, hdout⟩
  | false => exact (frameInv_busRead rfl).mpr ⟨hwr, hcmd, hval, hwoff, hdout⟩

/-- WAIT_BYTE_BOUNDARY: the response starts with a zero after the turnaround, in the frame's direction. -/
theorem coreTick_keeps_waitByteBoundary (h : r.proto = .waitByteBoundary) : frameInv (coreTick cfg r i) = true := by
  obtain ⟨hcmd, hwoff, hdout⟩ := (frameInv_waitByteBoundary h).mp hinv
  rw [(responseStartsOnByteBoundary cfg r i hrst hf h).1]
  split
  case isFalse => exact (frameInv_waitByteBoundary (by exact h)).mpr ⟨hcmd, hwoff, hdout⟩
  case isTrue =>
    split
    case isFalse => exact (frameInv_waitByteBoundary (by exact h)).mpr ⟨hcmd, hwoff, hdout⟩
    case isTrue =>
      cases hwr : r.isWrite with
      | true => exact (frameInv_writeWrResponse rfl).mpr ⟨hwr, by simpa [hwr, headerOf] using hcmd, hwoff, rfl, rfl⟩
      | false => exact (frameInv_writeResponse rfl).mpr ⟨hwr, by simpa [hwr, headerOf] using hcmd, hwoff, rfl⟩

/-- WRITE_WR_RESPONSE: zeros, then END with the write's header. -/
theorem coreTick_keeps_writeWrResponse (h : r.proto = .writeWrResponse) : frameInv (coreTick cfg r i) = true := by
  obtain ⟨hwr, hcmd, hwoff, hturned, hdout⟩ := (frameInv_writeWrResponse h).mp hinv
  have hheader : r.command = headerOf r.isWrite := by rw [hwr, hcmd]; rfl
  rw [(writeAcknowledgementIsZeros cfg r i hrst hf h).1]
  split
  case isFalse => exact (frameInv_writeWrResponse (by exact h)).mpr ⟨hwr, hcmd, hwoff, hturned, hdout⟩
  case isTrue =>
    by_cases hbyte : r.cnt.toNat % 8 = 0
    · rw [if_pos hbyte]
      exact (frameInv_endFrame rfl).mpr ⟨hwoff, .inr ⟨hturned, rfl, hheader⟩⟩
    · rw [if_neg hbyte]
      exact (frameInv_writeWrResponse rfl).mpr ⟨hwr, hcmd, hwoff, hturned, rfl⟩

/-- WRITE_RESPONSE: header bits, then the value's first bit. -/
theorem coreTick_keeps_writeResponse (h : r.proto = .writeResponse) : frameInv (coreTick cfg r i) = true := by
  obtain ⟨hwr, hcmd, hwoff, hturned⟩ := (frameInv_writeResponse h).mp hinv
  rw [(readHeaderThenFirstValueBit cfg r i hrst hf h).1]
  split_ifs
  · exact (frameInv_writeValue rfl).mpr ⟨hwr, hcmd, hturned, rfl⟩
  all_goals exact (frameInv_writeResponse (by exact h)).mpr ⟨hwr, hcmd, hwoff, hturned⟩

/-- WRITE_VALUE: `dout` follows the bit that `woff` names, and END comes after bit 0. -/
theorem coreTick_keeps_writeValue (h : r.proto = .writeValue) : frameInv (coreTick cfg r i) = true := by
  obtain ⟨hwr, hcmd, hturned, hdout⟩ := (frameInv_writeValue h).mp hinv
  have hheader : r.command = headerOf r.isWrite := by rw [hwr, hcmd]; rfl
  rw [(valueBitsInFallingOrder cfg r i hrst hf h).1]
  split
  case isFalse => exact (frameInv_writeValue (by exact h)).mpr ⟨hwr, hcmd, hturned, hdout⟩
  case isTrue =>
    split
    case isTrue hlast => exact (frameInv_endFrame rfl).mpr ⟨hlast, .inr ⟨hturned, rfl, hheader⟩⟩
    case isFalse hmore =>
      have hindex : (r.woff - 1#5).toNat = r.woff.toNat - 1 := by bv_omega
      exact (frameInv_writeValue (by exact h)).mpr ⟨hwr, hcmd, hturned, by simp only [hindex]; rfl⟩

/-- END: held but for the counter, or cleared. -/
theorem coreTick_keeps_endFrame (h : r.proto = .endFrame) : frameInv (coreTick cfg r i) = true := by
  cases hsel : cfg.hasFrameSelect with
  | true => rw [coreTick_end_held hsel hrst hf h, frameInv_endFrame (by exact h)]; exact (frameInv_endFrame h).mp hinv
  | false => rw [coreTick_end_twoWire hsel hrst h]; exact frameInv_frameClear cfg _

omit hrst hf in
/-- Every tick of the core keeps the frame invariant. -/
theorem coreTick_keeps_frameInv : frameInv (coreTick cfg r i) = true := by
  rcases Bool.eq_false_or_eq_true i.rst with hrst | hrst
  · rw [coreTick_rst hrst]; exact frameInv_coreReset cfg r
  · cases hf : frameReset cfg r with
    | true => rw [coreTick_release hrst hf]; exact frameInv_frameClear cfg _
    | false =>
      cases h : r.proto with
      | idle => exact coreTick_keeps_idle hrst hf hinv h
      | getHeader => exact coreTick_keeps_getHeader hrst hf hinv h
      | readAddress => exact coreTick_keeps_readAddress hrst hf hinv h
      | readValue => exact coreTick_keeps_readValue hrst hf hinv h
      | busWrite => exact coreTick_keeps_busWrite hrst hf hinv h
      | busRead => exact coreTick_keeps_busRead hrst hf hinv h
      | waitByteBoundary => exact coreTick_keeps_waitByteBoundary hrst hf hinv h
      | writeWrResponse => exact coreTick_keeps_writeWrResponse hrst hf hinv h
      | writeResponse => exact coreTick_keeps_writeResponse hrst hf hinv h
      | writeValue => exact coreTick_keeps_writeValue hrst hf hinv h
      | endFrame => exact coreTick_keeps_endFrame hrst hf hinv h

end

/-! The other parts of the model's invariant. -/

theorem absentAtReset_frameSelect {cfg : Config} (hsel : cfg.hasFrameSelect = true) (r : Regs) :
    absentAtReset cfg r = true ↔ r.window = 0#8 := by simp [absentAtReset, hsel]

theorem absentAtReset_twoWire {cfg : Config} (hsel : cfg.hasFrameSelect = false) (r : Regs) :
    absentAtReset cfg r = true ↔ r.csnS1 = true ∧ r.csnS2 = true := by simp [absentAtReset, hsel]

/-- With a frame-select line no tick writes the window. -/
theorem coreTick_window_frameSelect {cfg : Config} (hsel : cfg.hasFrameSelect = true) (r : Regs) (i : Inputs) :
    (coreTick cfg r i).window = r.window := by
  rcases Bool.eq_false_or_eq_true i.rst with hrst | hrst
  · rw [coreTick_rst hrst, coreReset_window, if_pos hsel]
  · cases hf : frameReset cfg r with
    | true => rw [coreTick_release hrst hf, frameClear_window, if_pos hsel, recover_window]
    | false => simp [coreTick_window hrst hf, hsel]

/-- In two-wire mode no tick writes the frame-select stages. -/
theorem coreTick_csn_twoWire {cfg : Config} (hsel : cfg.hasFrameSelect = false) (r : Regs) (i : Inputs) :
    (coreTick cfg r i).csnS1 = r.csnS1 ∧ (coreTick cfg r i).csnS2 = r.csnS2 := by
  rcases Bool.eq_false_or_eq_true i.rst with hrst | hrst
  · rw [coreTick_rst hrst]; simp [hsel]
  · have h := coreTick_sameStages (cfg := cfg) (r := r) hrst
    rw [h.csnS1, h.csnS2]; simp [hsel]

theorem coreTick_keeps_absentAtReset {cfg : Config} {r : Regs} (i : Inputs) (h : absentAtReset cfg r = true) :
    absentAtReset cfg (coreTick cfg r i) = true := by
  cases hsel : cfg.hasFrameSelect with
  | true =>
    rw [absentAtReset_frameSelect hsel, coreTick_window_frameSelect hsel]
    exact (absentAtReset_frameSelect hsel r).mp h
  | false =>
    rw [absentAtReset_twoWire hsel, (coreTick_csn_twoWire hsel r i).1, (coreTick_csn_twoWire hsel r i).2]
    exact (absentAtReset_twoWire hsel r).mp h

/-- The four things a tick does to the target: nothing but forget an age, retire the request, or let it grow older. -/
theorem target_tick_cases (t : Target) (r : Regs) (cut : Bool) (draw : Nat) :
    (t.tick r cut draw = { t with waited := 0 }) ∨ (∃ performed, t.tick r cut draw = t.retire r performed) ∨
    (busCyc r = true ∧ cut = false ∧ t.answers r = false ∧ t.tick r cut draw = { t with waited := t.waited + 1 }) := by
  cases hb : busCyc r with
  | false => exact .inl (target_tick_idle cut hb)
  | true =>
    cases cut with
    | true => exact .inr (.inl ⟨_, target_tick_cut hb⟩)
    | false =>
      cases ha : t.answers r with
      | true => exact .inr (.inl ⟨_, target_tick_answer hb ha⟩)
      | false => exact .inr (.inr ⟨rfl, rfl, rfl, target_tick_wait hb ha⟩)

theorem wf_retire {t : Target} (r : Regs) (performed : Bool) (hw : Memory.wf t.mem = true) :
    Memory.wf (t.retire r performed).mem = true := by
  rw [retire_mem]
  split
  · exact wf_writeWord _ _ hw
  · exact hw

/-- A request that is neither cut short nor answered stands at the next tick too. -/
theorem busCyc_sysTick_waiting {s : State} {rst : Bool} (p : Pins) (hb : busCyc s.core = true)
    (hcut : cutsShort rst s = false) (ha : s.target.answers s.core = false) : busCyc (sysTick rst p s).core = true := by
  obtain ⟨hrst, hf⟩ : rst = false ∧ frameReset s.cfg s.core = false := by simpa [cutsShort] using hcut
  subst hrst
  have hnone : ((inputsOf false p s).busAck || (inputsOf false p s).busErr) = false :=
    (target_completes s.target s.core).trans ha
  rw [sysTick_core, coreTick_bus rfl hf hb, hnone]
  exact hb

/-- The model's invariant by its parts. -/
theorem State.inv_iff (s : State) : s.inv = true ↔
    frameInv s.core = true ∧ absentAtReset s.cfg s.core = true ∧ Memory.wf s.target.mem = true ∧
      (busCyc s.core = true ∨ s.target.waited = 0) := by
  simp [State.inv, and_assoc]

/-- Every tick of the system keeps the invariant. -/
theorem sysTick_keeps_inv (rst : Bool) (p : Pins) (s : State) (h : s.inv = true) : (sysTick rst p s).inv = true := by
  obtain ⟨hframe, habsent, hmem, -⟩ := s.inv_iff.mp h
  rw [State.inv_iff]
  refine ⟨coreTick_keeps_frameInv hframe, coreTick_keeps_absentAtReset _ habsent, ?memory, ?age⟩
  case memory =>
    rw [sysTick_target]
    rcases target_tick_cases s.target s.core (cutsShort rst s) s.draws with ht | ⟨performed, ht⟩ | ⟨-, -, -, ht⟩
    · rw [ht]; exact hmem
    · rw [ht]; exact wf_retire s.core performed hmem
    · rw [ht]; exact hmem
  case age =>
    rcases target_tick_cases s.target s.core (cutsShort rst s) s.draws with ht | ⟨performed, ht⟩ | ⟨hb, hcut, ha, -⟩
    · exact .inr (by rw [sysTick_target, ht])
    · exact .inr (by rw [sysTick_target, ht, retire_waited])
    · exact .inl (busCyc_sysTick_waiting p hb hcut ha)

/-- Settles O57: every tick keeps the invariant, and so does a step, which is ticks and the host's bookkeeping. -/
theorem stepKeepsInvariant : Obligations.StepKeepsInvariant := by
  unfold Obligations.StepKeepsInvariant
  intro s t hinv hstep
  exact step_keeps (P := fun s => s.inv = true) sysTick_keeps_inv (fun _ h => h) (fun _ _ h => h) hinv hstep

/-- Settles O58, by the parts of the invariant. -/
theorem invariantHoldsAtReset : Obligations.InvariantHoldsAtReset := by
  unfold Obligations.InvariantHoldsAtReset
  intro cfg
  refine (State.inv_iff _).mpr ⟨rfl, ?_, rfl, .inr rfl⟩
  cases hsel : cfg.hasFrameSelect with
  | true => exact (absentAtReset_frameSelect hsel _).mpr rfl
  | false => exact (absentAtReset_twoWire hsel _).mpr ⟨rfl, rfl⟩

/-- `t` has the construction parameters, the patience and the board of `s`, the board some ticks further. -/
def SameConfiguration (s t : State) : Prop :=
  t.cfg = s.cfg ∧ t.host.patience = s.host.patience ∧ ∃ n, t.board = s.board.advance n

theorem SameConfiguration.refl (s : State) : SameConfiguration s s := ⟨rfl, rfl, 0, rfl⟩

theorem SameConfiguration.sysTick {s t : State} (rst : Bool) (p : Pins) (h : SameConfiguration s t) :
    SameConfiguration s (sysTick rst p t) := by
  obtain ⟨hcfg, hpatience, n, hboard⟩ := h
  exact ⟨hcfg, hpatience, n + 1, by rw [sysTick_board, hboard, Board.advance_advance]⟩

/-- Settles O59: no tick changes them, so no step does. -/
theorem stepKeepsConfiguration : Obligations.StepKeepsConfiguration := by
  unfold Obligations.StepKeepsConfiguration
  intro s t hstep
  exact step_keeps (P := SameConfiguration s) (fun rst p _ h => h.sysTick rst p) (fun _ h => h) (fun _ _ h => h)
    (SameConfiguration.refl s) hstep

end Sys2Proof.Machine

namespace Sys2Proof.Machine

/-! The driven line under the invariant (45_response_encoder.md R99, R102, R112). -/

section
variable {r : Regs}

/-- Under the invariant the turnaround has not happened in IDLE or a request state, and `dout` has its idle level. -/
theorem undriven_of_request (hinv : frameInv r = true) (h : r.proto = .idle ∨ takesRequestBits r = true) :
    r.turned = false ∧ r.dout = true := by
  simp only [takesRequestBits, Bool.or_eq_true, beq_iff_eq] at h
  rcases h with h | (h | h) | h
  · obtain ⟨-, -, -, -, -, -, hturned, hdout⟩ := (frameInv_idle h).mp hinv
    exact ⟨hturned, hdout⟩
  · obtain ⟨-, -, -, -, -, -, hturned, hdout⟩ := (frameInv_getHeader h).mp hinv
    exact ⟨hturned, hdout⟩
  · obtain ⟨-, -, -, -, -, -, hturned, hdout⟩ := (frameInv_readAddress h).mp hinv
    exact ⟨hturned, hdout⟩
  · obtain ⟨-, -, -, -, -, -, hturned, hdout⟩ := (frameInv_readValue h).mp hinv
    exact ⟨hturned, hdout⟩

theorem oe_of_not_turned (h : r.turned = false) : oe r = false := by simp [oe, h]

/-- A state is IDLE, a request state, a stalled one, or one of those that respond or end the frame. -/
theorem proto_cases (cfg : Config) (r : Regs) : r.proto = .idle ∨ takesRequestBits r = true ∨ stalls r = true ∨
    responds cfg r = true ∨ (r.proto = .endFrame ∧ cfg.hasFrameSelect = false) := by
  cases h : r.proto with
  | endFrame => cases hsel : cfg.hasFrameSelect <;> simp [responds, h, hsel]
  | _ => simp [takesRequestBits, stalls, responds, h]

end

/-- Settles O44, from the invariant of each state. -/
theorem noDriveDuringRequest : Obligations.NoDriveDuringRequest := by
  unfold Obligations.NoDriveDuringRequest
  intro r hinv
  refine ⟨fun h => ?request, fun h => ⟨oe_end h, fun h2 => ?aborted⟩⟩
  case request =>
    have h' : r.proto = .idle ∨ takesRequestBits r = true := by simpa [takesRequestBits, or_assoc] using h
    obtain ⟨hturned, hdout⟩ := undriven_of_request hinv h'
    exact ⟨oe_of_not_turned hturned, hdout⟩
  case aborted =>
    obtain ⟨-, ⟨hturned, hdout, -⟩ | ⟨-, -, hcmd⟩⟩ := (frameInv_endFrame h).mp hinv
    · exact ⟨hdout, hturned⟩
    · have hsmall : (headerOf r.isWrite).toNat < 2 := by cases r.isWrite <;> decide
      rw [hcmd] at h2
      omega

section
variable {cfg : Config} {r : Regs} {i : Inputs}

/-- The rules of IDLE and the request states leave `dout` alone. -/
theorem stateRule_dout_of_request (w : Regs) (h : r.proto = .idle ∨ takesRequestBits r = true) :
    (stateRule cfg r i w).dout = w.dout := by
  simp only [takesRequestBits, Bool.or_eq_true, beq_iff_eq] at h
  rcases h with h | (h | h) | h
  · simp only [stateRule, h, ruleIdle, ruleIdleSelected, ruleIdleTwoWire]; split_ifs <;> rfl
  · simp only [stateRule, h, ruleGetHeader]; split_ifs <;> rfl
  · simp only [stateRule, h, ruleReadAddress]; split_ifs <;> rfl
  · simp only [stateRule, h, ruleReadValue]; split_ifs <;> rfl

theorem coreTick_dout_of_request (hrst : i.rst = false) (hf : frameReset cfg r = false)
    (h : r.proto = .idle ∨ takesRequestBits r = true) : (coreTick cfg r i).dout = r.dout := by
  have hshift : ∀ w, (shiftWindow cfg r w).dout = w.dout := fun w => by unfold shiftWindow; split <;> rfl
  have hcount : ∀ w, (countBit cfg r w).dout = w.dout := fun w => by unfold countBit; split <;> rfl
  have hturn : ∀ w, (turnaround r w).dout = w.dout := fun w => by unfold turnaround; split <;> rfl
  rw [coreTick_active hrst hf, stateRule_dout_of_request _ h, hturn, hcount, hshift, recover_dout]

/-- A stalled core without a fall drives what it drove: its next state is a stalled one too. -/
theorem coreTick_drive_of_stalls (hrst : i.rst = false) (hf : frameReset cfg r = false) (hfall : fall r = false)
    (hst : stalls r = true) : oe (coreTick cfg r i) = oe r ∧ (coreTick cfg r i).dout = r.dout := by
  rw [coreTick_stall hrst hf hst (fun _ h => by simp [hfall] at h)]
  refine ⟨?_, rfl⟩
  rw [oe_of_stalls hst, oe_of_stalls]
  · simp [hfall]
  · simp only [stalls]
    split
    · rfl
    · exact hst

/-- A responding core without a fall drives what it drove. -/
theorem coreTick_drive_of_responds (hrst : i.rst = false) (hf : frameReset cfg r = false) (hfall : fall r = false)
    (hr : responds cfg r = true) : oe (coreTick cfg r i) = oe r ∧ (coreTick cfg r i).dout = r.dout := by
  rw [coreTick_response_edge hrst hf hr, hfall]
  exact ⟨rfl, rfl⟩

end

/-- Settles O43, by the kind of state: before the turnaround nothing is driven, a stalled or responding state drives at falls
only, and two-wire END does not drive. -/
theorem dataOutChangesOnlyOnFalls : Obligations.DataOutChangesOnlyOnFalls := by
  unfold Obligations.DataOutChangesOnlyOnFalls
  intro cfg r i hinv hrst hf hfall
  have request : r.proto = .idle ∨ takesRequestBits r = true →
      oe (coreTick cfg r i) = oe r ∧ (coreTick cfg r i).dout = r.dout := by
    intro h
    obtain ⟨hturned, -⟩ := undriven_of_request hinv h
    have hkept : (coreTick cfg r i).turned = false := by simp [coreTick_turned hrst hf, hturned, hfall]
    exact ⟨by rw [oe_of_not_turned hkept, oe_of_not_turned hturned], coreTick_dout_of_request hrst hf h⟩
  rcases proto_cases cfg r with h | h | h | h | ⟨hend, hsel⟩
  · exact .inl (request (.inl h))
  · exact .inl (request (.inr h))
  · exact .inl (coreTick_drive_of_stalls hrst hf hfall h)
  · exact .inl (coreTick_drive_of_responds hrst hf hfall h)
  · exact .inr ⟨hsel, hend, oe_end hend, by rw [coreTick_end_twoWire hsel hrst hend]; rfl⟩

/-! The step (30_encoding.md section 5, 00_scope.md R6). -/

section
variable {s : State} {script : List Stimulus}

theorem step_empty (h : s.host.script = []) : step s = .next (sysTick false s.host.pins s) := by
  simp only [step, h]

theorem step_tick {rst : Bool} {p : Pins} (h : s.host.script = .tick rst p :: script) :
    step s = .next (sysTick rst p (withScript script s)) := by
  simp only [step, h]

theorem step_bits {bs : List Bool} (h : s.host.script = .bits bs :: script) :
    step s = .next (restLow (clockBits bs (withScript script s))) := by
  simp only [step, h]

theorem step_clocks {n : Nat} (h : s.host.script = .clocks n :: script) :
    step s = .next (restLow (clockReleased n (withScript script s))) := by
  simp only [step, h]

theorem step_frame {pos : Position} {bytes rest : List Byte} {i : Instr}
    (h : s.host.script = .frame pos bytes :: script) (hd : decode pos bytes = .ok (i, rest)) :
    step s = exec i (withScript (pushRest s.cfg i rest script) s) := by
  simp only [step, h, hd]

theorem step_rawFrame {pos : Position} {bytes : List Byte} {e : Reject}
    (h : s.host.script = .frame pos bytes :: script) (hd : decode pos bytes = .error e) :
    step s = .next (rawFrame bytes (withScript script s)) := by
  simp only [step, h, hd]

end

/-- No instruction is refused. -/
theorem exec_next (i : Instr) (s : State) : ∃ t, exec i s = .next t := by
  cases i <;> exact ⟨_, rfl⟩

/-- Settles O53, by the step of a frame item. -/
theorem stepRunsDecodedInstruction : Obligations.StepRunsDecodedInstruction := by
  unfold Obligations.StepRunsDecodedInstruction
  intro s pos bytes rest script i h hd
  exact step_frame h hd

/-- Settles O55, by the step of a tick item and of an empty script. -/
theorem stepIsOneTick : Obligations.StepIsOneTick := by
  unfold Obligations.StepIsOneTick
  exact ⟨fun s rst p script h => step_tick h, fun s h => step_empty h⟩

/-- Settles O56, by the script's next item. -/
theorem everyStepHasANextState : Obligations.EveryStepHasANextState := by
  unfold Obligations.EveryStepHasANextState
  intro s
  match h : s.host.script with
  | [] => exact ⟨_, step_empty h⟩
  | .tick rst p :: script => exact ⟨_, step_tick h⟩
  | .bits bs :: script => exact ⟨_, step_bits h⟩
  | .clocks n :: script => exact ⟨_, step_clocks h⟩
  | .frame pos bytes :: script =>
    match hd : decode pos bytes with
    | .ok (i, rest) => rw [step_frame h hd]; exact exec_next i _
    | .error e => exact ⟨_, step_rawFrame h hd⟩

/-! A table word at the head of the script (log entry 18). -/

/-- A table word's bytes are one instruction at their position, with no byte left over. -/
theorem decode_tableFrame (nbits w : Nat) :
    ∃ i, decode (tablePosition (tableFrame nbits w)) (tableFrame nbits w) = .ok (i, []) := by
  obtain ⟨h, a3, a2, a1, a0, v3, v2, v1, v0, hbytes⟩ :
      ∃ h a3 a2 a1 a0 v3 v2 v1 v0, tableBytes nbits w = [h, a3, a2, a1, a0, v3, v2, v1, v0] :=
    ⟨_, _, _, _, _, _, _, _, _, rfl⟩
  have hframe : tableFrame nbits w =
      [h, a3, a2, a1, a0, v3, v2, v1, v0].take (if h = 0x00#8 then 9 else if h = 0x01#8 then 5 else 1) := by
    simp only [tableFrame, hbytes]
  rw [hframe]
  by_cases h2 : 2 ≤ h.toNat
  · obtain ⟨h0, h1⟩ := (two_le_toNat_iff h).mp h2
    rw [if_neg h0, if_neg h1, List.take_succ_cons, List.take_zero]
    by_cases hsync : h = syncByte
    · subst hsync
      exact ⟨_, decode_sync []⟩
    · have hpos : tablePosition [h] = .header := if_neg hsync
      rw [hpos]
      exact ⟨_, decode_abort h2 []⟩
  · obtain rfl | rfl : h = 0x00#8 ∨ h = 0x01#8 := by bv_omega
    · exact ⟨_, decode_wr ..⟩
    · exact ⟨_, decode_rd ..⟩

theorem withScript_readyFor (bytes : List Byte) (script : List Stimulus) (s : State) :
    withScript script (readyFor bytes s) = readyFor bytes (withScript script s) := by
  unfold readyFor
  rw [apply_ite (withScript script), apply_ite (withScript script)]
  rfl

theorem readyFor_script (bytes : List Byte) (s : State) : (readyFor bytes s).host.script = s.host.script := by
  unfold readyFor; split_ifs <;> rfl

/-- The step after a table word is loaded runs its instruction in the state made ready for it, the script as it was. -/
theorem step_withFetchWord (s : State) {nbits w : Nat} {i : Instr}
    (hd : decode (tablePosition (tableFrame nbits w)) (tableFrame nbits w) = .ok (i, [])) :
    step (s.withFetchWord nbits w) = exec i (readyFor (tableFrame nbits w) s) := by
  have hscript : (s.withFetchWord nbits w).host.script =
      .frame (tablePosition (tableFrame nbits w)) (tableFrame nbits w) :: s.host.script := readyFor_script _ _
  have hback : withScript s.host.script (s.withFetchWord nbits w) = readyFor (tableFrame nbits w) s := by
    rw [State.withFetchWord, withScript_readyFor, withScript_withScript, withScript_self]
  rw [step_frame hscript hd]
  exact congrArg (exec i) hback

/-- SYNC is the one instruction of the preamble position. -/
theorem position_eq_preamble_iff (i : Instr) : i.position = .preamble ↔ i = .sync := by
  cases i <;> simp [Instr.position]

/-- Settles O54: the decoder gives the instruction of the table word's position, for which the link is made ready. -/
theorem fetchWordRunsTableInstruction : Obligations.FetchWordRunsTableInstruction := by
  unfold Obligations.FetchWordRunsTableInstruction
  intro s nbits w
  obtain ⟨i, hd⟩ := decode_tableFrame nbits w
  obtain ⟨-, hpos, -⟩ := encodeDecodeRoundTrip _ _ _ _ hd
  have hsync : tablePosition (tableFrame nbits w) = .preamble ↔ i = .sync := by
    rw [← hpos, position_eq_preamble_iff]
  refine ⟨i, readyFor (tableFrame nbits w) s, by simp only [decodeTableWord, hd], step_withFetchWord s hd, ?selected,
    ?twoWire, ?preamble⟩
  case selected => intro hne hsel; rw [readyFor, if_neg (mt hsync.mp hne), if_pos hsel]
  case twoWire => intro hne hsel; rw [readyFor, if_neg (mt hsync.mp hne), if_neg (by simp [hsel])]
  case preamble => intro heq; rw [readyFor, if_pos (hsync.mpr heq)]

end Sys2Proof.Machine

namespace Sys2Proof.Machine

/-! The target's memory (20_memory.md sections 1, 2 and 6): words by their lanes, and the canonical form. -/

/-- Lanes of words have one address only if word and lane are the same. -/
theorem laneAddress_inj {adr adr' : BusAddr} {lane lane' : Nat} (hl : lane < 4) (hl' : lane' < 4)
    (h : laneAddress adr lane = laneAddress adr' lane') : adr = adr' ∧ lane = lane' := by
  unfold laneAddress at h
  exact ⟨BitVec.eq_of_toNat_eq (by omega), by omega⟩

/-- A word write changes no byte outside its four lanes. -/
theorem readByte_writeWord_other {adr : BusAddr} {a : Nat} (mem : List Host.Cell) (v : Word)
    (h : ∀ lane, lane < 4 → a ≠ laneAddress adr lane) : readByte a (writeWord mem adr v) = readByte a mem := by
  unfold writeWord
  rw [readByte_writeByte_other (h 3 (by decide)).symm, readByte_writeByte_other (h 2 (by decide)).symm,
    readByte_writeByte_other (h 1 (by decide)).symm, readByte_writeByte_other (h 0 (by decide)).symm]

/-- A word write puts byte `lane` of the word at its lane address. -/
theorem readByte_writeWord_lane {mem : List Host.Cell} (adr : BusAddr) (v : Word) (hw : Memory.wf mem = true) {lane : Nat}
    (hl : lane < 4) : readByte (laneAddress adr lane) (writeWord mem adr v) = laneByte v lane := by
  have hother : ∀ {l l' : Nat}, l ≠ l' → laneAddress adr l ≠ laneAddress adr l' := by
    intro l l' hne; unfold laneAddress; omega
  have hwrite : ∀ {l : Nat} (b : Byte) {m : List Host.Cell}, l < 4 → Memory.wfFrom 0 m = true →
      Memory.wfFrom 0 (writeByte (laneAddress adr l) b m) = true :=
    fun _ _ hlane hm => wfFrom_writeByte (Nat.zero_le _) (laneAddress_lt adr hlane) hm
  have h0 := hwrite (laneByte v 0) (by decide : 0 < 4) hw
  have h1 := hwrite (laneByte v 1) (by decide : 1 < 4) h0
  have h2 := hwrite (laneByte v 2) (by decide : 2 < 4) h1
  unfold writeWord
  obtain rfl | rfl | rfl | rfl : lane = 0 ∨ lane = 1 ∨ lane = 2 ∨ lane = 3 := by omega
  · rw [readByte_writeByte_other (hother (by decide)), readByte_writeByte_other (hother (by decide)),
      readByte_writeByte_other (hother (by decide)), readByte_writeByte_same hw]
  · rw [readByte_writeByte_other (hother (by decide)), readByte_writeByte_other (hother (by decide)),
      readByte_writeByte_same h0]
  · rw [readByte_writeByte_other (hother (by decide)), readByte_writeByte_same h1]
  · rw [readByte_writeByte_same h2]

/-- A word read where the word was written gives that word. -/
theorem readWord_writeWord_same {mem : List Host.Cell} (adr : BusAddr) (v : Word) (hw : Memory.wf mem = true) :
    readWord (writeWord mem adr v) adr = v := by
  unfold readWord
  rw [readByte_writeWord_lane adr v hw (by decide), readByte_writeWord_lane adr v hw (by decide),
    readByte_writeWord_lane adr v hw (by decide), readByte_writeWord_lane adr v hw (by decide), wordOfLanes_laneByte]

/-- A word read elsewhere gives what it gave before the write. -/
theorem readWord_writeWord_other {adr adr' : BusAddr} (mem : List Host.Cell) (v : Word) (h : adr' ≠ adr) :
    readWord (writeWord mem adr v) adr' = readWord mem adr' := by
  have hbyte : ∀ {l : Nat}, l < 4 → readByte (laneAddress adr' l) (writeWord mem adr v) = readByte (laneAddress adr' l) mem :=
    fun hl => readByte_writeWord_other mem v fun _ hlane e => h (laneAddress_inj hl hlane e).1
  unfold readWord
  rw [hbyte (by decide), hbyte (by decide), hbyte (by decide), hbyte (by decide)]

/-- Settles O35, by whether the two words are one. -/
theorem wordReadAfterWrite : Obligations.WordReadAfterWrite := by
  unfold Obligations.WordReadAfterWrite
  intro mem adr adr' v hw
  refine ⟨?_, fun a h => readByte_writeWord_other mem v h⟩
  split
  case isTrue heq => rw [heq, readWord_writeWord_same adr v hw]
  case isFalse hne => exact readWord_writeWord_other mem v hne

theorem wfFrom_cons {lo a : Nat} {b : Byte} {rest : List Host.Cell} : Memory.wfFrom lo ((a, b) :: rest) = true ↔
    lo ≤ a ∧ a < 2 ^ 32 ∧ b ≠ unlistedByte ∧ Memory.wfFrom (a + 1) rest = true := by
  simp [Memory.wfFrom, and_assoc]

@[simp] theorem readByte_cons_same (a : Nat) (b : Byte) (rest : List Host.Cell) : readByte a ((a, b) :: rest) = b := by
  simp [readByte]

theorem readByte_cons_other {a a' : Nat} (h : a' ≠ a) (b : Byte) (rest : List Host.Cell) :
    readByte a ((a', b) :: rest) = readByte a rest := by
  simp [readByte, h]

/-- A canonical memory that lists a cell does not read alike with one all of whose cells stand above it. -/
theorem not_readsAlike_of_lt {a hi : Nat} {b : Byte} {rest m : List Host.Cell} (hb : b ≠ unlistedByte)
    (hm : Memory.wfFrom hi m = true) (hlt : a < hi) (h : ∀ x, readByte x ((a, b) :: rest) = readByte x m) : False := by
  have hx := h a
  rw [readByte_cons_same, readByte_below hm hlt] at hx
  exact hb hx

/-- Canonical memories that read alike at every byte are equal lists. -/
theorem eq_of_readsAlike {lo : Nat} {m m' : List Host.Cell} (hm : Memory.wfFrom lo m = true)
    (hm' : Memory.wfFrom lo m' = true) (h : ∀ x, readByte x m = readByte x m') : m = m' := by
  induction m generalizing lo m' with
  | nil =>
    cases m' with
    | nil => rfl
    | cons c' rest' =>
      obtain ⟨-, -, hb', -⟩ := wfFrom_cons.mp hm'
      exact (not_readsAlike_of_lt (hi := c'.1 + 1) hb' rfl (Nat.lt_succ_self _) fun x => (h x).symm).elim
  | cons c rest ih =>
    obtain ⟨a, b⟩ := c
    obtain ⟨-, ha, hb, hrest⟩ := wfFrom_cons.mp hm
    cases m' with
    | nil => exact (not_readsAlike_of_lt (hi := a + 1) hb rfl (Nat.lt_succ_self _) h).elim
    | cons c' rest' =>
      obtain ⟨a', b'⟩ := c'
      obtain ⟨-, ha', hb', hrest'⟩ := wfFrom_cons.mp hm'
      rcases Nat.lt_trichotomy a a' with hlt | rfl | hgt
      · exact (not_readsAlike_of_lt hb (wfFrom_cons.mpr ⟨le_refl _, ha', hb', hrest'⟩) hlt h).elim
      · have hbyte : b = b' := by simpa using h a
        have htail : rest = rest' := by
          refine ih hrest hrest' fun x => ?_
          rcases Nat.lt_or_ge a x with hx | hx
          · simpa [readByte_cons_other (Nat.ne_of_lt hx)] using h x
          · rw [readByte_below hrest (by omega), readByte_below hrest' (by omega)]
        rw [hbyte, htail]
      · exact (not_readsAlike_of_lt hb' (wfFrom_cons.mpr ⟨le_refl _, ha, hb, hrest⟩) hgt fun x => (h x).symm).elim

/-- Settles O36: the canonical form from address 0 on. -/
theorem memoryFormIsCanonical : Obligations.MemoryFormIsCanonical := by
  unfold Obligations.MemoryFormIsCanonical
  intro m m' hm hm' h
  exact eq_of_readsAlike hm hm' h

/-! A request that stands: never answered (44_bus_adapter.md R93), or cut short (R94). -/

section
variable {s : State}

/-- `t` shows the same request as `s`, unanswered: the same bus outputs and protocol state, memory and events as before. -/
structure RequestStands (s t : State) : Prop where
  outputs : busOut t.core = busOut s.core
  proto : t.core.proto = s.core.proto
  plan : t.target.plan = s.target.plan
  mem : t.target.mem = s.target.mem
  events : t.events = s.events

theorem RequestStands.refl (s : State) : RequestStands s s := ⟨rfl, rfl, rfl, rfl, rfl⟩

theorem RequestStands.trans {s t u : State} (h : RequestStands s t) (h' : RequestStands t u) : RequestStands s u where
  outputs := h'.outputs.trans h.outputs
  proto := h'.proto.trans h.proto
  plan := h'.plan.trans h.plan
  mem := h'.mem.trans h.mem
  events := h'.events.trans h.events

/-- A tick that neither answers nor cuts a request leaves it standing. -/
theorem sysTick_requestStands (p : Pins) (hb : busCyc s.core = true) (hf : frameReset s.cfg s.core = false)
    (ha : s.target.answers s.core = false) : RequestStands s (sysTick false p s) := by
  have hnone : ((inputsOf false p s).busAck || (inputsOf false p s).busErr) = false :=
    (target_completes s.target s.core).trans ha
  have herr : (inputsOf false p s).busErr = false := (Bool.or_eq_false_iff.mp hnone).2
  have hcore := coreTick_bus (i := inputsOf false p s) rfl hf hb
  rw [hnone, Bool.and_false] at hcore
  have htarget : (sysTick false p s).target = { s.target with waited := s.target.waited + 1 } := by
    rw [sysTick_target, show cutsShort false s = false from hf, target_tick_wait hb ha]
  constructor
  case outputs => rw [sysTick_core, hcore]; rfl
  case proto => rw [sysTick_core, hcore]; rfl
  case plan => rw [htarget]
  case mem => rw [htarget]
  case events => rw [sysTick_events, raisedEvents_bus rfl hf hb, herr]; rfl

/-- Frame-select, where there is one, is asserted through the synchronizer. -/
def selectSeen (s : State) : Prop := s.cfg.hasFrameSelect = true → s.core.csnS1 = false ∧ s.core.csnS2 = false

theorem frameReset_of_selectSeen (h : selectSeen s) : frameReset s.cfg s.core = false := by
  cases hsel : s.cfg.hasFrameSelect with
  | true => simp [frameReset, csn, (h hsel).2]
  | false => exact frameReset_twoWire s.core hsel

/-- It stays so over a tick at which the host keeps it asserted. -/
theorem sysTick_selectSeen {p : Pins} (h : selectSeen s) (hp : s.cfg.hasFrameSelect = true → p.csn = false) :
    selectSeen (sysTick false p s) := by
  intro hsel
  have hstages := coreTick_sameStages (cfg := s.cfg) (r := s.core) (inputsOf_rst false p s)
  exact ⟨hstages.csnS1.trans ((if_pos hsel).trans (hp hsel)), hstages.csnS2.trans ((if_pos hsel).trans (h hsel).1)⟩

/-- R93: without an answer and a release the request stands for any number of ticks. -/
theorem ticks_requestStands (ps : List Pins) (hb : busCyc s.core = true) (hd : s.target.current.delay = none)
    (hsel : selectSeen s) (hps : s.cfg.hasFrameSelect = true → ∀ p ∈ ps, p.csn = false) :
    RequestStands s (ps.foldl (fun u p => sysTick false p u) s) := by
  induction ps generalizing s with
  | nil => exact RequestStands.refl s
  | cons p ps ih =>
    have htick := sysTick_requestStands p hb (frameReset_of_selectSeen hsel) (target_answers_never hd)
    have hb' : busCyc (sysTick false p s).core = true := by simpa only [busCyc, htick.proto] using hb
    have hd' : (sysTick false p s).target.current.delay = none := by
      simpa only [Target.current, htick.plan] using hd
    exact htick.trans <| ih hb' hd' (sysTick_selectSeen hsel fun h => hps h p List.mem_cons_self)
      fun h q hq => hps h q (List.mem_cons_of_mem _ hq)

end

/-- Settles O33, by the ticks one after the other. -/
theorem unansweredRequestNeverTimesOut : Obligations.UnansweredRequestNeverTimesOut := by
  unfold Obligations.UnansweredRequestNeverTimesOut
  intro s ps hb hd hsel
  have h := ticks_requestStands ps hb hd (fun h => ⟨(hsel h).1, (hsel h).2.1⟩) (fun h => (hsel h).2.2)
  exact ⟨h.outputs, h.proto, h.mem, h.events⟩

/-- `rst` and frame reset leave IDLE with a clear value register. -/
theorem coreTick_of_cutsShort {s : State} {rst : Bool} (p : Pins) (hcut : cutsShort rst s = true) :
    (sysTick rst p s).core.proto = .idle ∧ (sysTick rst p s).core.value = 0#32 := by
  rw [sysTick_core]
  cases rst with
  | true => rw [coreTick_rst rfl]; exact ⟨rfl, rfl⟩
  | false => rw [coreTick_release rfl (by simpa [cutsShort] using hcut)]; exact ⟨rfl, rfl⟩

/-- A request cut short raises CoreReset or FrameCancel and nothing else. -/
theorem raisedEvents_of_cutsShort {s : State} {rst : Bool} (p : Pins) (hb : busCyc s.core = true)
    (hcut : cutsShort rst s = true) :
    raisedEvents s.cfg s.core (inputsOf rst p s) = if rst then [.coreReset] else [.frameCancel] := by
  cases rst with
  | true => simp [raisedEvents]
  | false =>
    have hf : frameReset s.cfg s.core = true := by simpa [cutsShort] using hcut
    simp only [busCyc, Bool.or_eq_true, beq_iff_eq] at hb
    rcases hb with hb | hb <;> simp [raisedEvents, hf, hb]

/-- Settles O34: the registers, events and draw of the cutting tick, and the retired request by what the plan says. -/
theorem cutShortAccessIsADraw : Obligations.CutShortAccessIsADraw := by
  unfold Obligations.CutShortAccessIsADraw
  intro s rst p hb hcut
  obtain ⟨hidle, hvalue⟩ := coreTick_of_cutsShort p hcut
  have hevents := raisedEvents_of_cutsShort p hb hcut
  have hmem : (sysTick rst p s).target.mem =
      if s.target.current.performed.getD (Config.cutShortPerformed s.draws) && busWe s.core then
        writeWord s.target.mem (wordAddress s.core.address) s.core.value
      else s.target.mem := by
    rw [sysTick_target, hcut, target_tick_cut hb, retire_mem]
  have hwe : busWe s.core = true ↔ s.core.proto = .busWrite := by simp [busWe]
  refine ⟨hidle, by rw [busCyc, hidle]; rfl, hvalue, by simp [Target.ends, hb, hcut], ?either, fun hno => ?keeps,
    fun hyes hw => ?writes, fun hnone hw => ?draws, fun h => ?reset, fun h => ?release⟩
  case either =>
    rw [hmem]
    split
    case isTrue h => exact .inr ⟨hwe.mp (Bool.and_eq_true _ _ ▸ h).2, rfl⟩
    case isFalse => exact .inl rfl
  case keeps => rw [hmem, hno]; rfl
  case writes => rw [hmem, hyes, hwe.mpr hw]; rfl
  case draws => rw [hmem, hnone, hwe.mpr hw, Option.getD_none, Bool.and_true]
  case reset => rw [sysTick_events, hevents, h]; rfl
  case release => rw [sysTick_events, hevents, h]; rfl

end Sys2Proof.Machine

namespace Sys2Proof

/-! The bits of a byte and of a word, shifted in most significant first (30_encoding.md R42). -/

/-- Eight bits shifted into a byte are the byte's bits, whatever stood there before. -/
theorem bitsOfByte_foldl_shl1 (x : Byte) {bs : List Bool} (h : bs.length = 8) : bitsOfByte (bs.foldl Machine.shl1 x) = bs := by
  have hbit : ∀ k, k < 8 → (bitsOfByte (bs.foldl Machine.shl1 x))[k]? = bs[k]? := by
    intro k hk
    have hrev : bs.reverse[7 - k]? = bs[k]? := by
      rw [List.getElem?_reverse (by omega), h]
      congr 1
      omega
    rw [getElem?_bitsOfByte _ hk, Machine.getLsbD_foldl_shl1, h, hrev, decide_eq_true (by omega), if_pos (by omega),
      List.getElem?_eq_getElem (by omega)]
    rfl
  refine List.ext_getElem? fun k => ?_
  rcases Nat.lt_or_ge k 8 with hk | hk
  · exact hbit k hk
  · rw [List.getElem?_eq_none hk, List.getElem?_eq_none (by omega)]

/-- A byte's own bits shifted in give the byte. -/
theorem foldl_shl1_bitsOfByte (x b : Byte) : (bitsOfByte b).foldl Machine.shl1 x = b := by
  refine BitVec.eq_of_getLsbD_eq fun k hk => ?_
  rw [Machine.getLsbD_foldl_shl1, length_bitsOfByte, if_pos hk, decide_eq_true hk,
    List.getElem?_reverse (by simpa using hk), length_bitsOfByte, getElem?_bitsOfByte b (by omega),
    show 7 - (8 - 1 - k) = k by omega]
  rfl

/-- A field's own bits shifted in give the field. -/
theorem foldl_shl1_bitsOfWord (x w : Word) : (bitsOfBytes (bytesOfWord w)).foldl Machine.shl1 x = w := by
  refine BitVec.eq_of_getLsbD_eq fun k hk => ?_
  have hlen : (bitsOfBytes (bytesOfWord w)).length = 32 := by simp
  rw [Machine.getLsbD_foldl_shl1, hlen, if_pos hk, decide_eq_true hk, List.getElem?_reverse (by omega), hlen,
    getElem?_bitsOfBytes_bytesOfWord w (by omega), show 31 - (32 - 1 - k) = k by omega]
  rfl

/-- A nonempty list of bits is shifted in by its last bit after the others. -/
theorem exists_append_last {n k : Nat} {bs : List Bool} {y : BitVec n} (hlen : bs.length = k + 1)
    (hfold : ∀ x, bs.foldl Machine.shl1 x = y) :
    ∃ front b, bs = front ++ [b] ∧ front.length = k ∧ ∀ x, Machine.shl1 (front.foldl Machine.shl1 x) b = y := by
  have hne : bs ≠ [] := fun h => by simp [h] at hlen
  refine ⟨bs.dropLast, bs.getLast hne, (List.dropLast_append_getLast hne).symm, by simp [hlen], fun x => ?_⟩
  rw [← hfold x]
  conv => rhs; rw [← List.dropLast_append_getLast hne, List.foldl_append]
  rfl

theorem bitsOfByte_split (h : Byte) :
    ∃ front b, bitsOfByte h = front ++ [b] ∧ front.length = 7 ∧
      ∀ x : Byte, Machine.shl1 (front.foldl Machine.shl1 x) b = h :=
  exists_append_last (length_bitsOfByte h) (foldl_shl1_bitsOfByte · h)

theorem bitsOfWord_split (w : Word) :
    ∃ front b, bitsOfBytes (bytesOfWord w) = front ++ [b] ∧ front.length = 31 ∧
      ∀ x : Word, Machine.shl1 (front.foldl Machine.shl1 x) b = w :=
  exists_append_last (by simp) (foldl_shl1_bitsOfWord · w)

end Sys2Proof

namespace Sys2Proof.Machine

/-! The request of a whole frame, from its start to the request on the bus (43_commands.md R84, R85). -/

/-- The system a frame's request is measured against: `s` with the samples forgotten and frame-select, where there is one,
asserted. -/
def frameBase (s : State) : State :=
  { s with host := { s.host with
      rx := [], pins := { sclk := false, csn := if s.cfg.hasFrameSelect then false else s.host.pins.csn, data := none } } }

/-- The registers of an open frame with no bit taken. -/
def headerRegs (s : State) : Regs :=
  { Regs.reset with
    proto := .getHeader, window := s.core.window
    csnS1 := if s.cfg.hasFrameSelect then false else s.core.csnS1
    csnS2 := if s.cfg.hasFrameSelect then false else s.core.csnS2 }

/-- GET_HEADER with no bit taken has clear registers, by the invariant. -/
theorem core_of_frameOpen {s : State} (h : frameOpen s = true) : s.cfg.hasFrameSelect = false ∧
    s.core = { headerRegs s with dinS1 := s.core.dinS1, dinS2 := s.core.dinS2 } := by
  simp only [frameOpen, clockLow, Bool.and_eq_true, Bool.not_eq_true', beq_iff_eq] at h
  obtain ⟨⟨⟨⟨hsel, ⟨hc1, hc2⟩, hc3⟩, hp⟩, hcnt⟩, hinv⟩ := h
  obtain ⟨-, hcmd, haddr, hval, hwr, hwoff, hturned, hdout⟩ := (frameInv_getHeader hp).mp hinv
  have hcmd0 : s.core.command = 0#8 := BitVec.eq_of_toNat_eq (by simpa [hcnt] using hcmd)
  refine ⟨hsel, ?_⟩
  obtain ⟨cfg, ⟨⟩, target, host, board, draws, events⟩ := s
  simp_all [headerRegs, Regs.reset]

/-- A frame's start leaves an open frame with no bit taken, from a link at rest and right after a sync byte. -/
theorem afterBits_openFrame {s : State} (h : readyForFrame s = true) :
    AfterBits (frameBase s) (headerRegs s) 0 (openFrame s) := by
  simp only [readyForFrame, Bool.or_eq_true] at h
  rcases h with h | h
  · have hsel : s.cfg.hasFrameSelect = true := by
      simp only [linkAtRest, Bool.and_eq_true] at h
      obtain ⟨⟨⟨hsel, -⟩, -⟩, -⟩ := h
      exact hsel
    obtain ⟨d1, d2, hopen⟩ := openFrame_rest h
    refine ⟨releaseTicks + selectTicks, false, d1, d2, 0, startPins false, by simp [startPins, frameBase, hsel], by simp, ?_⟩
    rw [hopen]
    simp [restStage, openedRegs, frameBase, headerRegs, hsel]
  · obtain ⟨hsel, hcore⟩ := core_of_frameOpen h
    refine ⟨0, false, s.core.dinS1, s.core.dinS2, s.target.waited, s.host.pins, by simp [frameBase, hsel], by simp, ?_⟩
    have hopen : openFrame s = clearSamples s := by simp [openFrame, hsel]
    rw [hopen]
    refine State.mk.injEq .. |>.mpr ⟨rfl, hcore, rfl, rfl, rfl, rfl, rfl⟩

theorem requestRegs_headerRegs (s : State) : requestRegs (frameBase s) (headerRegs s) = true := by
  cases hsel : s.cfg.hasFrameSelect <;> simp [requestRegs, takesRequestBits, frameBase, headerRegs, Regs.reset, hsel]

section
variable {s t : State} {r : Regs} {n : Nat}

/-- The header of a write or a read, all eight bits. -/
theorem afterBits_wholeHeader (w : Bool) (h : AfterBits s r n t) (hr : requestRegs s r = true) (hp : r.proto = .getHeader)
    (hc : r.cnt = 0#8) :
    AfterBits s { r with command := headerOf w, cnt := 8#8, isWrite := w, proto := .readAddress } (n + 8)
      (clockBits (bitsOfByte (headerOf w)) t) := by
  obtain ⟨front, b, hbits, hlen, hfold⟩ := bitsOfByte_split (headerOf w)
  have hfront := afterBits_header front h hr hp (by simp [hc, hlen])
  have hlast := afterBits_headerDecides (b := b) w hfront hr hp (by simp [hc, hlen]) (hfold _)
  rw [hbits, clockBits_append, hlen] at *
  exact hlast

/-- The address of a write, all 32 bits. -/
theorem afterBits_wholeAddress (a : Word) (h : AfterBits s r n t) (hr : requestRegs s r = true) (hp : r.proto = .readAddress)
    (hc : r.cnt = 8#8) (hw : r.isWrite = true) :
    AfterBits s { r with address := a, cnt := 40#8, proto := .readValue } (n + 32)
      (clockBits (bitsOfBytes (bytesOfWord a)) t) := by
  obtain ⟨front, b, hbits, hlen, hfold⟩ := bitsOfWord_split a
  have hfront := afterBits_address front h hr hp (by simp [hc, hlen])
  have hlast := afterBits_addressDone (b := b) hfront hr hp (by simp [hc, hlen]) hw
  simp only [hfold] at hlast
  rw [hbits, clockBits_append, hlen] at *
  exact hlast

/-- After the bits of a request the core has the registers they left, the stages apart. -/
theorem core_of_afterBits (h : AfterBits s r n t) :
    t.core = { r with
      clkS1 := t.core.clkS1, clkS2 := t.core.clkS2, clkPrev := t.core.clkPrev, dinS1 := t.core.dinS1
      dinS2 := t.core.dinS2 } := by
  obtain ⟨m, c, d1, d2, w, p, -, -, rfl⟩ := h
  rfl

theorem requestReady_of_afterBits (h : AfterBits s r n t) (hr : requestRegs s r = true) : requestReady t = true := by
  obtain ⟨m, c, d1, d2, w, p, hp, -, rfl⟩ := h
  simp only [requestRegs, Bool.and_eq_true, Bool.not_eq_true'] at hr
  obtain ⟨⟨⟨htakes, hturned⟩, -⟩, hselect⟩ := hr
  exact requestReady_iff.mpr ⟨htakes, by simp [clockSettled], by simpa [selectSteady, hp] using hselect, hturned⟩

/-- A `busStage` does not read the synchronizer stages of the request's registers. -/
theorem busStage_stages (k : Nat) (a1 a2 a3 a4 a5 c1 c2 c3 d1 d2 : Bool) (p : Pins) (rx : List (Option Bool)) :
    busStage s { r with clkS1 := a1, clkS2 := a2, clkPrev := a3, dinS1 := a4, dinS2 := a5 } k c1 c2 c3 d1 d2 p rx =
      busStage s r k c1 c2 c3 d1 d2 p rx := by
  simp only [busStage, busRegs, busTarget]
  cases answeredBefore s k <;> rfl

/-- The request that the last bit raises stands in the system in which the frame began, the samples counted on: `hstep` is
what that bit does to the registers. -/
theorem stalledAt_of_afterBits {r' : Regs} {k : Nat} {u : State} (h : AfterBits s r n t) (hr : requestRegs s r = true)
    (hstep : StalledAt t { r' with
        clkS1 := t.core.clkS1, clkS2 := t.core.clkS2, clkPrev := t.core.clkPrev, dinS1 := t.core.dinS1
        dinS2 := t.core.dinS2 } k (dataOutPin t.cfg t.core :: t.host.rx) u) :
    StalledAt s r' k (List.replicate (n + 1) (idleSample s.cfg) ++ s.host.rx) u := by
  have hturned := requestRegs_turned hr
  have hdout := requestRegs_dout hr
  obtain ⟨m, c, e1, e2, w, p, hp, -, rfl⟩ := h
  obtain ⟨m', d1, d2, p', hp', rfl⟩ := hstep
  refine ⟨m + m', d1, d2, p', hp'.trans hp, ?_⟩
  rw [busStage_stages]
  have hsample : dataOutPin s.cfg { r with clkS1 := c, clkS2 := c, clkPrev := c, dinS1 := e1, dinS2 := e2 } =
      idleSample s.cfg := by
    rw [dataOutPin_of_not_turned (by exact hturned)]
    exact congrArg (adapterPin s.cfg false) hdout
  refine State.mk.injEq .. |>.mpr ⟨rfl, rfl, rfl, ?samples, ?board, rfl, rfl⟩
  case samples =>
    refine HostAgent.mk.injEq .. |>.mpr ⟨rfl, rfl, ?_, rfl, rfl⟩
    rw [hsample, List.replicate_succ, List.cons_append]
  case board => simp

end

/-- The registers of a write's request on the bus. -/
def writeRegs (s : State) (addr val : Word) : Regs :=
  { headerRegs s with isWrite := true, address := addr, value := val, cnt := 72#8, proto := .busWrite }

/-- The registers of a read's request on the bus. -/
def readRegs (s : State) (addr : Word) : Regs :=
  { headerRegs s with command := 0x01#8, address := addr, cnt := 40#8, proto := .busRead }

/-- R84: the 72 request bits of a write raise its bus request, one undriven sample a bit. -/
theorem sendRequest_wr {s : State} (addr val : Word) (h : readyForFrame s = true) :
    StalledAt (frameBase s) (writeRegs s addr val) 1 (List.replicate 72 (idleSample s.cfg)) (sendRequest (.wr addr val) s) := by
  have hr := requestRegs_headerRegs s
  have header := afterBits_wholeHeader true (afterBits_openFrame h) hr rfl rfl
  have address := afterBits_wholeAddress addr header hr rfl rfl rfl
  obtain ⟨front, b, hbits, hlen, hfold⟩ := bitsOfWord_split val
  have value := afterBits_value front address hr rfl (by simp [hlen])
  rw [hlen] at value
  have hcore := core_of_afterBits value
  have last := clockBit_valueDone (b := b) (requestReady_of_afterBits value hr) (by rw [hcore]) (by rw [hcore]; simp)
  rw [hcore] at last
  simp only [hfold] at last
  have stands := stalledAt_of_afterBits (r' := writeRegs s addr val) value hr (by rw [hcore]; exact last)
  have hsend : sendRequest (.wr addr val) s =
      clockBit (some b) (clockBits front (clockBits (bitsOfBytes (bytesOfWord addr)) (clockBits (bitsOfByte (headerOf true))
        (openFrame s)))) := by
    rw [sendRequest, encode_wr, bitsOfBytes_cons, bitsOfBytes_append, hbits, clockBits_append, clockBits_append,
      clockBits_append]
    rfl
  rw [hsend]
  simpa [frameBase] using stands

/-- R85: the 40 request bits of a read raise its bus request. -/
theorem sendRequest_rd {s : State} (addr : Word) (h : readyForFrame s = true) :
    StalledAt (frameBase s) (readRegs s addr) 1 (List.replicate 40 (idleSample s.cfg)) (sendRequest (.rd addr) s) := by
  have hr := requestRegs_headerRegs s
  have header := afterBits_wholeHeader false (afterBits_openFrame h) hr rfl rfl
  obtain ⟨front, b, hbits, hlen, hfold⟩ := bitsOfWord_split addr
  have address := afterBits_address front header hr rfl (by simp [hlen])
  rw [hlen] at address
  have hcore := core_of_afterBits address
  have last := clockBit_addressRead (b := b) (requestReady_of_afterBits address hr) (by rw [hcore])
    (by rw [hcore]; simp) (by rw [hcore])
  rw [hcore] at last
  simp only [hfold] at last
  have stands := stalledAt_of_afterBits (r' := readRegs s addr) address hr (by rw [hcore]; exact last)
  have hsend : sendRequest (.rd addr) s =
      clockBit (some b) (clockBits front (clockBits (bitsOfByte (headerOf false)) (openFrame s))) := by
    rw [sendRequest, encode_rd, bitsOfBytes_cons, hbits, clockBits_append, clockBits_append]
    rfl
  rw [hsend]
  simpa [frameBase] using stands

end Sys2Proof.Machine

namespace Sys2Proof.Machine

/-! The response of an answered request, byte by byte (45_response_encoder.md R105 to R108), and what it leaves. -/

/-- The value bits a response sends after the first are the field's in wire order. -/
theorem bitsOfBytes_bytesOfWord (w : Word) :
    bitsOfBytes (bytesOfWord w) = w.getLsbD 31 :: (List.range 31).map fun j => w.getLsbD (31 - 1 - j) := by
  refine List.ext_getElem? fun k => ?_
  rcases Nat.lt_or_ge k 32 with hk | hk
  · rw [getElem?_bitsOfBytes_bytesOfWord w hk]
    cases k with
    | zero => rfl
    | succ k =>
      have hk' : k < 31 := by omega
      simp [hk', show 31 - (k + 1) = 30 - k by omega]
  · rw [List.getElem?_eq_none (by simpa using hk), List.getElem?_eq_none (by simpa using hk)]

section
variable {s t : State} {r : Regs} {n : Nat} {rx : List (Option Bool)}

theorem clockReleased_succ (k : Nat) (u : State) : clockReleased (k + 1) u = clockReleased k (clockBit none u) := rfl

theorem respondsAt_rx (h : RespondsAt s r rx t) : t.host.rx = rx := by
  obtain ⟨m, d1, d2, p, -, rfl⟩ := h
  rfl

/-- R105: the bit in which a response starts is a zero, whatever follows. -/
theorem response_start (h : StalledAt s r n rx t) (hb : busCyc r = true) (hq : steady s.cfg r s.host.pins = true)
    (ha : answeredBefore s (n + 2) = true) (hc : r.cnt.toNat % 8 = 0) :
    RespondsAt (accessed s r)
      { waiting s r with
        proto := if r.isWrite then .writeWrResponse else .writeResponse, turned := true, dout := false
        cnt := r.cnt + 1#8 }
      (some false :: rx) (clockBit none t) := by
  have hfall : afterFall (waiting s r) =
      { waiting s r with
        turned := true, dout := false, proto := if r.isWrite then .writeWrResponse else .writeResponse } :=
    afterFall_wait rfl hc
  have hproto : (afterFall (waiting s r)).proto = .writeWrResponse ∨ (afterFall (waiting s r)).proto = .writeResponse := by
    rw [hfall]
    cases r.isWrite
    · exact .inr rfl
    · exact .inl rfl
  have hresponds : responds s.cfg (afterFall (waiting s r)) = true := by
    rcases hproto with hp | hp <;> simp [responds, hp]
  have start := stalled_start h hb hq ha hresponds
  rw [dataOutPin_responding (hproto.imp id .inl) (by rw [hfall]), hfall] at start
  exact start

/-- R106: a byte of a write's acknowledgement is 0x00, at which a waiting host stops. -/
theorem awaitResponse_ack (k : Nat) (h : StalledAt s r n rx t) (hp : r.proto = .busWrite) (hw : r.isWrite = true)
    (hq : steady s.cfg r s.host.pins = true) (ha : answeredBefore s (n + 2) = true) (hc : r.cnt.toNat % 8 = 0) :
    RespondsAt (accessed s r)
      { r with proto := .writeWrResponse, turned := true, dout := false, cnt := r.cnt + 8#8 }
      (((bitsOfBytes [0x00#8]).map some).reverse ++ rx) (awaitResponse (k + 1) t) := by
  have hb : busCyc r = true := by simp [busCyc, hp]
  have start := response_start h hb hq ha hc
  have hregs : ({ waiting s r with
        proto := if r.isWrite then .writeWrResponse else .writeResponse, turned := true, dout := false
        cnt := r.cnt + 1#8 } : Regs) =
      { r with proto := .writeWrResponse, turned := true, dout := false, cnt := r.cnt + 1#8 } := by
    simp [waiting, hp, hw]
  rw [hregs] at start
  have rest := ack_bits 7 start rfl rfl rfl hq (by simp only; bv_omega) (by simp only; bv_omega)
  have hcnt : r.cnt + 1#8 + BitVec.ofNat 8 7 = r.cnt + 8#8 := by bv_omega
  simp only [hcnt] at rest
  have byte : RespondsAt (accessed s r)
      { r with proto := .writeWrResponse, turned := true, dout := false, cnt := r.cnt + 8#8 }
      (((bitsOfByte 0x00#8).map some).reverse ++ rx) (clockReleased 8 t) := rest
  have hlast : lastByte (clockReleased 8 t) = 0x00#8 := lastByte_samples _ _ _ (respondsAt_rx byte)
  have hstop : awaitResponse (k + 1) t = clockReleased 8 t := by simp [awaitResponse, hlast]
  rw [hstop]
  exact byte

/-- R107: the read header, 0x01. -/
theorem response_header (h : StalledAt s r n rx t) (hp : r.proto = .busRead) (hw : r.isWrite = false)
    (hq : steady s.cfg r s.host.pins = true) (ha : answeredBefore s (n + 2) = true) (hc : r.cnt.toNat % 8 = 0) :
    RespondsAt (accessed s r)
      { r with proto := .writeResponse, value := latchedWord s r.address, turned := true, dout := true, cnt := r.cnt + 8#8 }
      (((bitsOfByte 0x01#8).map some).reverse ++ rx) (clockReleased 8 t) := by
  have hb : busCyc r = true := by simp [busCyc, hp]
  have start := response_start h hb hq ha hc
  have hregs : ({ waiting s r with
        proto := if r.isWrite then .writeWrResponse else .writeResponse, turned := true, dout := false
        cnt := r.cnt + 1#8 } : Regs) =
      { r with
        proto := .writeResponse, value := latchedWord s r.address, turned := true, dout := false, cnt := r.cnt + 1#8 } := by
    simp [waiting, hp, hw]
  rw [hregs] at start
  have hmod : ∀ k : Nat, k < 8 → (r.cnt + BitVec.ofNat 8 k).toNat % 8 = k := by
    intro k hk
    rw [BitVec.toNat_add, BitVec.toNat_ofNat]
    omega
  have hnext : ∀ k : Nat, r.cnt + BitVec.ofNat 8 k + 1#8 = r.cnt + BitVec.ofNat 8 (k + 1) := by
    intro k
    rw [BitVec.ofNat_add, BitVec.add_assoc]
  -- one bit of the header after the first, at any place in the byte
  have bit : ∀ (k : Nat) (d : Bool) (rx' : List (Option Bool)) (u : State), 0 < k → k < 8 →
      RespondsAt (accessed s r)
        { r with
          proto := .writeResponse, value := latchedWord s r.address, turned := true, dout := d
          cnt := r.cnt + BitVec.ofNat 8 k } rx' u →
      RespondsAt (accessed s r)
        { r with
          proto := .writeResponse, value := latchedWord s r.address, turned := true, dout := decide (k = 7)
          cnt := r.cnt + BitVec.ofNat 8 (k + 1) } (some (decide (k = 7)) :: rx') (clockBit none u) := by
    intro k d rx' u hk0 hk8 hu
    have hb' := header_bit hu rfl rfl hq (by simp only [hmod k hk8]; omega)
    simp only [hmod k hk8, hnext k] at hb'
    exact hb'
  exact bit 7 _ _ _ (by decide) (by decide) <| bit 6 _ _ _ (by decide) (by decide) <|
    bit 5 _ _ _ (by decide) (by decide) <| bit 4 _ _ _ (by decide) (by decide) <|
    bit 3 _ _ _ (by decide) (by decide) <| bit 2 _ _ _ (by decide) (by decide) <|
    bit 1 _ _ _ (by decide) (by decide) start

/-- R107, R108: a waiting host that reads the header 0x01 clocks the 32 bits of the latched word after it. -/
theorem awaitResponse_read (k : Nat) (h : StalledAt s r n rx t) (hp : r.proto = .busRead) (hw : r.isWrite = false)
    (hq : steady s.cfg r s.host.pins = true) (ha : answeredBefore s (n + 2) = true) (hc : r.cnt.toNat % 8 = 0) :
    RespondsAt (accessed s r)
      { r with
        proto := .writeValue, value := latchedWord s r.address, turned := true
        dout := (latchedWord s r.address).getLsbD 0, woff := 0#5, cnt := r.cnt + 40#8 }
      (((bitsOfBytes (0x01#8 :: bytesOfWord (latchedWord s r.address))).map some).reverse ++ rx)
      (awaitResponse (k + 1) t) := by
  have header := response_header h hp hw hq ha hc
  have hlast : lastByte (clockReleased 8 t) = 0x01#8 := lastByte_samples _ _ _ (respondsAt_rx header)
  have hvalue : awaitResponse (k + 1) t = clockReleased 32 (clockReleased 8 t) := by simp [awaitResponse, hlast]
  have first := first_value_bit header rfl rfl hq (by simp only; bv_omega)
  have rest := value_bits 31 first rfl rfl rfl hq (le_refl 31)
  have hcnt : r.cnt + 8#8 + 1#8 + BitVec.ofNat 8 31 = r.cnt + 40#8 := by bv_omega
  have hrx : ((bitsOfBytes (0x01#8 :: bytesOfWord (latchedWord s r.address))).map some).reverse ++ rx =
      ((List.range 31).map fun j => some ((latchedWord s r.address).getLsbD (31 - 1 - j))).reverse ++
        (some ((latchedWord s r.address).getLsbD 31) :: (((bitsOfByte 0x01#8).map some).reverse ++ rx)) := by
    rw [bitsOfBytes_cons, bitsOfBytes_bytesOfWord]
    simp [Function.comp_def]
  rw [hvalue, hrx, clockReleased_succ 31]
  simp only [hcnt] at rest
  exact rest

end

/-! A request with its fill bytes (45_response_encoder.md R111). -/

section
variable {s : State}

theorem steady_headerRegs (s : State) : steady s.cfg (headerRegs s) (frameBase s).host.pins = true := by
  cases hsel : s.cfg.hasFrameSelect <;> simp [steady, headerRegs, frameBase, hsel]

/-- `r` after `m` fill bytes: counted, and turned around at the first of them. -/
def filledRegs (r : Regs) (m : Nat) : Regs :=
  { r with cnt := r.cnt + BitVec.ofNat 8 (8 * m), turned := r.turned || decide (0 < m) }

/-- Before the fill bytes end, the answer is not in at the fall that could start the response. -/
theorem not_answeredBefore_fill {d j : Nat} (hd : s.target.current.delay = some d) (hj : j < fillBytes d) :
    answeredBefore s (1 + 64 * j + 2) = false := by
  unfold fillBytes at hj
  simp only [answeredBefore, hd, decide_eq_false_iff_not]
  omega

/-- After them it is. -/
theorem answeredBefore_response {d : Nat} (hd : s.target.current.delay = some d) :
    answeredBefore s (1 + 64 * fillBytes d + 2) = true := by
  have hin : d < 1 + 64 * fillBytes d + 2 := by unfold fillBytes; omega
  simp only [answeredBefore, hd, hin, decide_true]

theorem stalledAt_patience {t : State} {r : Regs} {n : Nat} {rx : List (Option Bool)} (h : StalledAt s r n rx t) :
    t.host.patience = s.host.patience := by
  obtain ⟨m, d1, d2, p, -, rfl⟩ := h
  rfl

/-- The host of an answered request skips the fill bytes and reaches the response with patience left. -/
theorem awaitResponse_answered {t : State} {r : Regs} {rx : List (Option Bool)} {d : Nat} (h : StalledAt s r 1 rx t)
    (hb : busCyc r = true) (hq : steady s.cfg r s.host.pins = true) (hdout : r.dout = true) (hc : r.cnt.toNat % 8 = 0)
    (ha : answersWithin s d) :
    ∃ k u, awaitResponse t.host.patience t = awaitResponse (k + 1) u ∧
      StalledAt s (filledRegs r (fillBytes d)) (1 + 64 * fillBytes d)
        (List.replicate (8 * fillBytes d) (some true) ++ rx) u := by
  obtain ⟨hd, hpatience⟩ := ha
  obtain ⟨k, hk⟩ : ∃ k, s.host.patience = fillBytes d + (k + 1) := ⟨s.host.patience - fillBytes d - 1, by omega⟩
  obtain ⟨u, hu, hs⟩ := awaitResponse_fill (k + 1) (fillBytes d) h hb hq hdout hc fun j hj => not_answeredBefore_fill hd hj
  exact ⟨k, u, by rw [stalledAt_patience h, hk, hu], hs⟩

theorem mod8_add_fill {c : BitVec 8} (m : Nat) (hc : c.toNat % 8 = 0) : (c + BitVec.ofNat 8 (8 * m)).toNat % 8 = 0 := by
  rw [BitVec.toNat_add, BitVec.toNat_ofNat]
  omega

/-- The registers of a write's acknowledgement, its last bit sent. -/
def ackedRegs (s : State) (addr val : Word) (n : Nat) : Regs :=
  { writeRegs s addr val with
    proto := .writeWrResponse, turned := true, dout := false, cnt := BitVec.ofNat 8 (80 + 8 * n) }

/-- The registers of a read's response, its last bit sent. -/
def sentRegs (s : State) (addr : Word) (n : Nat) : Regs :=
  { readRegs s addr with
    proto := .writeValue, value := latchedWord s addr, turned := true, dout := (latchedWord s addr).getLsbD 0
    cnt := BitVec.ofNat 8 (80 + 8 * n) }

/-- The samples of a whole frame, newest first. -/
theorem samples_reverse (cfg : Config) (quiet n : Nat) (bytes : List Byte) :
    (samples cfg quiet n bytes).reverse = ((bitsOfBytes bytes).map some).reverse ++
      (List.replicate (8 * n) (some true) ++ List.replicate quiet (idleSample cfg)) := by
  simp [samples]

/-- R84: a write answered at tick `d` has been acknowledged. -/
theorem respondsAt_wr (addr val : Word) {d : Nat} (h : readyForFrame s = true) (ha : answersWithin s d) :
    RespondsAt (accessed (frameBase s) (writeRegs s addr val)) (ackedRegs s addr val (fillBytes d))
      (samples s.cfg 72 (fillBytes d) [0x00#8]).reverse
      (awaitResponse (sendRequest (.wr addr val) s).host.patience (sendRequest (.wr addr val) s)) := by
  have hq : steady (frameBase s).cfg (writeRegs s addr val) (frameBase s).host.pins = true := steady_headerRegs s
  obtain ⟨k, u, hawait, hfill⟩ := awaitResponse_answered (sendRequest_wr addr val h) rfl hq rfl (by decide : (72#8).toNat % 8 = 0) ha
  have hack := awaitResponse_ack k hfill rfl rfl hq (answeredBefore_response ha.1)
    (mod8_add_fill _ (by decide : (72#8).toNat % 8 = 0))
  have hcnt : (filledRegs (writeRegs s addr val) (fillBytes d)).cnt + 8#8 = BitVec.ofNat 8 (80 + 8 * fillBytes d) := by
    simp only [filledRegs, writeRegs]; bv_omega
  rw [hcnt] at hack
  rw [hawait, samples_reverse]
  exact hack

/-- R85: a read answered at tick `d` has been sent its header and its word. -/
theorem respondsAt_rd (addr : Word) {d : Nat} (h : readyForFrame s = true) (ha : answersWithin s d) :
    RespondsAt (accessed (frameBase s) (readRegs s addr)) (sentRegs s addr (fillBytes d))
      (samples s.cfg 40 (fillBytes d) (0x01#8 :: bytesOfWord (latchedWord s addr))).reverse
      (awaitResponse (sendRequest (.rd addr) s).host.patience (sendRequest (.rd addr) s)) := by
  have hq : steady (frameBase s).cfg (readRegs s addr) (frameBase s).host.pins = true := steady_headerRegs s
  obtain ⟨k, u, hawait, hfill⟩ := awaitResponse_answered (sendRequest_rd addr h) rfl hq rfl (by decide : (40#8).toNat % 8 = 0) ha
  have hread := awaitResponse_read k hfill rfl rfl hq (answeredBefore_response ha.1)
    (mod8_add_fill _ (by decide : (40#8).toNat % 8 = 0))
  have hcnt : (filledRegs (readRegs s addr) (fillBytes d)).cnt + 40#8 = BitVec.ofNat 8 (80 + 8 * fillBytes d) := by
    simp only [filledRegs, readRegs]; bv_omega
  rw [hcnt] at hread
  rw [hawait, samples_reverse]
  exact hread

/-- The registers after a whole frame, END held or cleared, from those that END was entered with. -/
theorem coreAfter_of_end {t : State} {r held : Regs} {d1 d2 : Bool}
    (hr : r = { held with
      proto := .endFrame, csnS1 := (headerRegs s).csnS1, csnS2 := (headerRegs s).csnS2, window := s.core.window })
    (ht : t.core = { (if s.cfg.hasFrameSelect then r else frameClear s.cfg r) with
      clkS1 := false, clkS2 := false, clkPrev := false, dinS1 := d1, dinS2 := d2 }) : coreAfter s t held := by
  subst hr
  unfold coreAfter
  rw [ht]
  cases hsel : s.cfg.hasFrameSelect <;> simp [headerRegs, frameClear, Regs.reset, hsel]

theorem afterFall_ackedRegs (addr val : Word) (n : Nat) :
    afterFall (ackedRegs s addr val n) = { ackedRegs s addr val n with proto := .endFrame } := by
  have hc : (ackedRegs s addr val n).cnt.toNat % 8 = 0 := by
    simp only [ackedRegs, BitVec.toNat_ofNat]
    omega
  rw [afterFall_ack rfl, if_pos hc]
  rfl

theorem afterFall_sentRegs (addr : Word) (n : Nat) :
    afterFall (sentRegs s addr n) = { sentRegs s addr n with proto := .endFrame, dout := false } :=
  afterFall_valueDone rfl rfl

/-- A whole answered WR frame. -/
theorem answeredFrame_wr (addr val : Word) {d : Nat} (h : readyForFrame s = true) (ha : answersWithin s d) :
    WriteFrameDone s (answeredFrame (.wr addr val) s) addr val (fillBytes d) := by
  have hresponds := respondsAt_wr addr val h ha
  have hfall := afterFall_ackedRegs (s := s) addr val (fillBytes d)
  obtain ⟨m, d1, d2, hrest⟩ := restLow_response hresponds rfl (steady_headerRegs s) (by rw [hfall])
  have hframe : answeredFrame (.wr addr val) s = _ := hrest
  rw [hfall] at hframe
  have hmem : (answeredFrame (.wr addr val) s).target.mem = memoryAfterWrite s addr val := by rw [hframe]; rfl
  refine ⟨?registers, ?target, fun a hlane => ?bytes, ?samples, ?draws, ?events, ?environment⟩
  case registers => exact coreAfter_of_end rfl (congrArg State.core hframe)
  case target => rw [hframe]; rfl
  case bytes =>
    rw [hmem, memoryAfterWrite]
    split
    · exact readByte_writeWord_other _ _ hlane
    · rfl
  case samples => rw [hframe]; exact List.reverse_reverse _
  case draws => rw [hframe]; rfl
  case events => rw [hframe]; rfl
  case environment => rw [hframe]; exact ⟨rfl, rfl, ⟨m, rfl⟩, rfl, rfl, rfl⟩

/-- A whole answered RD frame. -/
theorem answeredFrame_rd (addr : Word) {d : Nat} (h : readyForFrame s = true) (ha : answersWithin s d) :
    ReadFrameDone s (answeredFrame (.rd addr) s) addr (fillBytes d) := by
  have hresponds := respondsAt_rd addr h ha
  have hfall := afterFall_sentRegs (s := s) addr (fillBytes d)
  obtain ⟨m, d1, d2, hrest⟩ := restLow_response hresponds rfl (steady_headerRegs s) (by rw [hfall])
  have hframe : answeredFrame (.rd addr) s = _ := hrest
  rw [hfall] at hframe
  refine ⟨?registers, ?target, ?samples, ?draws, ?events, ?environment⟩
  case registers => exact coreAfter_of_end rfl (congrArg State.core hframe)
  case target => rw [hframe]; rfl
  case samples => rw [hframe]; exact List.reverse_reverse _
  case draws => rw [hframe]; rfl
  case events => rw [hframe]; rfl
  case environment => rw [hframe]; exact ⟨rfl, rfl, ⟨m, rfl⟩, rfl, rfl, rfl⟩

end

theorem exec_wr (addr val : Word) (s : State) : exec (.wr addr val) s = .next (answeredFrame (.wr addr val) s) := rfl

theorem exec_rd (addr : Word) (s : State) : exec (.rd addr) s = .next (answeredFrame (.rd addr) s) := rfl

/-- Settles O45: request, fill bytes, acknowledgement, and END. -/
theorem writeFrameCompletes : Obligations.WriteFrameCompletes := by
  unfold Obligations.WriteFrameCompletes
  intro s addr val d h ha
  exact ⟨_, exec_wr addr val s, answeredFrame_wr addr val h ha⟩

/-- Settles O46: request, fill bytes, header and word, and END. -/
theorem readFrameCompletes : Obligations.ReadFrameCompletes := by
  unfold Obligations.ReadFrameCompletes
  intro s addr d h ha
  exact ⟨_, exec_rd addr s, answeredFrame_rd addr h ha⟩

end Sys2Proof.Machine

namespace Sys2Proof.Machine

/-! Bits in two-wire IDLE (41_wire_mode.md section 2): while no bit completes the sync byte, they only move the window. -/

/-- No front part of `bs` shifted into `window` leaves the sync byte there. -/
def neverSyncs (window : Byte) (bs : List Bool) : Prop :=
  ∀ j, 0 < j → j ≤ bs.length → (bs.take j).foldl shl1 window ≠ syncByte

theorem neverSyncs_cons {window : Byte} {b : Bool} {bs : List Bool} (h : neverSyncs window (b :: bs)) :
    shl1 window b ≠ syncByte ∧ neverSyncs (shl1 window b) bs := by
  refine ⟨by simpa using h 1 (by decide) (by simp), fun j _ hj => ?_⟩
  simpa using h (j + 1) (by omega) (by simpa using hj)

/-- A bit of two-wire IDLE that does not complete the sync byte. -/
theorem afterIdle_rise {r : Regs} {b : Bool} (h : shl1 r.window b ≠ syncByte) :
    afterIdle r true false b = { r with window := shl1 r.window b } := by
  simp [afterIdle, h]

/-- The bit that completes it. -/
theorem afterIdle_sync {r : Regs} {b : Bool} (h : shl1 r.window b = syncByte) :
    afterIdle r true false b = { r with window := syncByte, proto := .getHeader, command := 0#8, cnt := 0#8 } := by
  simp [afterIdle, h]

section
variable {s : State} {r : Regs}

/-- A row of such bits, from any settled clock level: the window has taken them all, and the stages, the pins and the samples
are those of the last. -/
theorem clockBits_idle (hsel : s.cfg.hasFrameSelect = false) (hr : r.proto = .idle) (hturned : r.turned = false) (b : Bool)
    (bs : List Bool) (c d1 d2 : Bool) (p : Pins) (hp : p.csn = s.host.pins.csn) (rx : List (Option Bool))
    (hno : neverSyncs r.window (b :: bs)) :
    clockBits (b :: bs) (responseStage s r c c c d1 d2 p rx) =
      responseStage (passed (8 * (bs.length + 1)) s) { r with window := (b :: bs).foldl shl1 r.window } true true true
        (bs.getLast?.getD b) (bs.getLast?.getD b) (highPins (bs.getLast?.getD b) s)
        (List.replicate (bs.length + 1) (idleSample s.cfg) ++ rx) := by
  induction bs generalizing s r b c d1 d2 p rx with
  | nil =>
    obtain ⟨hne, -⟩ := neverSyncs_cons hno
    rw [clockBits_cons, clockBits_nil, clockBit_idle hsel hr hturned c d1 d2 b p hp rx, afterIdle_rise hne]
    rfl
  | cons b' bs ih =>
    obtain ⟨hne, hno'⟩ := neverSyncs_cons hno
    rw [clockBits_cons, clockBit_idle hsel hr hturned c d1 d2 b p hp rx, afterIdle_rise hne,
      ih (s := passed 8 s) (r := { r with window := shl1 r.window b }) hsel hr hturned b' true b b (highPins b s) rfl _ hno',
      passed_passed, List.getLast?_cons, List.length_cons]
    have hticks : 8 + 8 * (bs.length + 1) = 8 * (bs.length + 1 + 1) := by omega
    have hrx : List.replicate (bs.length + 1) (idleSample s.cfg) ++ idleSample s.cfg :: rx =
        List.replicate (bs.length + 1 + 1) (idleSample s.cfg) ++ rx := by
      rw [List.replicate_succ' (n := bs.length + 1), List.append_assoc]
      rfl
    rw [hticks, passed_cfg, hrx]
    rfl

/-- The bit that completes the sync byte opens the frame. -/
theorem clockBit_idle_sync (hsel : s.cfg.hasFrameSelect = false) (hr : r.proto = .idle) (hturned : r.turned = false)
    {b : Bool} (hsync : shl1 r.window b = syncByte) (c d1 d2 : Bool) (p : Pins) (hp : p.csn = s.host.pins.csn)
    (rx : List (Option Bool)) :
    clockBit (some b) (responseStage s r c c c d1 d2 p rx) =
      responseStage (passed 8 s) { r with window := syncByte, proto := .getHeader, command := 0#8, cnt := 0#8 }
        true true true b b (highPins b s) (idleSample s.cfg :: rx) := by
  rw [clockBit_idle hsel hr hturned c d1 d2 b p hp rx, afterIdle_sync hsync]

/-- A bit does not see the age of a target without a request. -/
theorem clockBit_waited (hb : busCyc s.core = false) (data : Option Bool) (w : Nat) :
    clockBit data { s with target := { s.target with waited := w } } = clockBit data s := by
  simp only [clockBit, lowTicks, hold_succ, sysTick_waited false _ hb w]

theorem busCyc_idle (h : r.proto = .idle) : busCyc r = false := by simp [busCyc, h]

/-- The same from a state of two-wire IDLE at rest. -/
theorem clockBits_awaiting (hsel : s.cfg.hasFrameSelect = false) (hlow : clockLow s.core = true) (hr : s.core.proto = .idle)
    (hturned : s.core.turned = false) (b : Bool) (bs : List Bool) (hno : neverSyncs s.core.window (b :: bs)) :
    clockBits (b :: bs) s =
      responseStage (passed (8 * (bs.length + 1)) s) { s.core with window := (b :: bs).foldl shl1 s.core.window }
        true true true (bs.getLast?.getD b) (bs.getLast?.getD b) (highPins (bs.getLast?.getD b) s)
        (List.replicate (bs.length + 1) (idleSample s.cfg) ++ s.host.rx) := by
  rw [← clockBits_idle hsel hr hturned b bs false s.core.dinS1 s.core.dinS2 s.host.pins rfl s.host.rx hno, clockBits_cons,
    clockBits_cons]
  have hstage : responseStage s s.core false false false s.core.dinS1 s.core.dinS2 s.host.pins s.host.rx =
      { s with target := { s.target with waited := 0 } } := by
    simp only [clockLow, Bool.and_eq_true, Bool.not_eq_true'] at hlow
    obtain ⟨⟨h1, h2⟩, h3⟩ := hlow
    obtain ⟨cfg, ⟨⟩, target, host, board, draws, events⟩ := s
    simp_all [responseStage]
  rw [hstage]
  exact congrArg (clockBits bs) (clockBit_waited (busCyc_idle hr) (some b) 0).symm

end

/-- The last eight of at least eight bits shifted into the window stand in it. -/
theorem bits_of_foldl_eq {window y : Byte} {bs : List Bool} (hlen : 8 ≤ bs.length) (h : bs.foldl shl1 window = y) :
    bs = bs.take (bs.length - 8) ++ bitsOfByte y := by
  have hdrop : bitsOfByte y = bs.drop (bs.length - 8) := by
    rw [← bitsOfByte_foldl_shl1 ((bs.take (bs.length - 8)).foldl shl1 window) (bs := bs.drop (bs.length - 8)) (by simp; omega),
      ← List.foldl_append, List.take_append_drop, h]
  rw [hdrop, List.take_append_drop]

/-- From a clear window the sync byte needs its own eight bits in a row: fewer bits do not reach its highest bit. -/
theorem neverSyncs_of_no_infix {bs : List Bool} (h : ∀ pre post, bs ≠ pre ++ bitsOfByte syncByte ++ post) :
    neverSyncs 0#8 bs := by
  intro j _ hj hsync
  have hlen : (bs.take j).length = j := by simpa using hj
  rcases Nat.lt_or_ge j 8 with hshort | hlong
  · have htop : ((bs.take j).foldl shl1 0#8).getLsbD 7 = false := by
      rw [getLsbD_foldl_shl1, hlen, if_neg (by omega), BitVec.getLsbD_zero, Bool.and_false]
    rw [hsync] at htop
    exact absurd htop (by decide)
  · have hbits := bits_of_foldl_eq (by omega) hsync
    refine h ((bs.take j).take ((bs.take j).length - 8)) (bs.drop j) ?_
    rw [← hbits, List.take_append_drop]

/-- Settles O16: bits that never complete the sync byte move the window alone. -/
theorem noFrameWithoutSyncByte : Obligations.NoFrameWithoutSyncByte := by
  unfold Obligations.NoFrameWithoutSyncByte
  intro s bs hsel hlow hidle hinv hwindow hno
  have hturned : s.core.turned = false := (undriven_of_request hinv (.inl hidle)).1
  cases bs with
  | nil =>
    refine ⟨hidle, hinv, hwindow, ?_⟩
    simp only [clockLow, Bool.and_eq_true, Bool.not_eq_true'] at hlow
    obtain ⟨⟨h1, h2⟩, h3⟩ := hlow
    obtain ⟨cfg, ⟨⟩, target, host, board, draws, events⟩ := s
    simp_all
  | cons b bs =>
    have hsample : idleSample s.cfg = none := by
      have hshare : s.cfg.sharesDataLine = true := by
        cases hw : s.cfg.wires <;> simp_all [Config.hasFrameSelect, Config.sharesDataLine]
      exact adapterPin_shared _ hshare true
    have hclocked := clockBits_awaiting hsel hlow hidle hturned b bs (by rw [hwindow]; exact neverSyncs_of_no_infix hno)
    rw [hwindow, hsample] at hclocked
    simp only [hclocked]
    refine ⟨hidle, hinv, rfl, ?_⟩
    rw [List.getLast?_cons]
    rfl

/-! The sync byte (43_commands.md R87). -/

/-- The first seven bits of a sync byte complete no other: only its one-bit border could, and `w` excludes that. -/
theorem neverSyncs_sync : ∀ w : Byte, w.extractLsb' 0 7 ≠ 0x55#7 →
    neverSyncs w [true, false, true, false, true, false, true] := by
  have key : ∀ w : Byte, w.extractLsb' 0 7 ≠ 0x55#7 → ∀ j : Fin 8, 0 < j.val →
      ([true, false, true, false, true, false, true].take j.val).foldl shl1 w ≠ syncByte := by decide
  intro w hw j hj hlen
  exact key w hw ⟨j, Nat.lt_succ_of_le hlen⟩ hj

/-- R64, R75: the sync byte in two-wire IDLE opens the frame. -/
theorem silentFrame_sync {s : State} (h : awaitingSync s = true) : SyncDone s (silentFrame .sync s) := by
  simp only [awaitingSync, Bool.and_eq_true, Bool.not_eq_true', beq_iff_eq, bne_iff_ne] at h
  obtain ⟨⟨⟨⟨hsel, hlow⟩, hidle⟩, hinv⟩, hwindow⟩ := h
  obtain ⟨hcmd, haddr, hval, hwr, hcnt, hwoff, hturned, hdout⟩ := (frameInv_idle hidle).mp hinv
  have hopen : openFrame s = clearSamples s := by simp [openFrame, hsel]
  have hsend : sendRequest .sync s =
      clockBit (some true) (clockBits [true, false, true, false, true, false, true] (clearSamples s)) := by
    have hbits : bitsOfBytes (encode .sync) = [true, false, true, false, true, false, true] ++ [true] := by decide
    rw [sendRequest, hopen, hbits, clockBits_append, clockBits_cons true [], clockBits_nil]
  have hseven : clockBits [true, false, true, false, true, false, true] (clearSamples s) =
      responseStage (passed 56 (clearSamples s))
        { s.core with window := [true, false, true, false, true, false, true].foldl shl1 s.core.window }
        true true true true true (highPins true s) (List.replicate 7 (idleSample s.cfg)) :=
    clockBits_awaiting (s := clearSamples s) hsel hlow hidle hturned true [false, true, false, true, false, true]
      (neverSyncs_sync _ hwindow)
  have hfold : shl1 ([true, false, true, false, true, false, true].foldl shl1 s.core.window) true = syncByte :=
    foldl_shl1_bitsOfByte s.core.window syncByte
  have heighth := clockBit_idle_sync (s := passed 56 (clearSamples s))
    (r := { s.core with window := [true, false, true, false, true, false, true].foldl shl1 s.core.window }) hsel hidle hturned
    hfold true true true (highPins true s) rfl (List.replicate 7 (idleSample s.cfg))
  rw [passed_passed] at heighth
  have hclocked := (congrArg (clockBit (some true)) hseven).trans heighth
  have hframe := restLow_twoWire (s := passed 64 (clearSamples s))
    (r := { s.core with window := syncByte, proto := .getHeader, command := 0#8, cnt := 0#8 }) hsel (.inr rfl) hturned true true
    (highPins true s) rfl (List.replicate 8 (idleSample s.cfg))
  have hdone : silentFrame .sync s = _ := (congrArg restLow (hsend.trans hclocked)).trans hframe
  refine ⟨?registers, ?target, ?samples, ?draws, ?events, ?environment⟩
  case registers =>
    rw [hdone]
    simp [responseStage, Regs.reset, haddr, hval, hwr, hwoff, hturned, hdout]
  case target => rw [hdone]; rfl
  case samples => rw [hdone]; simp [responseStage, samples]
  case draws => rw [hdone]; rfl
  case events => rw [hdone]; rfl
  case environment =>
    rw [hdone, environmentKept, hsel]
    exact ⟨rfl, rfl, ⟨68, by simp [responseStage]⟩, rfl, rfl, rfl⟩

theorem exec_sync (s : State) : exec .sync s = .next (silentFrame .sync s) := rfl

/-- Settles O48. -/
theorem syncByteOpensFrame : Obligations.SyncByteOpensFrame := by
  unfold Obligations.SyncByteOpensFrame
  intro s h
  exact ⟨_, exec_sync s, silentFrame_sync h⟩

/-! Aborted frames (43_commands.md R86). -/

/-- A one-byte frame whose byte is neither 0x00 nor 0x01 at the header position is aborted. -/
theorem silentFrame_abort {s : State} {i : Instr} {h : Byte} (hready : readyForFrame s = true) (henc : encode i = [h])
    (h2 : 2 ≤ h.toNat) : AbortFrameDone s (silentFrame i s) h := by
  obtain ⟨front, b, hbits, hlen, hfold⟩ := bitsOfByte_split h
  have hseven := afterBits_header front (afterBits_openFrame hready) (requestRegs_headerRegs s) rfl
    (by simp [headerRegs, Regs.reset, hlen])
  rw [hlen] at hseven
  have hregs := core_of_afterBits hseven
  obtain ⟨m, d1, d2, hframe⟩ := restLow_abort (b := b) (h := h)
    (requestReady_of_afterBits hseven (requestRegs_headerRegs s)) (by rw [hregs]; rfl) (by rw [hregs]; rfl)
    (by rw [hregs]; exact hfold _) h2
  have hdone : silentFrame i s = restLow (clockBit (some b) (clockBits front (openFrame s))) := by
    rw [silentFrame, sendRequest, henc, bitsOfBytes_cons, bitsOfBytes_nil, List.append_nil, hbits, clockBits_append]
    rfl
  rw [← hdone] at hframe
  obtain ⟨m', c, e1, e2, w, p, hp, -, hu⟩ := hseven
  rw [hu] at hframe
  refine ⟨?registers, ?target, ?samples, ?draws, ?events, ?environment⟩
  case registers =>
    refine coreAfter_of_end (d1 := d1) (d2 := d2) rfl ?_
    rw [hframe]
    cases hsel : s.cfg.hasFrameSelect <;> simp [responseStage, abortedRegs, frameBase, headerRegs, frameClear, hsel]
  case target => rw [hframe]; rfl
  case samples =>
    rw [hframe]
    have hsample : dataOutPin s.cfg { headerRegs s with
        command := front.foldl shl1 (headerRegs s).command, cnt := (headerRegs s).cnt + BitVec.ofNat 8 7
        clkS1 := c, clkS2 := c, clkPrev := c, dinS1 := e1, dinS2 := e2 } = idleSample s.cfg :=
      dataOutPin_of_not_turned rfl
    simp only [responseStage, frameBase, hsample]
    simp [samples]
  case draws => rw [hframe]; rfl
  case events => rw [hframe]; rfl
  case environment =>
    rw [hframe]
    refine ⟨rfl, rfl, ⟨m' + m, by simp [responseStage, frameBase]⟩, rfl, rfl, ?_⟩
    simp [responseStage, releasedPins, hp, frameBase]

/-- Settles O47: each row's frame is its header byte. -/
theorem abortFrameCompletes : Obligations.AbortFrameCompletes := by
  unfold Obligations.AbortFrameCompletes
  intro s h hready h2 i hi
  have hrow : encode i = [h] ∧ exec i s = .next (silentFrame i s) := by
    simp only [List.mem_cons, List.not_mem_nil, or_false] at hi
    rcases hi with rfl | rfl | rfl | rfl | rfl | rfl | rfl <;> exact ⟨rfl, rfl⟩
  exact ⟨_, hrow.2, silentFrame_abort hready hrow.1 h2⟩

/-- Settles O49: at a link at rest the sync byte is a header like any other. -/
theorem syncByteIsAbortWithFrameSelect : Obligations.SyncByteIsAbortWithFrameSelect := by
  unfold Obligations.SyncByteIsAbortWithFrameSelect
  intro s h
  exact ⟨_, exec_sync s, silentFrame_abort (by rw [readyForFrame, h]; rfl) rfl (by decide)⟩

end Sys2Proof.Machine

namespace Sys2Proof.Machine

/-! A frame that is never answered (60_exceptions.md R119). -/

theorem hold_eq_foldl (n : Nat) (p : Pins) (s : State) :
    hold n p s = (List.replicate n p).foldl (fun u q => sysTick false q u) s := by
  induction n generalizing s with
  | zero => rfl
  | succ n ih => rw [hold_succ, ih]; rfl

/-- With its clock low the host takes no sample. -/
theorem hold_low_rx (n : Nat) {p : Pins} (hp : p.sclk = false) (s : State) : (hold n p s).host.rx = s.host.rx := by
  induction n generalizing s with
  | zero => rfl
  | succ n ih => rw [hold_succ, ih, sysTick_host, hostTick_rx, hp]; rfl

theorem not_answeredBefore_of_never {s : State} (hd : s.target.current.delay = none) (n : Nat) :
    answeredBefore s n = false := by simp [answeredBefore, hd]

/-- A request that is never answered and stands `n` ticks is as it came up, the edges apart. -/
theorem busStage_never {s : State} {r : Regs} (hd : s.target.current.delay = none) (n : Nat) (c1 c2 c3 d1 d2 : Bool)
    (p : Pins) (rx : List (Option Bool)) :
    busStage s r n c1 c2 c3 d1 d2 p rx =
      { s with
        core := { r with clkS1 := c1, clkS2 := c2, clkPrev := c3, dinS1 := d1, dinS2 := d2 }
        target := { s.target with waited := n }
        host := { s.host with pins := p, rx := rx }
        board := s.board.advance n } := by
  simp only [busStage, busRegs, busTarget, not_answeredBefore_of_never hd]
  rfl

/-- The host that waits for a response that never comes clocks fill bytes as long as its patience lasts, and its clock's way
back to the low level changes nothing of the request either. -/
theorem stalled_never {s t : State} {r : Regs} {rx : List (Option Bool)} (h : StalledAt s r 1 rx t) (hb : busCyc r = true)
    (hq : steady s.cfg r s.host.pins = true) (hdout : r.dout = true) (hc : r.cnt.toNat % 8 = 0)
    (hd : s.target.current.delay = none) :
    let u := restLow (awaitResponse t.host.patience t)
    busOut u.core = busOut r ∧ u.core.proto = r.proto ∧ u.target.mem = s.target.mem ∧
      u.host.rx = List.replicate (8 * s.host.patience) (some true) ++ rx ∧ u.events = s.events := by
  obtain ⟨v, hv, m, d1, d2, p, hp, hstage⟩ := awaitResponse_fill 0 s.host.patience h hb hq hdout hc
    fun j _ => not_answeredBefore_of_never hd _
  have hawait : awaitResponse t.host.patience t = v := by rw [stalledAt_patience h]; exact hv
  rw [busStage_never (s := passed m s) hd] at hstage
  have hselect : selectSeen v := by
    intro hsel
    rw [hstage] at hsel ⊢
    have hsel' : s.cfg.hasFrameSelect = true := hsel
    simp only [steady, hsel', Bool.not_true, Bool.false_or, Bool.and_eq_true, Bool.not_eq_true'] at hq
    obtain ⟨⟨-, h1⟩, h2⟩ := hq
    exact ⟨h1, h2⟩
  have hpins : v.cfg.hasFrameSelect = true → ∀ q ∈ List.replicate lowTicks (⟨false, v.host.pins.csn, none⟩ : Pins),
      q.csn = false := by
    intro hsel q hmem
    rw [List.eq_of_mem_replicate hmem, hstage]
    have hsel' : s.cfg.hasFrameSelect = true := by rw [hstage] at hsel; exact hsel
    simp only [steady, hsel', Bool.not_true, Bool.false_or, Bool.and_eq_true, Bool.not_eq_true'] at hq
    obtain ⟨⟨hcsn, -⟩, -⟩ := hq
    exact hp.trans hcsn
  have hstands : RequestStands v (restLow v) := by
    rw [restLow, hold_eq_foldl]
    exact ticks_requestStands _ (by rw [hstage]; exact hb) (by rw [hstage]; exact hd) hselect hpins
  have hrx : (restLow v).host.rx = v.host.rx := hold_low_rx lowTicks rfl v
  rw [hawait]
  refine ⟨?outputs, ?proto, ?mem, ?samples, ?events⟩
  case outputs => rw [hstands.outputs, hstage]; rfl
  case proto => rw [hstands.proto, hstage]
  case mem => rw [hstands.mem, hstage]; rfl
  case samples => rw [hrx, hstage]
  case events => rw [hstands.events, hstage]; rfl

/-- The samples of such a frame, in wire order. -/
theorem reverse_fill (cfg : Config) (quiet n : Nat) :
    (List.replicate (8 * n) (some true) ++ List.replicate quiet (idleSample cfg)).reverse = samples cfg quiet n [] := by
  simp [samples]

/-- Settles O50: the request of either frame stands through the host's fill bytes and its way back to rest. -/
theorem unansweredFrameReadsOnes : Obligations.UnansweredFrameReadsOnes := by
  unfold Obligations.UnansweredFrameReadsOnes
  intro s addr val h hd
  refine ⟨⟨_, exec_wr addr val s, ?_⟩, ⟨_, exec_rd addr s, ?_⟩⟩
  · obtain ⟨hout, hproto, hmem, hrx, hevents⟩ := stalled_never (sendRequest_wr addr val h) rfl (steady_headerRegs s) rfl
      (by decide : (72#8).toNat % 8 = 0) hd
    refine ⟨hproto, hout, hmem, ?_, hevents⟩
    rw [answeredFrame, hrx]
    exact reverse_fill s.cfg 72 s.host.patience
  · obtain ⟨hout, hproto, hmem, hrx, hevents⟩ := stalled_never (sendRequest_rd addr h) rfl (steady_headerRegs s) rfl
      (by decide : (40#8).toNat % 8 = 0) hd
    refine ⟨hproto, hout, hmem, ?_, hevents⟩
    rw [answeredFrame, hrx]
    exact reverse_fill s.cfg 40 s.host.patience

/-! A write and then a read (20_memory.md R40). -/

/-- Where a whole frame leaves the system: with a frame-select line at rest in END. -/
theorem linkAtRest_of_coreAfter {s t : State} {held : Regs} (hcore : coreAfter s t held) (hcfg : t.cfg = s.cfg)
    (hsel : s.cfg.hasFrameSelect = true) : linkAtRest t = true := by
  rw [coreAfter, if_pos hsel] at hcore
  rw [linkAtRest, hcfg, hsel, hcore]
  rfl

/-- In two-wire mode it waits for the next sync byte, the window clear. -/
theorem awaitingSync_of_coreAfter {s t : State} {held : Regs} (hcore : coreAfter s t held) (hcfg : t.cfg = s.cfg)
    (hsel : s.cfg.hasFrameSelect = false) : awaitingSync t = true := by
  rw [coreAfter, if_neg (by simp [hsel])] at hcore
  rw [awaitingSync, hcfg, hsel, hcore]
  rfl

/-- A sync byte leaves a frame open. -/
theorem frameOpen_of_syncDone {s t : State} (h : SyncDone s t) (hsel : s.cfg.hasFrameSelect = false) :
    frameOpen t = true := by
  obtain ⟨hcore, -, -, -, -, hcfg, -⟩ := h
  rw [frameOpen, hcfg, hsel, hcore]
  rfl

/-- After a whole answered write the link is ready for the next frame, in two-wire mode after a sync byte; the target and the
host's patience are as the write left them. -/
theorem ready_after_write {s t : State} {addr val : Word} {n : Nat} (h : WriteFrameDone s t addr val n) :
    ∃ u, (if s.cfg.hasFrameSelect then u = t else exec .sync t = .next u) ∧ readyForFrame u = true ∧ u.cfg = s.cfg ∧
      u.target.mem = t.target.mem ∧ u.target.plan = t.target.plan ∧ u.host.patience = s.host.patience := by
  obtain ⟨hcore, -, -, -, -, -, hcfg, -, -, hpatience, -⟩ := h
  cases hsel : s.cfg.hasFrameSelect with
  | true =>
    have hrest := linkAtRest_of_coreAfter hcore hcfg hsel
    exact ⟨t, rfl, by rw [readyForFrame, hrest]; rfl, hcfg, rfl, rfl, hpatience⟩
  | false =>
    have hsync := silentFrame_sync (awaitingSync_of_coreAfter hcore hcfg hsel)
    have hopen := frameOpen_of_syncDone hsync (by rw [hcfg]; exact hsel)
    obtain ⟨-, htarget, -, -, -, hcfg', -, -, hpatience', -⟩ := hsync
    exact ⟨silentFrame .sync t, exec_sync t, by rw [readyForFrame, hopen, Bool.or_true], hcfg'.trans hcfg,
      by rw [htarget], by rw [htarget], hpatience'.trans hpatience⟩

/-- Settles O51: the write puts the word where the read then finds it. -/
theorem writeThenReadReturnsValue : Obligations.WriteThenReadReturnsValue := by
  unfold Obligations.WriteThenReadReturnsValue
  intro s addr val d d' rest hready hplan hwf hd hd'
  have hwrite := answeredFrame_wr addr val hready ⟨by rw [Target.current, hplan]; rfl, hd⟩
  obtain ⟨u, hnext, hready', hcfg, hmem, hplan', hpatience⟩ := ready_after_write hwrite
  obtain ⟨-, htarget, -⟩ := hwrite
  have hsecond : u.target.current = ⟨some d', .ack, none, none⟩ := by
    rw [Target.current, hplan', htarget, hplan]
    rfl
  have hread := answeredFrame_rd addr hready' ⟨by rw [hsecond], by rw [hpatience]; exact hd'⟩
  obtain ⟨-, -, hrx, -⟩ := hread
  have hword : latchedWord u addr = val := by
    have hperformed : memoryAfterWrite s addr val = writeWord s.target.mem (wordAddress addr) val := by
      rw [memoryAfterWrite, writePerformed, Target.current, hplan]
      rfl
    rw [latchedWord, hsecond, hmem, htarget, hperformed]
    exact readWord_writeWord_same _ _ hwf
  refine ⟨_, u, _, exec_wr addr val s, hnext, exec_rd addr u, ?_⟩
  rw [hrx, hword, hcfg]

end Sys2Proof.Machine

namespace Sys2Proof.Machine

/-! What the data stages hold after an answered frame, and from it that the host cannot tell `err` from `ack`
(45_response_encoder.md R100, 60_exceptions.md R117). -/

theorem hold_board (n : Nat) (p : Pins) (s : State) : (hold n p s).board = s.board.advance n := by
  induction n generalizing s with
  | zero => rfl
  | succ n ih => rw [hold_succ, ih, sysTick_board, Board.advance_advance, Nat.add_comm]

theorem hold_pins (n : Nat) (p : Pins) (s : State) : (hold (n + 1) p s).host.pins = p := by
  induction n generalizing s with
  | zero => rfl
  | succ n ih => exact ih (sysTick false p s)

/-- Ticks with the clock held high take one sample at its rise, or none. -/
theorem hold_high_rx_length (n : Nat) {p : Pins} (hp : p.sclk = true) (s : State) :
    (hold (n + 1) p s).host.rx.length = s.host.rx.length + if s.host.pins.sclk then 0 else 1 := by
  induction n generalizing s with
  | zero => cases hs : s.host.pins.sclk <;> simp [hold_succ, hp, hs]
  | succ n ih =>
    rw [hold_succ, ih]
    cases hs : s.host.pins.sclk <;> simp [hp, hs]

/-- A bit is eight ticks and one sample. -/
theorem clockBit_ticks (data : Option Bool) (s : State) :
    (clockBit data s).board = s.board.advance 8 ∧ (clockBit data s).host.rx.length = s.host.rx.length + 1 := by
  refine ⟨?_, ?_⟩
  · rw [clockBit, hold_board, hold_board, Board.advance_advance]
    rfl
  · rw [clockBit, show highTicks = 3 + 1 from rfl, hold_high_rx_length 3 rfl, hold_low_rx lowTicks rfl,
      show lowTicks = 3 + 1 from rfl, hold_pins]
    rfl

/-- The board has moved on from `b` by the eight ticks of each sample taken. -/
def ticksMatchSamples (b : Board) (s : State) : Prop := s.board = b.advance (8 * s.host.rx.length)

section
variable {b : Board} {s : State}

theorem ticksMatchSamples_clockBit (data : Option Bool) (h : ticksMatchSamples b s) :
    ticksMatchSamples b (clockBit data s) := by
  obtain ⟨hboard, hlen⟩ := clockBit_ticks data s
  unfold ticksMatchSamples at *
  rw [hboard, hlen, h, Board.advance_advance, Nat.mul_succ]

theorem ticksMatchSamples_clockBits (bs : List Bool) (h : ticksMatchSamples b s) :
    ticksMatchSamples b (clockBits bs s) := by
  induction bs generalizing s with
  | nil => exact h
  | cons x bs ih => exact ih (ticksMatchSamples_clockBit (some x) h)

theorem ticksMatchSamples_clockReleased (n : Nat) (h : ticksMatchSamples b s) :
    ticksMatchSamples b (clockReleased n s) := by
  induction n generalizing s with
  | zero => exact h
  | succ n ih => exact ih (ticksMatchSamples_clockBit none h)

theorem ticksMatchSamples_awaitResponse (n : Nat) (h : ticksMatchSamples b s) :
    ticksMatchSamples b (awaitResponse n s) := by
  induction n generalizing s with
  | zero => exact h
  | succ n ih =>
    have h8 := ticksMatchSamples_clockReleased 8 h
    simp only [awaitResponse]
    split_ifs
    · exact ih h8
    · exact ticksMatchSamples_clockReleased 32 h8
    · exact h8

/-- A frame begins with no sample taken. -/
theorem ticksMatchSamples_openFrame (s : State) : ticksMatchSamples (openFrame s).board (openFrame s) := rfl

theorem openFrame_board (s : State) :
    (openFrame s).board = if s.cfg.hasFrameSelect then s.board.advance (releaseTicks + selectTicks) else s.board := by
  unfold openFrame
  split
  · rw [clearSamples_board, hold_board, releaseSelect, hold_board, Board.advance_advance]
  · rfl

/-- The second data stage takes the first, and the first what the line shows. -/
theorem sysTick_data_stages (p : Pins) (s : State) :
    (sysTick false p s).core.dinS1 = dataInPin s.cfg s.core p.data s.board.level ∧
      (sysTick false p s).core.dinS2 = s.core.dinS1 := by
  have h := coreTick_sameStages (cfg := s.cfg) (r := s.core) (inputsOf_rst false p s)
  exact ⟨h.dinS1, h.dinS2⟩

end

/-- The last four ticks of an answered frame: the line still driven at the fall, and undriven in END. -/
theorem restLow_data_stages {s x : State} {r : Regs} {rx : List (Option Bool)} (h : RespondsAt s r rx x)
    (hr : responds s.cfg r = true) (hq : steady s.cfg r s.host.pins = true) (hend : (afterFall r).proto = .endFrame) :
    (restLow x).core.dinS1 = (x.board.advance 3).level ∧
      (restLow x).core.dinS2 = dataInPin s.cfg r none (x.board.advance 2).level := by
  obtain ⟨m, d1, d2, p, hp, hx⟩ := h
  obtain ⟨a1, a2, htwo⟩ := response_toFall m (d1 := d1) (d2 := d2) (p := p) (rx := rx) hr hq
  obtain ⟨x3, hfall⟩ := response_tick (m + 2) false r false false true a1 a2 (releasedPins false s) rx hr hq
  rw [← hx] at htwo
  have hpins : ({ sclk := false, csn := x.host.pins.csn, data := none } : Pins) = releasedPins false s := by
    rw [hx]; simp [responseStage, releasedPins, hp]
  have hboard : ∀ k, x.board.advance k = s.board.advance (m + k) := fun k => by
    rw [hx]; simp [responseStage]
  have hrest : restLow x = sysTick false (releasedPins false s) (sysTick false (releasedPins false s)
      (responseStage (passed (m + 2) s) r false false true a1 a2 (releasedPins false s) rx)) := by
    rw [restLow, hpins, show lowTicks = 2 + 2 from rfl, hold_add, htwo]
    rfl
  have hundriven : oe (sysTick false (releasedPins false s)
      (responseStage (passed (m + 2) s) r false false true a1 a2 (releasedPins false s) rx)).core = false := by
    rw [hfall]; exact oe_end hend
  obtain ⟨hlast1, hlast2⟩ := sysTick_data_stages (releasedPins false s) (sysTick false (releasedPins false s)
    (responseStage (passed (m + 2) s) r false false true a1 a2 (releasedPins false s) rx))
  obtain ⟨hbefore, -⟩ := sysTick_data_stages (releasedPins false s)
    (responseStage (passed (m + 2) s) r false false true a1 a2 (releasedPins false s) rx)
  rw [hrest, hlast1, hlast2, hbefore, dataInPin_undriven (.inr hundriven), hboard, hboard]
  refine ⟨?_, rfl⟩
  rw [sysTick_board]
  simp [responseStage, releasedPins, Nat.add_assoc]

/-- The data stages after an answered frame, from the tick count that the samples give. -/
theorem answeredFrame_data_stages {s base : State} {i : Instr} {r : Regs} {rx : List (Option Bool)}
    (h : RespondsAt base r rx (awaitResponse (sendRequest i s).host.patience (sendRequest i s)))
    (hr : responds base.cfg r = true) (hq : steady base.cfg r base.host.pins = true)
    (hend : (afterFall r).proto = .endFrame) :
    (answeredFrame i s).core.dinS1 = ((openFrame s).board.advance (8 * rx.length + 3)).level ∧
      (answeredFrame i s).core.dinS2 =
        dataInPin base.cfg r none ((openFrame s).board.advance (8 * rx.length + 2)).level := by
  have hticks := ticksMatchSamples_awaitResponse (sendRequest i s).host.patience
    (ticksMatchSamples_clockBits (bitsOfBytes (encode i)) (ticksMatchSamples_openFrame s))
  have hboard : (awaitResponse (sendRequest i s).host.patience (sendRequest i s)).board =
      (openFrame s).board.advance (8 * rx.length) := by
    rw [← respondsAt_rx h]; exact hticks
  have hstages := restLow_data_stages h hr hq hend
  rw [hboard, Board.advance_advance, Board.advance_advance] at hstages
  exact hstages

/-- The registers after a frame are the same when what END holds and the data stages are. -/
theorem core_eq_of_coreAfter {s s' t t' : State} {held : Regs} (h : coreAfter s t held) (h' : coreAfter s' t' held)
    (hcfg : s'.cfg = s.cfg) (hcore : s'.core = s.core) {d1 d2 : Bool} (hd : t.core.dinS1 = d1 ∧ t.core.dinS2 = d2)
    (hd' : t'.core.dinS1 = d1 ∧ t'.core.dinS2 = d2) : t.core = t'.core := by
  unfold coreAfter at h h'
  rw [hd.1, hd.2] at h
  rw [hcfg, hcore, hd'.1, hd'.2] at h'
  exact h.trans h'.symm

/-- `s` with a target that answers its next request at tick `d` with these lines and this word. -/
def answeringWith (s : State) (d : Nat) (w : Word) (rest : List Answer) (kind : AnswerKind) : State :=
  { s with target := { s.target with plan := ⟨some d, kind, some w, none⟩ :: rest } }

section
variable {s : State} {d : Nat} (addr val w : Word) (rest : List Answer) (k k' : AnswerKind)

/-- A WR frame gives the same samples and registers whichever line completes it. -/
theorem answeredFrame_wr_hides_kind (hready : readyForFrame s = true) (hd : fillBytes d < s.host.patience) :
    (answeredFrame (.wr addr val) (answeringWith s d w rest k)).host.rx =
        (answeredFrame (.wr addr val) (answeringWith s d w rest k')).host.rx ∧
      (answeredFrame (.wr addr val) (answeringWith s d w rest k)).core =
        (answeredFrame (.wr addr val) (answeringWith s d w rest k')).core := by
  have ha : ∀ kind, answersWithin (answeringWith s d w rest kind) d := fun _ => ⟨rfl, hd⟩
  have done := fun kind => answeredFrame_wr addr val (s := answeringWith s d w rest kind) hready (ha kind)
  have stages := fun kind => answeredFrame_data_stages (respondsAt_wr addr val (s := answeringWith s d w rest kind) hready
    (ha kind)) rfl (steady_headerRegs (answeringWith s d w rest kind)) (by rw [afterFall_ackedRegs])
  simp only [openFrame_board] at stages
  obtain ⟨hcore, -, -, hrx, -⟩ := done k
  obtain ⟨hcore', -, -, hrx', -⟩ := done k'
  exact ⟨List.reverse_injective (hrx.trans hrx'.symm), core_eq_of_coreAfter hcore hcore' rfl rfl (stages k) (stages k')⟩

/-- An RD frame likewise: the planned word is latched with either line. -/
theorem answeredFrame_rd_hides_kind (hready : readyForFrame s = true) (hd : fillBytes d < s.host.patience) :
    (answeredFrame (.rd addr) (answeringWith s d w rest k)).host.rx =
        (answeredFrame (.rd addr) (answeringWith s d w rest k')).host.rx ∧
      (answeredFrame (.rd addr) (answeringWith s d w rest k)).core =
        (answeredFrame (.rd addr) (answeringWith s d w rest k')).core := by
  have ha : ∀ kind, answersWithin (answeringWith s d w rest kind) d := fun _ => ⟨rfl, hd⟩
  have done := fun kind => answeredFrame_rd addr (s := answeringWith s d w rest kind) hready (ha kind)
  have stages := fun kind => answeredFrame_data_stages (respondsAt_rd addr (s := answeringWith s d w rest kind) hready
    (ha kind)) rfl (steady_headerRegs (answeringWith s d w rest kind)) (by rw [afterFall_sentRegs])
  simp only [openFrame_board] at stages
  obtain ⟨hcore, -, hrx, -⟩ := done k
  obtain ⟨hcore', -, hrx', -⟩ := done k'
  exact ⟨List.reverse_injective (hrx.trans hrx'.symm), core_eq_of_coreAfter hcore hcore' rfl rfl (stages k) (stages k')⟩

end

/-- Settles O52: both frames end with the same samples and registers, from the same ticks. -/
theorem responseHidesBusError : Obligations.ResponseHidesBusError := by
  unfold Obligations.ResponseHidesBusError
  intro s addr val w d k k' rest hready hd
  obtain ⟨hrx, hcore⟩ := answeredFrame_wr_hides_kind addr val w rest k k' hready hd
  obtain ⟨hrx', hcore'⟩ := answeredFrame_rd_hides_kind addr w rest k k' hready hd
  exact ⟨⟨_, _, exec_wr addr val (answeringWith s d w rest k), exec_wr addr val (answeringWith s d w rest k'), hrx, hcore⟩,
    ⟨_, _, exec_rd addr (answeringWith s d w rest k), exec_rd addr (answeringWith s d w rest k'), hrx', hcore'⟩⟩

end Sys2Proof.Machine

namespace Sys2Proof.Machine

/-! The host's release of frame-select from any protocol state (42_protocol_fsm.md R73, R83, 60_exceptions.md R120). Its pins
reach the core two ticks later; until then the core runs on without an edge. -/

section
variable {s t u : State}

theorem noEdges_of_clockLow {r : Regs} (h : clockLow r = true) : rise r = false ∧ fall r = false := by
  simp only [clockLow, Bool.and_eq_true, Bool.not_eq_true'] at h
  obtain ⟨⟨-, h2⟩, h3⟩ := h
  simp [rise, fall, sclk, h2, h3]

/-- What every tick of the release does to the synchronizers, and what it leaves: the clock stays low, the level at the pin
goes through the stages, the window and the construction parameters are kept, the host holds its pins. -/
theorem sysTick_startPins (q : Bool) (hsel : s.cfg.hasFrameSelect = true) (hlow : clockLow s.core = true) :
    clockLow (sysTick false (startPins q) s).core = true ∧ (sysTick false (startPins q) s).core.csnS1 = q ∧
      (sysTick false (startPins q) s).core.csnS2 = s.core.csnS1 ∧
      (sysTick false (startPins q) s).core.window = s.core.window ∧
      (sysTick false (startPins q) s).host = { s.host with pins := startPins q } := by
  have h := coreTick_sameStages (cfg := s.cfg) (r := s.core) (inputsOf_rst false (startPins q) s)
  simp only [clockLow, Bool.and_eq_true, Bool.not_eq_true'] at hlow ⊢
  obtain ⟨⟨h1, h2⟩, -⟩ := hlow
  refine ⟨⟨⟨h.clkS1, h.clkS2.trans h1⟩, h.clkPrev.trans h2⟩, h.csnS1.trans (if_pos hsel), h.csnS2.trans (if_pos hsel),
    coreTick_window_frameSelect hsel _ _, ?_⟩
  have hfight : lineFight s.cfg s.core (startPins q).data = false := lineFight_none (.inl rfl)
  rw [sysTick_host, hostTick, hfight, Bool.or_false]
  rfl

/-! The three things such a tick can do to a core that still sees frame-select asserted. -/

/-- `t` follows `s` by ticks in which no request stood: the target forgets an age, and IDLE has started a frame. -/
structure NoRequest (s t : State) : Prop where
  quiet : busCyc t.core = false
  proto : t.core.proto = if s.core.proto = .idle then .getHeader else s.core.proto
  target : t.target = { s.target with waited := 0 }
  draws : t.draws = s.draws
  events : t.events = s.events

/-- `t` follows `s` by the tick that answers the request of `s`. -/
structure Answered (s t : State) : Prop where
  proto : t.core.proto = .waitByteBoundary
  target : t.target =
    { mem := if writePerformed s && busWe s.core then writeWord s.target.mem (wordAddress s.core.address) s.core.value
        else s.target.mem
      plan := s.target.plan.tail, waited := 0 }
  draws : t.draws = s.draws + 1
  events : t.events = answerEvents s ++ s.events

/-- Without an edge, an active core outside the bus states only starts a frame. -/
theorem coreTick_proto_quiet {cfg : Config} {r : Regs} {i : Inputs} (hsel : cfg.hasFrameSelect = true)
    (hrst : i.rst = false) (hf : frameReset cfg r = false) (hlow : clockLow r = true) (hb : busCyc r = false) :
    (coreTick cfg r i).proto = if r.proto = .idle then .getHeader else r.proto := by
  obtain ⟨hrise, hfall⟩ := noEdges_of_clockLow hlow
  by_cases hidle : r.proto = .idle
  · rw [if_pos hidle, coreTick_idle_selected hsel hrst hf hidle]
    rfl
  · rw [if_neg hidle]
    rcases proto_cases cfg r with h | h | h | h | ⟨-, h⟩
    · exact absurd h hidle
    · rw [coreTick_request_noRise hrst hf h hrise, recover_proto]
    · rw [coreTick_stall hrst hf h (fun _ e => by simp [hfall] at e), hb]
      rfl
    · rw [coreTick_response_edge hrst hf h, hfall]
      rfl
    · simp [hsel] at h

/-- Without an edge, an active core outside the bus states raises nothing. -/
theorem raisedEvents_quiet {cfg : Config} {r : Regs} {i : Inputs} (hsel : cfg.hasFrameSelect = true)
    (hrst : i.rst = false) (hf : frameReset cfg r = false) (hlow : clockLow r = true) (hb : busCyc r = false) :
    raisedEvents cfg r i = [] := by
  obtain ⟨hrise, -⟩ := noEdges_of_clockLow hlow
  rcases proto_cases cfg r with h | h | h | h | ⟨-, h⟩
  · exact raisedEvents_idle hrst h
  · exact raisedEvents_request_noRise hrst hf h hrise
  · rw [raisedEvents_stall hrst hf h, hb]
    rfl
  · exact raisedEvents_response hrst hf h
  · simp [hsel] at h

theorem sysTick_noRequest (p : Pins) (hsel : s.cfg.hasFrameSelect = true) (hlow : clockLow s.core = true)
    (hf : frameReset s.cfg s.core = false) (hb : busCyc s.core = false) : NoRequest s (sysTick false p s) := by
  have hproto := coreTick_proto_quiet (i := inputsOf false p s) hsel rfl hf hlow hb
  constructor
  case quiet =>
    simp only [busCyc, Bool.or_eq_false_iff, beq_eq_false_iff_ne] at hb ⊢
    rw [sysTick_core, hproto]
    split_ifs
    · exact ⟨by decide, by decide⟩
    · exact hb
  case proto => exact hproto
  case target => exact target_tick_idle _ hb
  case draws => simp [Target.ends, hb]
  case events => rw [sysTick_events, raisedEvents_quiet hsel rfl hf hlow hb]; rfl

theorem NoRequest.trans (h : NoRequest s t) (h' : NoRequest t u) : NoRequest s u where
  quiet := h'.quiet
  proto := by
    rw [h'.proto, h.proto]
    split_ifs <;> rfl
  target := by rw [h'.target, h.target]
  draws := h'.draws.trans h.draws
  events := h'.events.trans h.events

theorem sysTick_answered (p : Pins) (hb : busCyc s.core = true) (hf : frameReset s.cfg s.core = false)
    (ha : s.target.answers s.core = true) : Answered s (sysTick false p s) := by
  have hdone : ((inputsOf false p s).busAck || (inputsOf false p s).busErr) = true :=
    (target_completes s.target s.core).trans ha
  have hcut : cutsShort false s = false := hf
  constructor
  case proto =>
    rw [sysTick_core, coreTick_bus rfl hf hb]
    exact if_pos hdone
  case target =>
    rw [sysTick_target, hcut, target_tick_answer hb ha]
    rfl
  case draws => simp [Target.ends, hb, ha]
  case events =>
    have herr : (inputsOf false p s).busErr = (s.target.current.kind != .ack) := by
      rw [inputsOf_busErr, Target.err, ha, Bool.true_and]
    rw [sysTick_events, raisedEvents_bus rfl hf hb, herr, answerEvents]
    cases s.target.current.kind <;> rfl

theorem RequestStands.busCyc_eq (h : RequestStands s t) : busCyc t.core = busCyc s.core := by
  rw [busCyc, busCyc, h.proto]

theorem RequestStands.current (h : RequestStands s t) : t.target.current = s.target.current := by
  rw [Target.current, Target.current, h.plan]

/-- The answer of a request that has stood for some ticks is the answer of the request as it came up. -/
theorem Answered.of_stands (h : RequestStands s t) (hdraws : t.draws = s.draws) (h' : Answered t u) : Answered s u := by
  obtain ⟨hproto, htarget, hdraws', hevents⟩ := h'
  have hout := h.outputs
  simp only [busOut, BusOut.mk.injEq] at hout
  obtain ⟨-, -, hwe, haddr, hval, -⟩ := hout
  refine ⟨hproto, ?_, by rw [hdraws', hdraws], ?_⟩
  · rw [htarget, writePerformed, writePerformed, h.current, hdraws, hwe, haddr, hval, h.mem, h.plan]
  · rw [hevents, answerEvents, answerEvents, h.current, h.events]

theorem sysTick_draws_stands (p : Pins) (hf : frameReset s.cfg s.core = false) (ha : s.target.answers s.core = false) :
    (sysTick false p s).draws = s.draws := by
  have hcut : cutsShort false s = false := hf
  simp [Target.ends, hcut, ha]

theorem sysTick_waited_stands (p : Pins) (hb : busCyc s.core = true) (hf : frameReset s.cfg s.core = false)
    (ha : s.target.answers s.core = false) : (sysTick false p s).target.waited = s.target.waited + 1 := by
  rw [sysTick_target, show cutsShort false s = false from hf, target_tick_wait hb ha]

/-- The target answers a request that has stood for as many ticks as its plan says. -/
theorem target_answers_iff_exists {t : Target} {r : Regs} :
    t.answers r = true ↔ busCyc r = true ∧ ∃ d, t.current.delay = some d ∧ d ≤ t.waited := by
  rw [Target.answers, Bool.and_eq_true]
  cases t.current.delay <;> simp

/-- Two more ticks of the request suffice: this one and the next. -/
theorem answeredBeforeRelease_iff_exists :
    answeredBeforeRelease s = true ↔
      busCyc s.core = true ∧ s.core.csnS2 = false ∧ ∃ d, s.target.current.delay = some d ∧ d ≤ s.target.waited + 1 := by
  rw [answeredBeforeRelease, Bool.and_eq_true, Bool.and_eq_true, Bool.not_eq_true', and_assoc]
  cases s.target.current.delay <;> simp

/-- What a release finds when the core sees it, two ticks after the host's pins: no request, the answered one, or the one that
stood. -/
theorem two_ticks_before_release {v : State} (hsel : s.cfg.hasFrameSelect = true) (hlow : clockLow s.core = true)
    (h1 : s.core.csnS1 = false) (h2 : s.core.csnS2 = false)
    (hv : v = sysTick false (startPins true) (sysTick false (startPins true) s)) :
    (busCyc s.core = false ∧ NoRequest s v) ∨ (answeredBeforeRelease s = true ∧ Answered s v) ∨
      (busCyc s.core = true ∧ answeredBeforeRelease s = false ∧ RequestStands s v ∧ v.draws = s.draws) := by
  have hf : frameReset s.cfg s.core = false := by simp [frameReset, csn, h2]
  obtain ⟨hlow1, -, hcsn1, -, -⟩ := sysTick_startPins true hsel hlow
  have hf1 : frameReset (sysTick false (startPins true) s).cfg (sysTick false (startPins true) s).core = false := by
    rw [frameReset, csn, hcsn1, h1, Bool.and_false]
  subst hv
  cases hb : busCyc s.core with
  | false =>
    have first := sysTick_noRequest (startPins true) hsel hlow hf hb
    exact .inl ⟨rfl, first.trans (sysTick_noRequest (startPins true) hsel hlow1 hf1 first.quiet)⟩
  | true =>
    refine .inr ?_
    cases ha : s.target.answers s.core with
    | true =>
      -- answered in the first tick: the second finds no request
      have first := sysTick_answered (startPins true) hb hf ha
      have hb1 : busCyc (sysTick false (startPins true) s).core = false := by rw [busCyc, first.proto]; rfl
      have second := sysTick_noRequest (s := sysTick false (startPins true) s) (startPins true) hsel hlow1 hf1 hb1
      refine .inl ⟨?_, ?_⟩
      · obtain ⟨-, d, hd, hle⟩ := target_answers_iff_exists.mp ha
        exact answeredBeforeRelease_iff_exists.mpr ⟨hb, h2, d, hd, Nat.le_succ_of_le hle⟩
      · refine ⟨?_, ?_, second.draws.trans first.draws, second.events.trans first.events⟩
        · rw [second.proto, first.proto]; rfl
        · rw [second.target, first.target]
    | false =>
      have first := sysTick_requestStands (startPins true) hb hf ha
      have hb1 : busCyc (sysTick false (startPins true) s).core = true := first.busCyc_eq.trans hb
      have hdraws1 := sysTick_draws_stands (startPins true) hf ha
      have hanswers : (sysTick false (startPins true) s).target.answers (sysTick false (startPins true) s).core =
          answeredBeforeRelease s := by
        rw [Bool.eq_iff_iff, target_answers_iff_exists, answeredBeforeRelease_iff_exists, first.current,
          sysTick_waited_stands (startPins true) hb hf ha]
        simp only [hb1, hb, h2, true_and]
      cases ha1 : answeredBeforeRelease s with
      | true => exact .inl ⟨rfl, .of_stands first hdraws1 (sysTick_answered _ hb1 hf1 (hanswers.trans ha1))⟩
      | false =>
        have hno := hanswers.trans ha1
        exact .inr ⟨rfl, rfl, first.trans (sysTick_requestStands _ hb1 hf1 hno),
          (sysTick_draws_stands _ hf1 hno).trans hdraws1⟩

/-- The tick in which the core sees the release: FrameClear, a standing request cut short, FrameCancel in mid-frame. -/
theorem sysTick_release (p : Pins) (hf : frameReset s.cfg s.core = true) :
    (sysTick false p s).core = frameClear s.cfg (recover s.cfg s.core (inputsOf false p s)) ∧
    (sysTick false p s).target =
      { mem := if cutWritePerformed s && busWe s.core then
            writeWord s.target.mem (wordAddress s.core.address) s.core.value
          else s.target.mem
        plan := if busCyc s.core then s.target.plan.tail else s.target.plan, waited := 0 } ∧
    (sysTick false p s).draws = (if busCyc s.core then s.draws + 1 else s.draws) ∧
    (sysTick false p s).events =
      (if s.core.proto = .idle ∨ s.core.proto = .endFrame then [] else [.frameCancel]) ++ s.events := by
  have hcut : cutsShort false s = true := hf
  refine ⟨coreTick_release (inputsOf_rst false p s) hf, ?target, ?draws, ?events⟩
  case target =>
    rw [sysTick_target, hcut]
    cases hb : busCyc s.core with
    | true => exact target_tick_cut hb
    | false =>
      have hwe : busWe s.core = false := by
        simp only [busCyc, Bool.or_eq_false_iff] at hb
        exact hb.1
      rw [target_tick_idle true hb, hwe, Bool.and_false]
      rfl
  case draws => rw [sysTick_draws, hcut]; simp [Target.ends]
  case events => simp [raisedEvents, hf]

/-! What the release leaves of the target, the draws and the events; a further release tick leaves it too. -/

/-- The part of ReleaseDone outside the core: a standing request answered or cut short, the events of both. -/
structure ReleaseEffect (s t : State) : Prop where
  target : t.target =
    { mem := memoryAfterRelease s, waited := 0
      plan := if busCyc s.core then s.target.plan.tail else s.target.plan }
  draws : t.draws = if busCyc s.core then s.draws + 1 else s.draws
  events : t.events = (if releaseCancels s then [.frameCancel] else []) ++
    (if answeredBeforeRelease s then answerEvents s else []) ++ s.events

theorem busWe_of_quiet {r : Regs} (h : busCyc r = false) : busWe r = false := by
  simp only [busCyc, Bool.or_eq_false_iff] at h
  exact h.1

theorem not_answeredBeforeRelease (h : busCyc s.core = false) : answeredBeforeRelease s = false := by
  rw [answeredBeforeRelease, h, Bool.false_and, Bool.false_and]

/-- Frame-select already seen inactive: the first tick of the release cuts a standing request short. -/
theorem releaseEffect_seen (p : Pins) (hsel : s.cfg.hasFrameSelect = true) (h2 : s.core.csnS2 = true) :
    ReleaseEffect s (sysTick false p s) := by
  obtain ⟨-, htarget, hdraws, hevents⟩ := sysTick_release p (s := s) (by simp [frameReset, csn, hsel, h2])
  have hno : answeredBeforeRelease s = false := by rw [answeredBeforeRelease, h2, Bool.not_true, Bool.and_false, Bool.false_and]
  refine ⟨?_, hdraws, ?_⟩
  · simp only [htarget, memoryAfterRelease, hno, Bool.false_eq_true, if_false, Bool.and_comm]
  · rw [hevents, hno, releaseCancels, h2]
    cases s.core.proto <;> rfl

/-- No request stood: the release changes no memory and draws nothing. -/
theorem releaseEffect_quiet (p : Pins) (h2 : s.core.csnS2 = false) (hb : busCyc s.core = false) (h : NoRequest s t)
    (hf : frameReset t.cfg t.core = true) : ReleaseEffect s (sysTick false p t) := by
  obtain ⟨-, htarget, hdraws, hevents⟩ := sysTick_release p hf
  have hno := not_answeredBeforeRelease hb
  constructor
  case target =>
    rw [htarget]
    simp [memoryAfterRelease, h.quiet, busWe_of_quiet h.quiet, hb, busWe_of_quiet hb, h.target]
  case draws => rw [hdraws, h.quiet, hb, h.draws]
  case events =>
    rw [hevents, h.proto, h.events, hno, releaseCancels, h2]
    cases s.core.proto <;> rfl

/-- Answered before the core sees the release: what follows the answer is cancelled. -/
theorem releaseEffect_answered (p : Pins) (ha : answeredBeforeRelease s = true) (h : Answered s t)
    (hf : frameReset t.cfg t.core = true) : ReleaseEffect s (sysTick false p t) := by
  obtain ⟨-, htarget, hdraws, hevents⟩ := sysTick_release p hf
  have hb : busCyc s.core = true := (answeredBeforeRelease_iff_exists.mp ha).1
  have hquiet : busCyc t.core = false := by rw [busCyc, h.proto]; rfl
  constructor
  case target =>
    rw [htarget]
    simp [memoryAfterRelease, hquiet, busWe_of_quiet hquiet, ha, hb, h.target, and_comm]
  case draws => rw [hdraws, hquiet, hb, h.draws]; rfl
  case events =>
    rw [hevents, h.proto, h.events, ha, releaseCancels]
    simp only [busCyc, Bool.or_eq_true, beq_iff_eq] at hb
    rcases hb with hb | hb <;> rw [hb] <;> rfl

/-- The request stood until the release: it is cut short (20_memory.md R36). -/
theorem releaseEffect_cut (p : Pins) (hb : busCyc s.core = true) (ha : answeredBeforeRelease s = false)
    (h : RequestStands s t) (hdraws : t.draws = s.draws) (hf : frameReset t.cfg t.core = true) :
    ReleaseEffect s (sysTick false p t) := by
  obtain ⟨-, htarget, hdraws', hevents⟩ := sysTick_release p hf
  have hout := h.outputs
  simp only [busOut, BusOut.mk.injEq] at hout
  obtain ⟨-, -, hwe, haddr, hval, -⟩ := hout
  have hbt : busCyc t.core = true := h.busCyc_eq.trans hb
  constructor
  case target =>
    simp only [htarget, memoryAfterRelease, cutWritePerformed, h.current, hdraws, hwe, haddr, hval, h.mem, h.plan, hbt, hb,
      ha, Bool.false_eq_true, if_false, if_true, Bool.and_comm]
  case draws => rw [hdraws', hbt, hb, hdraws]
  case events =>
    rw [hevents, h.proto, h.events, ha, releaseCancels]
    simp only [busCyc, Bool.or_eq_true, beq_iff_eq] at hb
    rcases hb with hb | hb <;> rw [hb] <;> rfl

/-- A further tick of the release finds IDLE and changes nothing of it. -/
theorem ReleaseEffect.release_tick (h : ReleaseEffect s t) (p : Pins) (hf : frameReset t.cfg t.core = true)
    (hidle : t.core.proto = .idle) : ReleaseEffect s (sysTick false p t) := by
  obtain ⟨-, htarget, hdraws, hevents⟩ := sysTick_release p hf
  have hb : busCyc t.core = false := by rw [busCyc, hidle]; rfl
  exact ⟨by rw [htarget]; simp [hb, busWe_of_quiet hb, h.target], by rw [hdraws, hb]; exact h.draws,
    by rw [hevents, hidle]; exact h.events⟩

/-- Two ticks of the release and the one that sees it, from frame-select still asserted. -/
theorem releaseEffect_of_asserted {v : State} (hsel : s.cfg.hasFrameSelect = true) (hlow : clockLow s.core = true)
    (h1 : s.core.csnS1 = false) (h2 : s.core.csnS2 = false)
    (hv : v = sysTick false (startPins true) (sysTick false (startPins true) s)) (hf : frameReset v.cfg v.core = true) :
    ReleaseEffect s (sysTick false (startPins true) v) := by
  rcases two_ticks_before_release hsel hlow h1 h2 hv with ⟨hb, h⟩ | ⟨ha, h⟩ | ⟨hb, ha, h, hdraws⟩
  · exact releaseEffect_quiet _ h2 hb h hf
  · exact releaseEffect_answered _ ha h hf
  · exact releaseEffect_cut _ hb ha h hdraws hf

/-- The three ticks of the release from frame-select already inactive: the first one does it all. -/
theorem releaseEffect_of_inactive {v : State} (hsel : s.cfg.hasFrameSelect = true) (h2 : s.core.csnS2 = true)
    (h1 : s.core.csnS1 = true) (hlow : clockLow s.core = true)
    (hv : v = sysTick false (startPins true) (sysTick false (startPins true) s)) (hf : frameReset v.cfg v.core = true) :
    ReleaseEffect s (sysTick false (startPins true) v) := by
  have hf0 : frameReset s.cfg s.core = true := by simp [frameReset, csn, hsel, h2]
  obtain ⟨-, -, hcsn, -, -⟩ := sysTick_startPins true hsel hlow
  have hf1 : frameReset s.cfg (sysTick false (startPins true) s).core = true := by
    simp [frameReset, csn, hsel, hcsn, h1, -sysTick_core]
  have first := releaseEffect_seen (startPins true) hsel h2
  have idle1 : (sysTick false (startPins true) s).core.proto = .idle := by
    rw [(sysTick_release (startPins true) hf0).1]
    rfl
  have second := first.release_tick (startPins true) hf1 idle1
  have idle2 : v.core.proto = .idle := by
    rw [hv, (sysTick_release (s := sysTick false (startPins true) s) (startPins true) hf1).1]
    rfl
  subst hv
  exact second.release_tick (startPins true) hf idle2

/-- The registers FrameClear leaves with the clock low and frame-select seen inactive. -/
theorem frameClear_cleared {cfg : Config} {r r' : Regs} (hsel : cfg.hasFrameSelect = true) (hr : r = frameClear cfg r')
    (hlow : clockLow r = true) (h1 : r.csnS1 = true) (h2 : r.csnS2 = true) :
    r = { Regs.reset with
      proto := .idle, csnS1 := true, csnS2 := true, window := r.window, dinS1 := r.dinS1, dinS2 := r.dinS2 } := by
  simp only [clockLow, Bool.and_eq_true, Bool.not_eq_true'] at hlow
  obtain ⟨⟨c1, c2⟩, c3⟩ := hlow
  subst hr
  simp only [frameClear, Regs.reset, hsel, if_true] at c1 c2 c3 h1 h2 ⊢
  rw [c1, c2, c3, h1, h2]

theorem releaseSelect_eq (s : State) :
    releaseSelect s =
      sysTick false (startPins true) (sysTick false (startPins true) (sysTick false (startPins true) s)) := rfl

/-- The release, from every protocol state with the clock low and frame-select steady. -/
theorem releaseDone_releaseSelect (hsel : s.cfg.hasFrameSelect = true) (hlow : clockLow s.core = true)
    (hn : s.core.csnS1 = s.core.csnS2) : ReleaseDone s (releaseSelect s) ∧ clockLow (releaseSelect s).core = true := by
  obtain ⟨v1, hv1⟩ : ∃ v1, v1 = sysTick false (startPins true) s := ⟨_, rfl⟩
  obtain ⟨v, hv⟩ : ∃ v, v = sysTick false (startPins true) v1 := ⟨_, rfl⟩
  obtain ⟨t, ht⟩ : ∃ t, t = sysTick false (startPins true) v := ⟨_, rfl⟩
  have hsel1 : v1.cfg.hasFrameSelect = true := by rw [hv1]; exact hsel
  have hselv : v.cfg.hasFrameSelect = true := by rw [hv]; exact hsel1
  obtain ⟨low1, in1, -, win1, host1⟩ := hv1 ▸ sysTick_startPins true hsel hlow
  obtain ⟨lowv, inv, seenv, winv, hostv⟩ := hv ▸ sysTick_startPins true hsel1 low1
  obtain ⟨lowt, int, seent, wint, hostt⟩ := ht ▸ sysTick_startPins true hselv lowv
  have hf : frameReset v.cfg v.core = true := by simp [frameReset, csn, hselv, seenv, in1]
  have heff : ReleaseEffect s t := by
    rw [ht]
    cases h2 : s.core.csnS2 with
    | true => exact releaseEffect_of_inactive hsel h2 (hn.trans h2) hlow (hv.trans (hv1 ▸ rfl)) hf
    | false => exact releaseEffect_of_asserted hsel hlow (hn.trans h2) h2 (hv.trans (hv1 ▸ rfl)) hf
  have hcore := frameClear_cleared hselv (r := t.core) (ht ▸ (sysTick_release (startPins true) hf).1) lowt int (seent.trans inv)
  have hrel : releaseSelect s = t := by rw [releaseSelect_eq, ← hv1, ← hv, ← ht]
  rw [hrel]
  refine ⟨⟨?_, heff.target, heff.draws, heff.events, ?_, ?_, ?_⟩, lowt⟩
  · rw [clearedCore, ← win1, ← winv, ← wint]
    exact hcore
  · rw [ht, hv, hv1]; rfl
  · rw [hostt, hostv, host1]; rfl
  · rw [← hrel, releaseSelect, hold_board]

/-! The frame that follows. -/

/-- An instruction runs from where its frame opens. -/
theorem exec_of_openFrame_eq (h : openFrame s = openFrame t) (i : Instr) : exec i s = exec i t := by
  have hsend : ∀ j, sendRequest j s = sendRequest j t := fun j => by rw [sendRequest, sendRequest, h]
  have hans : ∀ j, answeredFrame j s = answeredFrame j t := fun j => by rw [answeredFrame, answeredFrame, hsend]
  have hsil : ∀ j, silentFrame j s = silentFrame j t := fun j => by rw [silentFrame, silentFrame, hsend]
  cases i with
  | wr addr val => exact congrArg Host.Outcome.next (hans _)
  | rd addr => exact congrArg Host.Outcome.next (hans _)
  | abort02 b => exact congrArg Host.Outcome.next (hsil _)
  | abort04 b => exact congrArg Host.Outcome.next (hsil _)
  | abort08 b => exact congrArg Host.Outcome.next (hsil _)
  | abort10 b => exact congrArg Host.Outcome.next (hsil _)
  | abort20 b => exact congrArg Host.Outcome.next (hsil _)
  | abort40 b => exact congrArg Host.Outcome.next (hsil _)
  | abort80 b => exact congrArg Host.Outcome.next (hsil _)
  | sync => exact congrArg Host.Outcome.next (hsil _)

/-- A released link is at rest. -/
theorem ReleaseDone.linkAtRest (h : ReleaseDone s t) (hsel : s.cfg.hasFrameSelect = true) (hlow : clockLow t.core = true) :
    linkAtRest t = true := by
  obtain ⟨hcore, -, -, -, hcfg, -, -⟩ := h
  rw [clearedCore] at hcore
  rw [Machine.linkAtRest, hcfg, hsel, hlow, hcore]
  rfl

/-- The released link with the board's line set back by the ticks of the release. -/
def beforeRelease (s t : State) : State := { t with board := s.board }

/-- The frame start of `s` is the frame start of the released link: a second release changes nothing. -/
theorem ReleaseDone.openFrame_eq (h : ReleaseDone s (releaseSelect s)) (hsel : s.cfg.hasFrameSelect = true)
    (hlow : clockLow (releaseSelect s).core = true) : openFrame s = openFrame (beforeRelease s (releaseSelect s)) := by
  obtain ⟨hcore, htarget, -, -, hcfg, hhost, hboard⟩ := h
  rw [clearedCore] at hcore
  have hselt : (beforeRelease s (releaseSelect s)).cfg.hasFrameSelect = true := (congrArg _ hcfg).trans hsel
  have hpassed : passed releaseTicks (beforeRelease s (releaseSelect s)) = releaseSelect s := by
    rw [passed, beforeRelease, ← hboard]
  have hclear : (releaseSelect s).core = frameClear (releaseSelect s).cfg (releaseSelect s).core := by
    rw [hcore, frameClear, hcfg, hsel]
    rfl
  rw [openFrame_release hsel, openFrame_released hselt hlow (by rw [beforeRelease, hcore]) (by rw [beforeRelease, hcore]) hclear
    (congrArg HostAgent.pins hhost) (by rw [beforeRelease, htarget]), hpassed]

end

/-- Settles O60: two ticks of the release run without an edge, the third does FrameClear, and the next frame's own release
changes nothing more. -/
theorem frameAfterAnyFrame : Obligations.FrameAfterAnyFrame := by
  intro s hsel hlow hn
  obtain ⟨hdone, hlowt⟩ := releaseDone_releaseSelect hsel hlow hn
  have hrest := hdone.linkAtRest hsel hlowt
  have hopen := hdone.openFrame_eq hsel hlowt
  obtain ⟨d1, d2, hu⟩ := openFrame_rest (s := beforeRelease s (releaseSelect s)) hrest
  have hu := hopen.trans hu
  have ⟨hcore, htarget, _, _, hcfg, hhost, _⟩ := hdone
  have hwindow : (releaseSelect s).core.window = s.core.window := by rw [hcore]
  refine ⟨hdone, hrest, ?core, ?target, by rw [hu]; rfl, by rw [hu]; rfl, (congrArg State.cfg hu).trans hcfg,
    ?host, congrArg State.board hu, exec_of_openFrame_eq hopen⟩
  case core =>
    simp only [clearedCore, hu, restStage, openedRegs, beforeRelease, hwindow, Regs.reset]
  case target =>
    rw [hu]
    simp only [restStage, beforeRelease, passed_target, htarget]
  case host =>
    rw [hu]
    simp only [restStage, beforeRelease, passed_host, hhost]
    rfl

end Sys2Proof.Machine
